-- ==== Sys2Proof/Word.lean ====
section
/-! DEFINITION. The machine's bit-vector types. -/

namespace Sys2Proof

/-- A byte of the data address space (00_scope.md R9: bit 0 is the least significant bit). -/
abbrev Byte := BitVec 8

/-- A command word (30_encoding.md R49, R63: exactly 32 bits). -/
abbrev Word := BitVec 32

/-- The data operand DIN and the data result DOUT (30_encoding.md R56, R57: 128 bits). -/
abbrev Data := BitVec 128

end Sys2Proof
end

