-- ==== Sys2Proof/Syntax.lean ====
section
/-! DEFINITION. The commands as syntax: the seven commands a word decodes to, the command with its operand values, and
the assembler's lines. -/

namespace Sys2Proof

/-- Bit order: "the convention for which bit within a byte is logically first" (00_scope.md R12; ORD, 30_encoding.md R51). -/
inductive BitOrder where
  /-- ORD = 0 -/
  | lsb0
  /-- ORD = 1 -/
  | msb0
deriving DecidableEq, Repr

/-- The type widths, "a fixed, closed enumeration (8/16/32/64/128)" (00_scope.md R7; TW, 30_encoding.md R52). -/
inductive Width where
  | w8
  | w16
  | w32
  | w64
  | w128
deriving DecidableEq, Repr

/-- A decoded command (30_encoding.md R62): one constructor per row of the opcode table, with the fields its word holds.
The operand values travel beside the word (`Operands`). LEN and BIT have the width of their fields (R53, R54), so every
term has a command word. -/
inductive Instr where
  /-- RD.NEW: construct a reader (42_cursor.md R93) -/
  | rdNew (order : BitOrder)
  /-- WR.NEW: construct a writer (R94) -/
  | wrNew (order : BitOrder)
  /-- RD: read `len` bits at the cursor (R95) -/
  | rd (width : Width) (len : BitVec 8)
  /-- WR: write `len` bits of DIN at the cursor (R96) -/
  | wr (width : Width) (len : BitVec 8)
  /-- RD.AT: read `len` bits at an explicit position (43_free.md R102) -/
  | rdAt (order : BitOrder) (width : Width) (len : BitVec 8) (bit : BitVec 3)
  /-- WR.AT: write `len` bits of DIN at an explicit position (R103) -/
  | wrAt (order : BitOrder) (width : Width) (len : BitVec 8) (bit : BitVec 3)
  /-- DROP: release the reader or writer (42_cursor.md R97) -/
  | drop
deriving DecidableEq, Repr

/-- The operand values that travel with a command word (30_encoding.md R56). BASE, BLEN and BYTE are ADDR_W bits wide,
which `Operands.fit` checks. -/
structure Operands where
  /-- data address of buffer byte 0 -/
  base : Nat
  /-- buffer length in bytes -/
  blen : Nat
  /-- starting byte_index -/
  byte : Nat
  /-- the value to write -/
  din  : Data
deriving DecidableEq, Repr

/-- All operand values zero. -/
def Operands.zero : Operands := { base := 0, blen := 0, byte := 0, din := 0 }

/-- One command as the host sends it: the 32-bit word and the operand values (30_encoding.md R48). -/
structure Command where
  word     : Word
  operands : Operands
deriving DecidableEq, Repr

/-- A line of the spec's assembler (30_encoding.md R64), with its operands as the naturals written there. -/
inductive AsmLine where
  /-- `rd.new o, BASE, BLEN` -/
  | rdNew (order : BitOrder) (base blen : Nat)
  /-- `wr.new o, BASE, BLEN` -/
  | wrNew (order : BitOrder) (base blen : Nat)
  /-- `rd.uW LEN` -/
  | rd (width : Width) (len : Nat)
  /-- `wr.uW LEN, DIN` -/
  | wr (width : Width) (len din : Nat)
  /-- `rd.at.uW o, BASE, BLEN, BYTE, BIT, LEN` -/
  | rdAt (width : Width) (order : BitOrder) (base blen byte bit len : Nat)
  /-- `wr.at.uW o, BASE, BLEN, BYTE, BIT, LEN, DIN` -/
  | wrAt (width : Width) (order : BitOrder) (base blen byte bit len din : Nat)
  /-- `drop` -/
  | drop
deriving DecidableEq, Repr

end Sys2Proof
end

