-- ==== Sys2Proof/WellFormed.lean ====
section
/-! DEFINITION. Which syntax has a command on the hardware: the widths of the operand wires and of the word's fields.
A term of `Instr` needs no check: its fields have their field's width by type, and 30_encoding.md R53 makes every LEN
encodable. -/

namespace Sys2Proof

/-- BASE, BLEN and BYTE are ADDR_W bits wide (30_encoding.md R56); DIN is 128 bits by type. -/
def Operands.fit (addrW : Nat) (o : Operands) : Bool :=
  decide (o.base < 2 ^ addrW) && decide (o.blen < 2 ^ addrW) && decide (o.byte < 2 ^ addrW)

/-- A LEN that the 8-bit field holds (30_encoding.md R53: "A source `len` above 255 cannot be encoded"). -/
def lenEncodable (len : Nat) : Bool := decide (len < 256)

/-- A BIT that the 3-bit field holds (30_encoding.md R54; 93_implementation_defined.md I13: "such a call has no command
word"). -/
def bitEncodable (bit : Nat) : Bool := decide (bit < 8)

/-- A DIN that the 128 data wires hold (30_encoding.md R56). -/
def dinFits (din : Nat) : Bool := decide (din < 2 ^ 128)

/-- A buffer descriptor or position whose numbers the ADDR_W-bit operand wires hold (30_encoding.md R56). -/
def addressFits (addrW a : Nat) : Bool := decide (a < 2 ^ addrW)

/-- An assembler line that stands for a command of a BCU with address width `addrW` (30_encoding.md R53, R54, R56, R64). -/
def AsmLine.wf (addrW : Nat) : AsmLine → Bool
  | .rdNew _ base blen => addressFits addrW base && addressFits addrW blen
  | .wrNew _ base blen => addressFits addrW base && addressFits addrW blen
  | .rd _ len => lenEncodable len
  | .wr _ len din => lenEncodable len && dinFits din
  | .rdAt _ _ base blen byte bit len =>
    addressFits addrW base && addressFits addrW blen && addressFits addrW byte && bitEncodable bit &&
      lenEncodable len
  | .wrAt _ _ base blen byte bit len din =>
    addressFits addrW base && addressFits addrW blen && addressFits addrW byte && bitEncodable bit &&
      lenEncodable len && dinFits din
  | .drop => true

end Sys2Proof
end

