-- ==== Sys2Proof/Decode.lean ====
section
/-! DEFINITION. The decoder of command words, total and rejecting by name; the encoder, from the same field table; the
opcode map as rows; the assembler. -/

namespace Sys2Proof

/-! ### The fields of the one word format (30_encoding.md R49) -/

/-- OP, bits [3:0]. -/
def Word.op (w : Word) : BitVec 4 := w.extractLsb' 0 4
/-- ORD, bit [4]. -/
def Word.ord (w : Word) : BitVec 1 := w.extractLsb' 4 1
/-- TW, bits [7:5]. -/
def Word.tw (w : Word) : BitVec 3 := w.extractLsb' 5 3
/-- LEN, bits [15:8]. -/
def Word.len (w : Word) : BitVec 8 := w.extractLsb' 8 8
/-- BIT, bits [18:16]. -/
def Word.bit (w : Word) : BitVec 3 := w.extractLsb' 16 3
/-- RSV, bits [31:19]. -/
def Word.rsv (w : Word) : BitVec 13 := w.extractLsb' 19 13

/-- Why a word is illegal (30_encoding.md R60). -/
inductive DecodeError where
  /-- RSV ≠ 0 (R55) -/
  | reservedBits
  /-- OP is 0x0 or 0x9 to 0xF (R50, R61) -/
  | reservedOpcode (op : BitVec 4)
  /-- OP is 0x8, reserved for the seek extension (R61) -/
  | reservedForSeek
  /-- TW is 5, 6 or 7 on an opcode that uses TW (R52) -/
  | noSuchWidth (tw : BitVec 3)
  /-- ORD = 1 on RD, WR or DROP (R51) -/
  | ordMustBeZero
  /-- TW ≠ 0 on an opcode that does not use it (R52) -/
  | twMustBeZero
  /-- LEN ≠ 0 on an opcode that does not use it (R53) -/
  | lenMustBeZero
  /-- BIT ≠ 0 on an opcode that does not use it (R54) -/
  | bitMustBeZero
deriving DecidableEq, Repr

/-- ORD: 0 = Lsb0, 1 = Msb0 (30_encoding.md R51). -/
def orderOfField (ord : BitVec 1) : BitOrder := if ord = 0 then .lsb0 else .msb0

/-- TW: the width it names, none for 5, 6 and 7 (30_encoding.md R52). -/
def widthOfField (tw : BitVec 3) : Option Width :=
  if tw = 0 then some .w8
  else if tw = 1 then some .w16
  else if tw = 2 then some .w32
  else if tw = 3 then some .w64
  else if tw = 4 then some .w128
  else none

/-- The number of bits W of the type (30_encoding.md R52: `W = 8 << TW`). -/
def Width.bits : Width → Nat
  | .w8   => 8
  | .w16  => 16
  | .w32  => 32
  | .w64  => 64
  | .w128 => 128

/-- The arm `0x1, 0x2` of 30_encoding.md R62. -/
def decodeNew (make : BitOrder → Instr) (w : Word) : Except DecodeError Instr :=
  if Word.tw w ≠ 0 then .error .twMustBeZero
  else if Word.len w ≠ 0 then .error .lenMustBeZero
  else if Word.bit w ≠ 0 then .error .bitMustBeZero
  else .ok (make (orderOfField (Word.ord w)))

/-- The arm `0x3, 0x4` of 30_encoding.md R62. -/
def decodeCursor (make : Width → BitVec 8 → Instr) (w : Word) : Except DecodeError Instr :=
  if Word.ord w ≠ 0 then .error .ordMustBeZero
  else if Word.bit w ≠ 0 then .error .bitMustBeZero
  else match widthOfField (Word.tw w) with
    | none => .error (.noSuchWidth (Word.tw w))
    | some width => .ok (make width (Word.len w))

/-- The arm `0x5, 0x6` of 30_encoding.md R62. -/
def decodeAt (make : BitOrder → Width → BitVec 8 → BitVec 3 → Instr) (w : Word) : Except DecodeError Instr :=
  match widthOfField (Word.tw w) with
  | none => .error (.noSuchWidth (Word.tw w))
  | some width => .ok (make (orderOfField (Word.ord w)) width (Word.len w) (Word.bit w))

/-- The arm `0x7` of 30_encoding.md R62. -/
def decodeDrop (w : Word) : Except DecodeError Instr :=
  if Word.ord w ≠ 0 then .error .ordMustBeZero
  else if Word.tw w ≠ 0 then .error .twMustBeZero
  else if Word.len w ≠ 0 then .error .lenMustBeZero
  else if Word.bit w ≠ 0 then .error .bitMustBeZero
  else .ok .drop

/-- Decode is total: every word is one of the seven commands or illegal (30_encoding.md R62). -/
def decode (w : Word) : Except DecodeError Instr :=
  if Word.rsv w ≠ 0 then .error .reservedBits
  else if Word.op w = 0x1 then decodeNew .rdNew w
  else if Word.op w = 0x2 then decodeNew .wrNew w
  else if Word.op w = 0x3 then decodeCursor .rd w
  else if Word.op w = 0x4 then decodeCursor .wr w
  else if Word.op w = 0x5 then decodeAt .rdAt w
  else if Word.op w = 0x6 then decodeAt .wrAt w
  else if Word.op w = 0x7 then decodeDrop w
  else if Word.op w = 0x8 then .error .reservedForSeek
  else .error (.reservedOpcode (Word.op w))

/-- The instruction the decoder reads from a table word of `nbits` bits, numbered as spec/opcode_table.json numbers it.
A command word is one 32-bit word on the command port (30_encoding.md R49, R63), so it is taken as it stands. -/
def decodeTableWord (nbits w : Nat) : Option Instr :=
  if nbits ≤ 32 ∧ w < 2 ^ nbits then
    match decode (BitVec.ofNat 32 w) with
    | .ok i => some i
    | .error _ => none
  else none

/-! ### The encoder -/

/-- ORD of an order (30_encoding.md R51). -/
def BitOrder.field : BitOrder → BitVec 1
  | .lsb0 => 0
  | .msb0 => 1

/-- TW of a width (30_encoding.md R52). -/
def Width.field : Width → BitVec 3
  | .w8   => 0
  | .w16  => 1
  | .w32  => 2
  | .w64  => 3
  | .w128 => 4

/-- A word from its fields, RSV = 0 (30_encoding.md R49, R55). -/
def packWord (op : BitVec 4) (ord : BitVec 1) (tw : BitVec 3) (len : BitVec 8) (bit : BitVec 3) : Word :=
  op.setWidth 32 ||| (ord.setWidth 32 <<< 4) ||| (tw.setWidth 32 <<< 5) ||| (len.setWidth 32 <<< 8) |||
    (bit.setWidth 32 <<< 16)

/-- The command word of an instruction (30_encoding.md R50, R59). -/
def encode : Instr → Word
  | .rdNew o          => packWord 0x1 o.field 0 0 0
  | .wrNew o          => packWord 0x2 o.field 0 0 0
  | .rd w len         => packWord 0x3 0 w.field len 0
  | .wr w len         => packWord 0x4 0 w.field len 0
  | .rdAt o w len bit => packWord 0x5 o.field w.field len bit
  | .wrAt o w len bit => packWord 0x6 o.field w.field len bit
  | .drop             => packWord 0x7 0 0 0 0

/-! ### The opcode map as rows (30_encoding.md R59) -/

/-- The seven mnemonics of the opcode map. -/
inductive Mnemonic where
  | rdNew
  | wrNew
  | rd
  | wr
  | rdAt
  | wrAt
  | drop
deriving DecidableEq, Repr

/-- The mnemonic of an instruction. -/
def Instr.mnemonic : Instr → Mnemonic
  | .rdNew _      => .rdNew
  | .wrNew _      => .wrNew
  | .rd _ _       => .rd
  | .wr _ _       => .wr
  | .rdAt _ _ _ _ => .rdAt
  | .wrAt _ _ _ _ => .wrAt
  | .drop         => .drop

/-- The column "match" of 30_encoding.md R59. -/
def Mnemonic.pattern : Mnemonic → Word
  | .rdNew => 0x00000001
  | .wrNew => 0x00000002
  | .rd    => 0x00000003
  | .wr    => 0x00000004
  | .rdAt  => 0x00000005
  | .wrAt  => 0x00000006
  | .drop  => 0x00000007

/-- The column "mask" of 30_encoding.md R59. -/
def Mnemonic.mask : Mnemonic → Word
  | .rdNew => 0xFFFFFFEF
  | .wrNew => 0xFFFFFFEF
  | .rd    => 0xFFFF001F
  | .wr    => 0xFFFF001F
  | .rdAt  => 0xFFF8000F
  | .wrAt  => 0xFFF8000F
  | .drop  => 0xFFFFFFFF

/-- The mnemonics that use TW (30_encoding.md R52). -/
def Mnemonic.usesWidth : Mnemonic → Bool
  | .rdNew => false
  | .wrNew => false
  | .rd    => true
  | .wr    => true
  | .rdAt  => true
  | .wrAt  => true
  | .drop  => false

/-- "A word selects mnemonic m when `(word & mask_m) == match_m` and, for RD, WR, RD.AT and WR.AT, also TW ≤ 4"
(30_encoding.md R59). -/
def Mnemonic.selectedBy (m : Mnemonic) (w : Word) : Bool :=
  (w &&& m.mask == m.pattern) && (!m.usesWidth || decide ((Word.tw w).toNat ≤ 4))

/-! ### The assembler (30_encoding.md R64) -/

/-- The instruction of an assembler line; `AsmLine.wf` says when the line has one. -/
def AsmLine.instr : AsmLine → Instr
  | .rdNew o _ _ => .rdNew o
  | .wrNew o _ _ => .wrNew o
  | .rd w len => .rd w (BitVec.ofNat 8 len)
  | .wr w len _ => .wr w (BitVec.ofNat 8 len)
  | .rdAt w o _ _ _ bit len => .rdAt o w (BitVec.ofNat 8 len) (BitVec.ofNat 3 bit)
  | .wrAt w o _ _ _ bit len _ => .wrAt o w (BitVec.ofNat 8 len) (BitVec.ofNat 3 bit)
  | .drop => .drop

/-- The operand values of an assembler line; those its opcode does not use are 0. -/
def AsmLine.operands : AsmLine → Operands
  | .rdNew _ base blen => { Operands.zero with base := base, blen := blen }
  | .wrNew _ base blen => { Operands.zero with base := base, blen := blen }
  | .rd _ _ => Operands.zero
  | .wr _ _ din => { Operands.zero with din := BitVec.ofNat 128 din }
  | .rdAt _ _ base blen byte _ _ => { Operands.zero with base := base, blen := blen, byte := byte }
  | .wrAt _ _ base blen byte _ _ din => { base := base, blen := blen, byte := byte, din := BitVec.ofNat 128 din }
  | .drop => Operands.zero

/-- The command a line stands for on a BCU with address width `addrW`; none where no such command exists
(30_encoding.md R64, R65: every line is one command word). -/
def AsmLine.assemble (addrW : Nat) (l : AsmLine) : Option Command :=
  if l.wf addrW then some { word := encode l.instr, operands := l.operands } else none

/-- `lsb0` or `msb0` (30_encoding.md R64). -/
def BitOrder.text : BitOrder → String
  | .lsb0 => "lsb0"
  | .msb0 => "msb0"

/-- `u8 u16 u32 u64 u128` (30_encoding.md R64). -/
def Width.text : Width → String
  | .w8   => "u8"
  | .w16  => "u16"
  | .w32  => "u32"
  | .w64  => "u64"
  | .w128 => "u128"

/-- The operand list of a line: separated by a comma and a space. -/
def AsmLine.operandText : List String → String
  | []           => ""
  | [a]          => a
  | a :: b :: xs => a ++ ", " ++ AsmLine.operandText (b :: xs)

/-- The text of an assembler line, operands in decimal (30_encoding.md R64). -/
def AsmLine.text : AsmLine → String
  | .rdNew o base blen =>
    "rd.new " ++ AsmLine.operandText [o.text, toString base, toString blen]
  | .wrNew o base blen =>
    "wr.new " ++ AsmLine.operandText [o.text, toString base, toString blen]
  | .rd w len => "rd." ++ w.text ++ " " ++ toString len
  | .wr w len din => "wr." ++ w.text ++ " " ++ AsmLine.operandText [toString len, toString din]
  | .rdAt w o base blen byte bit len =>
    "rd.at." ++ w.text ++ " " ++
      AsmLine.operandText [o.text, toString base, toString blen, toString byte, toString bit, toString len]
  | .wrAt w o base blen byte bit len din =>
    "wr.at." ++ w.text ++ " " ++
      AsmLine.operandText [o.text, toString base, toString blen, toString byte, toString bit, toString len,
        toString din]
  | .drop => "drop"

end Sys2Proof
end

