-- ==== Sys2Proof/Config.lean ====
section
/-! DEFINITION. The implementation parameters the spec leaves OPEN (00_scope.md R8) and the free values. -/

namespace Sys2Proof

/-- The OPEN parameters of 00_scope.md R8, as plain data that State carries and no step writes. A claim about every
state is a claim about every value of them. -/
structure Config where
  /-- `ADDR_W`: the width in bits of a data address and of BASE, BLEN, BYTE and BYTE_INDEX (D2; at least 1). -/
  addrW  : Nat
  /-- `N_UNITS`: the number of BCUs sharing the data address space (D16; at least 1). -/
  nUnits : Nat
deriving DecidableEq, Repr

/-- The number of bytes of the data address space, 2^ADDR_W (20_memory.md R30). -/
abbrev Config.space (c : Config) : Nat := 2 ^ c.addrW

/-- The parameters of `State.reset`: ADDR_W = 16, as 95_test_vectors.md takes it, and one unit.
DESIGN CHOICE (log entries 1 and 2): the spec leaves both open. -/
def Config.default : Config := { addrW := 16, nUnits := 1 }

/-- FREE VALUE (log entry 8): the byte that a reset in the middle of a write leaves at each address of the interrupted
command's range (70_reset_and_hazards.md R124; 93_implementation_defined.md I6, `any value`), for the `n`-th such byte. -/
opaque Config.freeByte : Nat → Byte

/-- FREE VALUE (log entry 10): the result of a bit-slice primitive called outside `0 ≤ start ≤ stop ≤ W`, for which the
source gives no behaviour (40_bit_slice.md R73; I3). Its arguments are W, x, start and stop. No command reaches it. -/
opaque Config.brokenSlice : Nat → Nat → Nat → Nat → Nat

end Sys2Proof
end

