-- ==== Sys2Proof/Machine/State.lean ====
section
/-! DEFINITION. The state of the machine as plain data: the units' registers, their running commands, the data address
space, the two ports, the parameters and the host's script; the reasons a step can stop; the state after reset. -/

namespace Sys2Proof.Machine

/-- `ctx.ROLE` (10_state.md R15, R20): 0 = Reader, 1 = Writer. -/
inductive Role where
  | reader
  | writer
deriving DecidableEq, Repr

/-- The context of a unit, the state of one reader or one writer (10_state.md R15). BASE, BLEN and BYTE_INDEX are ADDR_W
bits wide: `Context.wf` (Safety.lean) says so, and every step keeps it (log entry 4). -/
structure Context where
  /-- `ctx.VALID`: a reader or writer is bound (R16) -/
  valid     : Bool
  /-- `ctx.ROLE` (R20) -/
  role      : Role
  /-- `ctx.ORDER` (R19) -/
  order     : BitOrder
  /-- `ctx.BASE`: data address of buffer byte 0 (R21) -/
  base      : Nat
  /-- `ctx.BLEN`: buffer length in bytes (R21) -/
  blen      : Nat
  /-- `ctx.BYTE_INDEX`: the byte part of the cursor (R17) -/
  byteIndex : Nat
  /-- `ctx.BIT_INDEX`: the bit part, counted in stream order (R18) -/
  bitIndex  : BitVec 3
deriving DecidableEq, Repr

/-- The reset values of 10_state.md R28. -/
def Context.reset : Context :=
  { valid := false, role := .reader, order := .lsb0, base := 0, blen := 0, byteIndex := 0, bitIndex := 0 }

/-- Whether a running command reads or writes the buffer. -/
inductive Direction where
  | read
  | write
deriving DecidableEq, Repr

/-- Where a running command took its buffer and position from: the context (RD, WR) or its operands (RD.AT, WR.AT). -/
inductive Issuer where
  | cursor
  | free
deriving DecidableEq, Repr

/-- The hidden in-flight state of a command that has passed its checks and is in its chunk loop (10_state.md R29): the
command's coordinates (41_bit_order.md R75) and the loop variables (R76, R78 to R81). It exists between two steps only
for a command given byte access by byte access. -/
structure Transfer where
  direction : Direction
  issuer    : Issuer
  order     : BitOrder
  base      : Nat
  blen      : Nat
  byte0     : Nat
  bit0      : BitVec 3
  len       : BitVec 8
  width     : Width
  /-- bits still to move -/
  rem       : Nat
  /-- buffer index of the byte of the next chunk -/
  byte      : Nat
  /-- bits of that byte already passed -/
  bit       : Nat
  /-- the read paths' accumulator -/
  acc       : Nat
  /-- bits accumulated so far (the Lsb0 read path's `done`) -/
  done      : Nat
  /-- the write paths' value -/
  val       : Nat
  /-- the byte a write chunk has read and not yet written back (20_memory.md R39, R41) -/
  held      : Option Byte
deriving DecidableEq, Repr

/-- One bit-cursor unit: its context, its FAULT bit (10_state.md R22) and the command it is running, if any. -/
structure Bcu where
  ctx      : Context
  /-- `FAULT`: sticky, set by FATAL, cleared by reset alone -/
  fault    : Bool
  inFlight : Option Transfer
deriving DecidableEq, Repr

/-- A unit after reset (10_state.md R28; 70_reset_and_hazards.md R123). -/
def Bcu.reset : Bcu := { ctx := Context.reset, fault := false, inFlight := none }

/-- STATUS of a response (30_encoding.md R58); the codes 6 and 7 are never returned. -/
inductive Status where
  | ok
  | zeroLength
  | bufferExhausted
  | widthExceeded
  | illegalCommand
  | fatal
deriving DecidableEq, Repr

/-- The response of one command (30_encoding.md R57). POS_BYTE is ADDR_W bits wide. -/
structure Response where
  status  : Status
  dout    : Data
  req     : BitVec 8
  twid    : BitVec 8
  posByte : Nat
  posBit  : BitVec 3
deriving DecidableEq, Repr

/-- The data address space: the listed bytes, addresses strictly rising, none equal to what an unlisted address reads
as (`Memory.wf`). -/
abbrev Memory := List Host.Cell

/-- Who makes a byte access (20_memory.md R44; 70_reset_and_hazards.md R126). -/
inductive Agent where
  | host
  | unit (n : Nat)
deriving DecidableEq, Repr

/-- MemRead or MemWrite (00_scope.md R10). -/
inductive AccessKind where
  | read
  | write
deriving DecidableEq, Repr

/-- One single-byte access (20_memory.md R36): who, which kind, where, and the byte read or written. -/
structure Access where
  agent : Agent
  kind  : AccessKind
  addr  : Nat
  value : Byte
deriving DecidableEq, Repr

/-- The memory all agents share, with the total order of accesses made so far, newest first (20_memory.md R44). The log
is the model's own record; no unit can read it. -/
structure Bus where
  mem : Memory
  log : List Access
deriving DecidableEq, Repr

/-- A move still to come: the host's doings (70_reset_and_hazards.md R126) and the schedule of the units' byte accesses
(20_memory.md R44: "A model holds it open as a schedule its claims quantify over"). -/
inductive Input where
  /-- the host sends a command to unit `unit`, which performs it whole, as one indivisible step (R132) -/
  | command (unit : Nat) (c : Command)
  /-- the host sends a command to unit `unit`, which accepts it and from then on makes its byte accesses one `tick` at a
  time (R131) -/
  | accept (unit : Nat) (c : Command)
  /-- unit `unit` makes the next byte access of its running command, or returns its response -/
  | tick (unit : Nat)
  /-- the host reads the byte at an address -/
  | hostRead (addr : Nat)
  /-- the host writes a byte -/
  | hostWrite (addr : Nat) (value : Byte)
  /-- the host resets unit `unit` (R123) -/
  | reset (unit : Nat)
deriving DecidableEq, Repr

/-- The whole machine. -/
structure State where
  /-- ADDR_W and N_UNITS (00_scope.md R8); no step writes them -/
  config    : Config
  /-- the units, numbered from 0 (60_exceptions.md R122) -/
  units     : List Bcu
  /-- the data address space they share with the host -/
  bus       : Bus
  /-- the unit the command being performed was sent to (30_encoding.md R48) -/
  cur       : Nat
  /-- the operand values that came with it (R56) -/
  port      : Operands
  /-- the responses returned, with their unit's number, newest first (R57) -/
  responses : List (Nat × Response)
  /-- the moves still to come -/
  inputs    : List Input
  /-- the number of the next free byte (log entry 8) -/
  freeNext  : Nat
deriving DecidableEq, Repr

/-- Why the machine stops with a fault. -/
inductive Fault where
  /-- A host read or write names an address the data address space does not have (20_memory.md R30). Raised by the moves
  `hostRead` and `hostWrite`. Safe: no hardware has such a move. -/
  | noSuchAddress
  /-- A bound context or a running command holds a buffer descriptor past the top of the address space (10_state.md R21
  makes it illegal, and RD.NEW, WR.NEW, RD.AT and WR.AT refuse it with FATAL). Raised by RD, WR and `tick` in states that
  no run reaches. Safe. -/
  | descriptorOutOfSpace
deriving DecidableEq, Repr

/-- Why the model refuses a step. -/
inductive Refusal where
  /-- No meaning yet for the instruction of this mnemonic. Raised by no arm of `exec` in this model. Safe. -/
  | notModelled (mnemonic : String)
  /-- A move names a unit the system does not have (60_exceptions.md R122). Safe: no hardware has such a move. -/
  | noSuchUnit
  /-- The host sends a command to a unit that has not yet responded to the one before, which 70_reset_and_hazards.md R126
  forbids; "the model gives no move" (92_eei_decisions.md D27). Safe. -/
  | commandWhileBusy
  /-- An operand value wider than its ADDR_W wires (30_encoding.md R56). Safe: no hardware has such a command. -/
  | operandTooWide
deriving DecidableEq, Repr

/-- The state at power-on and after a reset of every unit, for given parameters and memory content
(70_reset_and_hazards.md R123, R124: "The contents of the data address space at power-on are the platform's and are
unspecified: a model takes them as an argument"). -/
def State.powerOn (config : Config) (mem : Memory) : State :=
  { config := config
    units := List.replicate config.nUnits Bcu.reset
    bus := { mem := mem, log := [] }
    cur := 0
    port := Operands.zero
    responses := []
    inputs := []
    freeNext := 0 }

/-- The machine right after reset. The registers are the spec's (10_state.md R28); the parameters and the empty memory
list are the model's choice (log entries 1, 2 and 3). -/
def State.reset : State := State.powerOn Config.default []

end Sys2Proof.Machine
end

