-- ==== Sys2Proof/Machine/Operands.lean ====
section
/-! DEFINITION. The integer datapath primitives (40_bit_slice.md) and the position arithmetic (10_state.md R25), in the
spec's own natural arithmetic. A value of type uW is a natural below 2^W. -/

namespace Sys2Proof.Machine

/-- `get_bit_slice(x: uW, start, stop)` (40_bit_slice.md R67). Outside its precondition the result is a free value
(R73, log entry 10). -/
def getBitSlice (W x start stop : Nat) : Nat :=
  if start ≤ stop ∧ stop ≤ W then (x / 2 ^ start) % 2 ^ (stop - start)
  else Config.brokenSlice W x start stop

/-- `set_bit_slice(x: uW, start, stop, v)` (40_bit_slice.md R68). Outside its precondition the result is a free value
(R73, log entry 10). -/
def setBitSlice (W x start stop v : Nat) : Nat :=
  if start ≤ stop ∧ stop ≤ W then
    let n := stop - start
    let mask := (2 ^ n - 1) * 2 ^ start
    let vlow := v % 2 ^ n
    (x - (x &&& mask)) + vlow * 2 ^ start
  else Config.brokenSlice W x start stop

/-- `saturating_shift_left(x: uW, n)` (40_bit_slice.md R69). -/
def satShiftLeft (W x n : Nat) : Nat := if n ≥ W then 0 else (x * 2 ^ n) % 2 ^ W

/-- `saturating_shift_right(x: uW, n)` (40_bit_slice.md R70). -/
def satShiftRight (W x n : Nat) : Nat := if n ≥ W then 0 else x / 2 ^ n

/-- `low_byte(x)` (40_bit_slice.md R71). -/
def lowByte (x : Nat) : Byte := BitVec.ofNat 8 x

/-- The stream position of (byte, bit), "byte_index*8 + bit_index" (10_state.md R25). -/
def streamPosition (byte bit : Nat) : Nat := 8 * byte + bit

/-- `advance(byte, bit, n)` (10_state.md R25). -/
def advance (byte bit n : Nat) : Nat × Nat :=
  ((streamPosition byte bit + n) / 8, (streamPosition byte bit + n) % 8)

/-- The physical bit of stream offset `k` of a byte: `phys(order, k)` (20_memory.md R33). -/
def physicalBit : BitOrder → Nat → Nat
  | .lsb0, k => k
  | .msb0, k => 7 - k

/-- The size of the next chunk: `min(rem, 8 - bit)` (41_bit_order.md R76). -/
def chunkSize (rem bit : Nat) : Nat := min rem (8 - bit)

/-- The number of chunks of a successful path: `(bit0 + len + 7) div 8` (41_bit_order.md R86). -/
def chunkCount (bit0 len : Nat) : Nat := (bit0 + len + 7) / 8

/-- A buffer descriptor is legal when BASE + BLEN ≤ 2^ADDR_W, computed without wrap-around (20_memory.md R31). -/
def descriptorFits (c : Config) (base blen : Nat) : Bool := decide (base + blen ≤ c.space)

end Sys2Proof.Machine
end

