-- ==== Sys2Proof/Machine/Flags.lean ====
section
/-! DEFINITION. The unit has no condition flags (10_state.md R24). What stands in their place: the status codes, the
error outcomes of a path and the responses (30_encoding.md R57, R58; 60_exceptions.md R107 to R113). -/

namespace Sys2Proof.Machine

/-- The 3-bit code of a status (30_encoding.md R58). -/
def Status.code : Status → BitVec 3
  | .ok              => 0
  | .zeroLength      => 1
  | .bufferExhausted => 2
  | .widthExceeded   => 3
  | .illegalCommand  => 4
  | .fatal           => 5

/-- What a path raises (41_bit_order.md R76, R77). -/
inductive PathError where
  /-- ZeroLengthOperation (60_exceptions.md R108) -/
  | zeroLength
  /-- BufferExhausted (R109) -/
  | bufferExhausted
  /-- WidthExceeded, with `requested` and `type_width` (R110) -/
  | widthExceeded (requested typeWidth : Nat)
deriving DecidableEq, Repr

/-- A response with every field but STATUS 0 (30_encoding.md R57). -/
def bareResponse (status : Status) : Response :=
  { status := status, dout := 0, req := 0, twid := 0, posByte := 0, posBit := 0 }

/-- The entry checks, in the order of 41_bit_order.md R77. -/
def entryChecks (len W : Nat) : Option PathError :=
  if len = 0 then some .zeroLength
  else if len > W then some (.widthExceeded len W)
  else none

/-- The response of a path's error, without a position (60_exceptions.md R108 to R110). -/
def errorResponse : PathError → Response
  | .zeroLength => bareResponse .zeroLength
  | .bufferExhausted => bareResponse .bufferExhausted
  | .widthExceeded requested typeWidth =>
    { bareResponse .widthExceeded with req := BitVec.ofNat 8 requested, twid := BitVec.ofNat 8 typeWidth }

/-- POS_BYTE and POS_BIT of a response: the cursor for RD.NEW, WR.NEW, RD and WR, and 0 for RD.AT and WR.AT
(30_encoding.md R57; 43_free.md R104). -/
def withPosition (issuer : Issuer) (ctx : Context) (r : Response) : Response :=
  match issuer with
  | .cursor => { r with posByte := ctx.byteIndex, posBit := ctx.bitIndex }
  | .free   => r

end Sys2Proof.Machine
end

