-- ==== Sys2Proof/Machine/Ops.lean ====
section
/-! DEFINITION. The named operations over memory, registers and the ports, and the one shared way a command is performed:
what stands in place of taking an exception on this hardware (60_exceptions.md R107, R113, R119). -/

namespace Sys2Proof.Machine

/-! ### Memory (20_memory.md) -/

/-- What an unlisted address reads as. DESIGN CHOICE (log entry 3): the content at power-on is unspecified
(70_reset_and_hazards.md R124). -/
def Memory.unlisted : Byte := 0

/-- The byte at an address. -/
def Memory.get : Memory → Nat → Byte
  | [], _ => Memory.unlisted
  | (k, v) :: m, a => if a = k then v else Memory.get m a

/-- The memory with one byte written, in canonical form. -/
def Memory.set : Memory → Nat → Byte → Memory
  | [], a, v => if v = Memory.unlisted then [] else [(a, v)]
  | (k, w) :: m, a, v =>
    if a < k then (if v = Memory.unlisted then (k, w) :: m else (a, v) :: (k, w) :: m)
    else if a = k then (if v = Memory.unlisted then m else (k, v) :: m)
    else (k, w) :: Memory.set m a v

/-- Every listed address is at least `lo`, addresses rise strictly, and no listed byte is what an unlisted address
reads as. -/
def Memory.wfFrom : Nat → Memory → Bool
  | _, [] => true
  | lo, (k, v) :: m => decide (lo ≤ k) && decide (v ≠ Memory.unlisted) && Memory.wfFrom (k + 1) m

/-- The canonical form of memory. -/
def Memory.wf (m : Memory) : Bool := Memory.wfFrom 0 m

/-- Every listed address is below `top`. -/
def Memory.within (top : Nat) : Memory → Bool
  | [] => true
  | (k, _) :: m => decide (k < top) && Memory.within top m

/-- `MemRead(addr, 1)` by `who` (00_scope.md R10; 20_memory.md R36): the byte, and the access in the total order. -/
def Bus.read (b : Bus) (who : Agent) (a : Nat) : Byte × Bus :=
  (Memory.get b.mem a,
   { b with log := { agent := who, kind := .read, addr := a, value := Memory.get b.mem a } :: b.log })

/-- `MemWrite(addr, 1, v)` by `who`. -/
def Bus.write (b : Bus) (who : Agent) (a : Nat) (v : Byte) : Bus :=
  { mem := Memory.set b.mem a v
    log := { agent := who, kind := .write, addr := a, value := v } :: b.log }

/-- The data address space of a state. -/
abbrev State.mem (s : State) : Memory := s.bus.mem

/-! ### The context -/

/-- RD.NEW and WR.NEW's writes of the context (42_cursor.md R93, R94). -/
def Context.bind (role : Role) (order : BitOrder) (base blen : Nat) : Context :=
  { valid := true, role := role, order := order, base := base, blen := blen, byteIndex := 0, bitIndex := 0 }

/-- The cursor advanced by `n` bits (42_cursor.md R95, R96; 10_state.md R25). -/
def Context.advance (c : Context) (n : Nat) : Context :=
  { c with
    byteIndex := (Machine.advance c.byteIndex c.bitIndex.toNat n).1
    bitIndex := BitVec.ofNat 3 (Machine.advance c.byteIndex c.bitIndex.toNat n).2 }

/-- The cursor's stream position (42_cursor.md R98). -/
def Context.position (c : Context) : Nat := streamPosition c.byteIndex c.bitIndex.toNat

/-! ### Ending a command -/

/-- What a finished command leaves: its unit, the bus, and the response. -/
structure Effect where
  unit     : Bcu
  bus      : Bus
  response : Response
deriving DecidableEq, Repr

/-- Store a finished command's effect at unit `n` and return its response. -/
def State.commit (s : State) (n : Nat) (e : Effect) : State :=
  { s with
    units := s.units.set n e.unit
    bus := e.bus
    responses := (n, e.response) :: s.responses }

/-- ILLEGAL_COMMAND: no memory access, no state change, every other field 0 (60_exceptions.md R111, R112). -/
def illegalCommand (u : Bcu) (b : Bus) : Effect :=
  { unit := u, bus := b, response := bareResponse .illegalCommand }

/-- FATAL of a command that arrives with FAULT = 1: the command is not performed (60_exceptions.md R113, cause 1). -/
def fatalFaulted (u : Bcu) (b : Bus) : Effect :=
  { unit := u, bus := b, response := bareResponse .fatal }

/-- FATAL of an overflowing descriptor: FAULT becomes 1, no memory is accessed, the context is unchanged
(60_exceptions.md R113, cause 2). -/
def fatalDescriptor (u : Bcu) (b : Bus) : Effect :=
  { unit := { u with fault := true }, bus := b, response := bareResponse .fatal }

/-- The end of a read command, once its path has answered (42_cursor.md R95; 43_free.md R102): on success the cursor of
an RD advances by `len` and DOUT is the value, zero-extended; on an error nothing of the unit changes. -/
def endRead (issuer : Issuer) (u : Bcu) (b : Bus) (len : Nat) (r : Except PathError Nat) : Effect :=
  match r, issuer with
  | .error e, _ => { unit := u, bus := b, response := withPosition issuer u.ctx (errorResponse e) }
  | .ok v, .cursor =>
    let ctx := u.ctx.advance len
    { unit := { u with ctx := ctx }, bus := b
      response := withPosition .cursor ctx { bareResponse .ok with dout := BitVec.ofNat 128 v } }
  | .ok v, .free => { unit := u, bus := b, response := { bareResponse .ok with dout := BitVec.ofNat 128 v } }

/-- The end of a write command, once its path has answered (42_cursor.md R96; 43_free.md R103). -/
def endWrite (issuer : Issuer) (u : Bcu) (b : Bus) (len : Nat) (r : Except PathError Unit) : Effect :=
  match r, issuer with
  | .error e, _ => { unit := u, bus := b, response := withPosition issuer u.ctx (errorResponse e) }
  | .ok _, .cursor =>
    let ctx := u.ctx.advance len
    { unit := { u with ctx := ctx }, bus := b, response := withPosition .cursor ctx (bareResponse .ok) }
  | .ok _, .free => { unit := u, bus := b, response := bareResponse .ok }

/-- How every command is performed. The unit it was sent to is found; it must have responded to the command before
(70_reset_and_hazards.md R126); FAULT = 1 answers FATAL before anything else (60_exceptions.md R114, priority 1); then
the command's own rule runs and its effect is stored. -/
def perform (s : State) (rule : Bcu → Host.Outcome Effect Fault Refusal) : Host.Outcome State Fault Refusal :=
  match s.units[s.cur]? with
  | none => .refused .noSuchUnit
  | some u =>
    match u.inFlight with
    | some _ => .refused .commandWhileBusy
    | none =>
      if u.fault then .next (s.commit s.cur (fatalFaulted u s.bus))
      else match rule u with
        | .next e => .next (s.commit s.cur e)
        | .fault f => .fault f
        | .refused r => .refused r

/-- A word that decodes to no command (60_exceptions.md R111; R114, priority 2). -/
def performIllegal (s : State) : Host.Outcome State Fault Refusal :=
  perform s fun u => .next (illegalCommand u s.bus)

end Sys2Proof.Machine
end

