-- ==== Sys2Proof/Machine/Paths.lean ====
section
/-! DEFINITION. The bit-order strategies and the bit-packer (41_bit_order.md): the BODY of each of the four paths, the
common chunk loop, and the two paths a command calls. -/

namespace Sys2Proof.Machine

/-! ### The four BODYs -/

/-- BODY of the Lsb0 read path (41_bit_order.md R78): the accumulator after the chunk. -/
def lsb0ReadBody (W : Nat) (b : Byte) (bit chunk acc done : Nat) : Nat :=
  let piece := getBitSlice 8 b.toNat bit (bit + chunk)
  acc ||| satShiftLeft W piece done

/-- BODY of the Msb0 read path (41_bit_order.md R80). -/
def msb0ReadBody (W : Nat) (b : Byte) (bit chunk acc : Nat) : Nat :=
  let stop := 8 - bit
  let start := stop - chunk
  satShiftLeft W acc chunk ||| getBitSlice 8 b.toNat start stop

/-- BODY of the Lsb0 write path (41_bit_order.md R79): the byte to write back for the byte `b` read. -/
def lsb0WriteByte (W : Nat) (b : Byte) (bit chunk val : Nat) : Byte :=
  let piece := lowByte (getBitSlice W val 0 chunk)
  BitVec.ofNat 8 (setBitSlice 8 b.toNat bit (bit + chunk) piece.toNat)

/-- BODY of the Msb0 write path (41_bit_order.md R81). -/
def msb0WriteByte (W : Nat) (b : Byte) (bit chunk rem val : Nat) : Byte :=
  let stop := 8 - bit
  let start := stop - chunk
  let piece := lowByte (getBitSlice W val (rem - chunk) rem)
  BitVec.ofNat 8 (setBitSlice 8 b.toNat start stop piece.toNat)

/-- The read BODY of an order (41_bit_order.md R82). -/
def readBody (order : BitOrder) (W : Nat) (b : Byte) (bit chunk acc done : Nat) : Nat :=
  match order with
  | .lsb0 => lsb0ReadBody W b bit chunk acc done
  | .msb0 => msb0ReadBody W b bit chunk acc

/-- The byte the write BODY of an order writes back (41_bit_order.md R82). -/
def writeByte (order : BitOrder) (W : Nat) (b : Byte) (bit chunk rem val : Nat) : Byte :=
  match order with
  | .lsb0 => lsb0WriteByte W b bit chunk val
  | .msb0 => msb0WriteByte W b bit chunk rem val

/-- The write BODY's `val` after the chunk: shifted right in Lsb0 (R79), never shifted in Msb0 (R81). -/
def writeVal (order : BitOrder) (W chunk val : Nat) : Nat :=
  match order with
  | .lsb0 => satShiftRight W val chunk
  | .msb0 => val

/-! ### The common chunk loop (41_bit_order.md R76)

`fuel` bounds the recursion; a chunk moves at least one bit, so `fuel = rem` is enough. -/

/-- The chunk loop of a read path over buffer `(base, blen)`. -/
def readLoop (who : Agent) (order : BitOrder) (base blen W : Nat) :
    (fuel rem byte bit acc done : Nat) → Bus → Except PathError Nat × Bus
  | 0, _, _, _, acc, _, bus => (.ok acc, bus)
  | fuel + 1, rem, byte, bit, acc, done, bus =>
    if rem = 0 then (.ok acc, bus)
    else if byte ≥ blen then (.error .bufferExhausted, bus)
    else
      let chunk := chunkSize rem bit
      let r := bus.read who (base + byte)
      let next := advance byte bit chunk
      readLoop who order base blen W fuel (rem - chunk) next.1 next.2
        (readBody order W r.1 bit chunk acc done) (done + chunk) r.2

/-- The chunk loop of a write path over buffer `(base, blen)`: each chunk is a MemRead and then a MemWrite of the same
byte (20_memory.md R39). -/
def writeLoop (who : Agent) (order : BitOrder) (base blen W : Nat) :
    (fuel rem byte bit val : Nat) → Bus → Except PathError Unit × Bus
  | 0, _, _, _, _, bus => (.ok (), bus)
  | fuel + 1, rem, byte, bit, val, bus =>
    if rem = 0 then (.ok (), bus)
    else if byte ≥ blen then (.error .bufferExhausted, bus)
    else
      let chunk := chunkSize rem bit
      let r := bus.read who (base + byte)
      let next := advance byte bit chunk
      writeLoop who order base blen W fuel (rem - chunk) next.1 next.2 (writeVal order W chunk val)
        (r.2.write who (base + byte) (writeByte order W r.1 bit chunk rem val))

/-! ### The paths (41_bit_order.md R75) -/

/-- `read_path`: the entry checks, then the loop from an empty accumulator (R77, R78, R80). -/
def readPath (who : Agent) (order : BitOrder) (base blen byte0 bit0 len W : Nat) (bus : Bus) :
    Except PathError Nat × Bus :=
  match entryChecks len W with
  | some e => (.error e, bus)
  | none => readLoop who order base blen W len len byte0 bit0 0 0 bus

/-- `write_path`: the entry checks, then the loop from `din mod 2^W` (R77, R79, R81). -/
def writePath (who : Agent) (order : BitOrder) (base blen byte0 bit0 len W : Nat) (din : Data) (bus : Bus) :
    Except PathError Unit × Bus :=
  match entryChecks len W with
  | some e => (.error e, bus)
  | none => writeLoop who order base blen W len len byte0 bit0 (din.toNat % 2 ^ W) bus

end Sys2Proof.Machine
end

