-- ==== Sys2Proof/Machine/Cursor.lean ====
section
/-! DEFINITION. The cursor reader and writer commands (42_cursor.md): RD.NEW, WR.NEW, RD, WR, DROP. -/

namespace Sys2Proof.Machine

/-- The effect of RD.NEW and WR.NEW on a unit (42_cursor.md R93, R94): the descriptor check, then the new context,
whatever the old one was. No memory access. -/
def bindContext (config : Config) (role : Role) (order : BitOrder) (o : Operands) (b : Bus) (u : Bcu) : Effect :=
  if descriptorFits config o.base o.blen then
    let ctx := Context.bind role order o.base o.blen
    { unit := { u with ctx := ctx }, bus := b, response := withPosition .cursor ctx (bareResponse .ok) }
  else fatalDescriptor u b

/-- RD.NEW (42_cursor.md R93). -/
def execRdNew (order : BitOrder) (s : State) : Host.Outcome State Fault Refusal :=
  perform s fun u => .next (bindContext s.config .reader order s.port s.bus u)

/-- WR.NEW (42_cursor.md R94). -/
def execWrNew (order : BitOrder) (s : State) : Host.Outcome State Fault Refusal :=
  perform s fun u => .next (bindContext s.config .writer order s.port s.bus u)

/-- The context check of RD and WR (42_cursor.md R95, R96; 60_exceptions.md R112): a context of this role is bound. -/
def Context.isBound (c : Context) (role : Role) : Bool := c.valid && decide (c.role = role)

/-- RD (42_cursor.md R95). -/
def execRd (width : Width) (len : BitVec 8) (s : State) : Host.Outcome State Fault Refusal :=
  perform s fun u =>
    if u.ctx.isBound .reader then
      if descriptorFits s.config u.ctx.base u.ctx.blen then
        let r := readPath (.unit s.cur) u.ctx.order u.ctx.base u.ctx.blen u.ctx.byteIndex u.ctx.bitIndex.toNat
          len.toNat width.bits s.bus
        .next (endRead .cursor u r.2 len.toNat r.1)
      else .fault .descriptorOutOfSpace
    else .next (illegalCommand u s.bus)

/-- WR (42_cursor.md R96). -/
def execWr (width : Width) (len : BitVec 8) (s : State) : Host.Outcome State Fault Refusal :=
  perform s fun u =>
    if u.ctx.isBound .writer then
      if descriptorFits s.config u.ctx.base u.ctx.blen then
        let r := writePath (.unit s.cur) u.ctx.order u.ctx.base u.ctx.blen u.ctx.byteIndex u.ctx.bitIndex.toNat
          len.toNat width.bits s.port.din s.bus
        .next (endWrite .cursor u r.2 len.toNat r.1)
      else .fault .descriptorOutOfSpace
    else .next (illegalCommand u s.bus)

/-- DROP (42_cursor.md R97). -/
def execDrop (s : State) : Host.Outcome State Fault Refusal :=
  perform s fun u =>
    if u.ctx.valid then
      .next { unit := { u with ctx := Context.reset }, bus := s.bus, response := bareResponse .ok }
    else .next (illegalCommand u s.bus)

end Sys2Proof.Machine
end

