-- ==== Sys2Proof/Machine/Free.lean ====
section
/-! DEFINITION. The stateless strategy commands (43_free.md): RD.AT and WR.AT. They look at no context register
(R101, R105). -/

namespace Sys2Proof.Machine

/-- RD.AT (43_free.md R102). -/
def execRdAt (order : BitOrder) (width : Width) (len : BitVec 8) (bit : BitVec 3) (s : State) :
    Host.Outcome State Fault Refusal :=
  perform s fun u =>
    if descriptorFits s.config s.port.base s.port.blen then
      let r := readPath (.unit s.cur) order s.port.base s.port.blen s.port.byte bit.toNat len.toNat width.bits s.bus
      .next (endRead .free u r.2 len.toNat r.1)
    else .next (fatalDescriptor u s.bus)

/-- WR.AT (43_free.md R103). -/
def execWrAt (order : BitOrder) (width : Width) (len : BitVec 8) (bit : BitVec 3) (s : State) :
    Host.Outcome State Fault Refusal :=
  perform s fun u =>
    if descriptorFits s.config s.port.base s.port.blen then
      let r := writePath (.unit s.cur) order s.port.base s.port.blen s.port.byte bit.toNat len.toNat width.bits
        s.port.din s.bus
      .next (endWrite .free u r.2 len.toNat r.1)
    else .next (fatalDescriptor u s.bus)

end Sys2Proof.Machine
end

