-- ==== Sys2Proof/Machine/Dispatch.lean ====
section
/-! DEFINITION. The meaning of every instruction: one arm per row of the opcode table. -/

namespace Sys2Proof.Machine

def exec (i : Instr) (s : State) : Host.Outcome State Fault Refusal :=
  match i with
  | .rdNew order => Sys2Proof.Machine.execRdNew order s
  | .wrNew order => Sys2Proof.Machine.execWrNew order s
  | .rd width len => Sys2Proof.Machine.execRd width len s
  | .wr width len => Sys2Proof.Machine.execWr width len s
  | .rdAt order width len bit => Sys2Proof.Machine.execRdAt order width len bit s
  | .wrAt order width len bit => Sys2Proof.Machine.execWrAt order width len bit s
  | .drop => Sys2Proof.Machine.execDrop s

end Sys2Proof.Machine
end

