-- ==== Sys2Proof/Machine/Moves.lean ====
section
/-! DEFINITION. The moves of the agents (20_memory.md R44; 70_reset_and_hazards.md R126): a command given whole, a command
given byte access by byte access, the host's own accesses, reset. -/

namespace Sys2Proof.Machine

/-! ### A command given whole (70_reset_and_hazards.md R132) -/

/-- Put a command on the command port of unit `n` (30_encoding.md R48, R56). -/
def State.present (s : State) (n : Nat) (c : Command) : State := { s with cur := n, port := c.operands }

/-- Perform the command on the port whose word is `w`: decode, and run it or answer ILLEGAL_COMMAND
(30_encoding.md R60, R62). -/
def runWord (w : Word) (s : State) : Host.Outcome State Fault Refusal :=
  match decode w with
  | .ok i => exec i s
  | .error _ => performIllegal s

/-- The host sends unit `n` a command, performed as one indivisible step (log entry 13), inside which no reset
falls (DESIGN CHOICE, log entry 19). -/
def moveCommand (n : Nat) (c : Command) (s : State) : Host.Outcome State Fault Refusal :=
  if c.operands.fit s.config.addrW then runWord c.word (s.present n c) else .refused .operandTooWide

/-! ### A command given byte access by byte access (R44, R131) -/

/-- The write paths' `val` at the start: `din mod 2^W` (41_bit_order.md R79, R81); a read has none. -/
def startVal (direction : Direction) (W : Nat) (din : Data) : Nat :=
  match direction with
  | .read  => 0
  | .write => din.toNat % 2 ^ W

/-- The start of a command's chunk loop, its entry checks passed (41_bit_order.md R76). -/
def startTransfer (direction : Direction) (issuer : Issuer) (order : BitOrder) (base blen byte0 : Nat)
    (bit0 : BitVec 3) (len : BitVec 8) (width : Width) (din : Data) : Option Transfer :=
  match entryChecks len.toNat width.bits with
  | some _ => none
  | none => some
    { direction := direction, issuer := issuer, order := order, base := base, blen := blen, byte0 := byte0,
      bit0 := bit0, len := len, width := width, rem := len.toNat, byte := byte0, bit := bit0.toNat, acc := 0,
      done := 0
      val := startVal direction width.bits din
      held := none }

/-- The chunk loop that an instruction starts on a unit, if it passes every check before it (60_exceptions.md R114,
priorities 1 to 6); none if it ends without one. -/
def transferOf (config : Config) (o : Operands) (u : Bcu) : Instr → Option Transfer
  | .rdNew _ => none
  | .wrNew _ => none
  | .drop => none
  | .rd width len =>
    if !u.fault && u.ctx.isBound .reader then
      startTransfer .read .cursor u.ctx.order u.ctx.base u.ctx.blen u.ctx.byteIndex u.ctx.bitIndex len width 0
    else none
  | .wr width len =>
    if !u.fault && u.ctx.isBound .writer then
      startTransfer .write .cursor u.ctx.order u.ctx.base u.ctx.blen u.ctx.byteIndex u.ctx.bitIndex len width o.din
    else none
  | .rdAt order width len bit =>
    if !u.fault && descriptorFits config o.base o.blen then
      startTransfer .read .free order o.base o.blen o.byte bit len width 0
    else none
  | .wrAt order width len bit =>
    if !u.fault && descriptorFits config o.base o.blen then
      startTransfer .write .free order o.base o.blen o.byte bit len width o.din
    else none

/-- Accept the instruction `i` on the port: start its chunk loop, or, where it has none, end it now. DESIGN CHOICE: a command
without a chunk loop is answered in this move, so no reset falls inside it; 70_reset_and_hazards.md R124 leaves open
whether one can (log entry 19). -/
def acceptInstr (i : Instr) (s : State) : Host.Outcome State Fault Refusal :=
  match s.units[s.cur]? with
  | none => .refused .noSuchUnit
  | some u =>
    match u.inFlight with
    | some _ => .refused .commandWhileBusy
    | none =>
      match transferOf s.config s.port u i with
      | none => exec i s
      | some t => .next { s with units := s.units.set s.cur { u with inFlight := some t } }

/-- The host sends unit `n` a command; its byte accesses follow one `tick` at a time. An illegal word is answered now,
and no reset falls inside it (DESIGN CHOICE, log entry 19). -/
def moveAccept (n : Nat) (c : Command) (s : State) : Host.Outcome State Fault Refusal :=
  if c.operands.fit s.config.addrW then
    match decode c.word with
    | .ok i => acceptInstr i (s.present n c)
    | .error _ => performIllegal (s.present n c)
  else .refused .operandTooWide

/-- The response of a running command (20_memory.md R46: after all of its accesses), its unit free again. -/
def endTransfer (u : Bcu) (t : Transfer) (b : Bus) (failed : Option PathError) : Effect :=
  let u := { u with inFlight := none }
  match t.direction, failed with
  | .read, none => endRead t.issuer u b t.len.toNat (.ok t.acc)
  | .read, some e => endRead t.issuer u b t.len.toNat (.error e)
  | .write, none => endWrite t.issuer u b t.len.toNat (.ok ())
  | .write, some e => endWrite t.issuer u b t.len.toNat (.error e)

/-- The loop variables after a chunk, common to all paths (41_bit_order.md R76). -/
def Transfer.pass (t : Transfer) : Transfer :=
  let chunk := chunkSize t.rem t.bit
  let next := advance t.byte t.bit chunk
  { t with rem := t.rem - chunk, byte := next.1, bit := next.2, done := t.done + chunk, held := none }

/-- A read chunk with the byte `b` read: BODY, then the loop variables (41_bit_order.md R76, R78, R80). -/
def Transfer.passRead (t : Transfer) (b : Byte) : Transfer :=
  { t.pass with acc := readBody t.order t.width.bits b t.bit (chunkSize t.rem t.bit) t.acc t.done }

/-- A write chunk after its MemWrite (41_bit_order.md R76, R79, R81). -/
def Transfer.passWrite (t : Transfer) : Transfer :=
  { t.pass with val := writeVal t.order t.width.bits (chunkSize t.rem t.bit) t.val }

/-- The byte a write chunk writes back for the byte `b` it read. -/
def Transfer.written (t : Transfer) (b : Byte) : Byte :=
  writeByte t.order t.width.bits b t.bit (chunkSize t.rem t.bit) t.rem t.val

/-- Unit `n`, running `t`, goes on with `t'` after an access that left the bus `b`. -/
def State.goOn (s : State) (n : Nat) (u : Bcu) (t' : Transfer) (b : Bus) : State :=
  { s with units := s.units.set n { u with inFlight := some t' }, bus := b }

/-- The next byte access of unit `n`'s running command, or its response when no access is left (41_bit_order.md R76;
20_memory.md R39, R40, R41). A unit with no running command does nothing. -/
def moveTick (n : Nat) (s : State) : Host.Outcome State Fault Refusal :=
  match s.units[n]? with
  | none => .refused .noSuchUnit
  | some u =>
    match u.inFlight with
    | none => .next s
    | some t =>
      if descriptorFits s.config t.base t.blen then
        match t.held with
        | some b =>
          .next (s.goOn n u t.passWrite (s.bus.write (.unit n) (t.base + t.byte) (t.written b)))
        | none =>
          if t.rem = 0 then .next (s.commit n (endTransfer u t s.bus none))
          else if t.byte ≥ t.blen then .next (s.commit n (endTransfer u t s.bus (some .bufferExhausted)))
          else
            let r := s.bus.read (.unit n) (t.base + t.byte)
            match t.direction with
            | .read => .next (s.goOn n u (t.passRead r.1) r.2)
            | .write => .next (s.goOn n u { t with held := some r.1 } r.2)
      else .fault .descriptorOutOfSpace

/-! ### The host's own accesses and reset -/

/-- The host reads a byte (70_reset_and_hazards.md R126); the value stands in the log. -/
def moveHostRead (a : Nat) (s : State) : Host.Outcome State Fault Refusal :=
  if a < s.config.space then .next { s with bus := (s.bus.read .host a).2 } else .fault .noSuchAddress

/-- The host writes a byte (70_reset_and_hazards.md R126). -/
def moveHostWrite (a : Nat) (v : Byte) (s : State) : Host.Outcome State Fault Refusal :=
  if a < s.config.space then .next { s with bus := s.bus.write .host a v } else .fault .noSuchAddress

/-- `count` free bytes from address `a` on, numbered from `k` (log entry 8). -/
def scramble (who : Agent) : (count a k : Nat) → Bus → Bus
  | 0, _, _, b => b
  | count + 1, a, k, b => scramble who count (a + 1) (k + 1) (b.write who a (Config.freeByte k))

/-- The number of buffer bytes that a reset in the middle of the write `t` leaves unspecified: its byte range
[byte0, byte0 + chunk count), "never past BASE + BLEN - 1" (70_reset_and_hazards.md R124; I6). A read has none. -/
def Transfer.brokenBytes (t : Transfer) : Nat :=
  match t.direction with
  | .read => 0
  | .write => min (chunkCount t.bit0.toNat t.len.toNat) (t.blen - t.byte0)

/-- The reset event at unit `n` (70_reset_and_hazards.md R123): every register takes its reset value and the data address
space stays. A command in progress returns no response; if it was a write, the bytes of its range are free values
(R124, log entry 8). A command in progress is one in its chunk loop (DESIGN CHOICE, log entry 19). -/
def moveReset (n : Nat) (s : State) : Host.Outcome State Fault Refusal :=
  match s.units[n]? with
  | none => .refused .noSuchUnit
  | some u =>
    let s' := { s with units := s.units.set n Bcu.reset }
    match u.inFlight with
    | none => .next s'
    | some t =>
      if descriptorFits s.config t.base t.blen then
        .next { s' with
          bus := scramble (.unit n) t.brokenBytes (t.base + t.byte0) s.freeNext s.bus
          freeNext := s.freeNext + t.brokenBytes }
      else .fault .descriptorOutOfSpace

/-! ### One move -/

/-- The move an input names, on the state that no longer lists it. -/
def move (i : Input) (s : State) : Host.Outcome State Fault Refusal :=
  match i with
  | .command n c => moveCommand n c s
  | .accept n c => moveAccept n c s
  | .tick n => moveTick n s
  | .hostRead a => moveHostRead a s
  | .hostWrite a v => moveHostWrite a v s
  | .reset n => moveReset n s

/-- The command whose word is the table word `w`, every operand value zero. -/
def tableCommand (nbits w : Nat) : Command :=
  { word := BitVec.ofNat 32 (w % 2 ^ nbits), operands := Operands.zero }

end Sys2Proof.Machine
end

