-- ==== Sys2Proof/Machine/Step.lean ====
section
/-! DEFINITION. One step: the next move of the host's script and schedule. -/

namespace Sys2Proof.Machine

/-- One step. With no move left nothing happens. Units that run no command then wait on their command ports
(70_reset_and_hazards.md R131, "A run ends ... when the host sends no more commands"; log entry 5). DESIGN CHOICE: a unit that
still runs a command when the list runs out makes no further access and returns no response; on the hardware it would
finish (R131), so that is a run cut off, not one that has ended (log entry 18). -/
def step (s : State) : Host.Outcome State Fault Refusal :=
  match s.inputs with
  | [] => .next s
  | i :: rest => move i { s with inputs := rest }

/-- `s` with the command of a table word as the next move, sent to unit 0 with every operand value zero: the machine
fetches nothing (20_memory.md R47), and a program is the host's sequence of commands (log entry 6). -/
def State.withFetchWord (s : State) (nbits w : Nat) : State :=
  { s with inputs := .command 0 (tableCommand nbits w) :: s.inputs }

end Sys2Proof.Machine
end

