-- ==== Sys2Proof/Safety.lean ====
section
/-! DEFINITION. What claims are stated in: the stream of bits a buffer is (20_memory.md R33, R34), and the invariant of
reachable states (10_state.md R15 to R22, R28). -/

namespace Sys2Proof.Machine

/-! ### The stream view (20_memory.md R33, R34; 41_bit_order.md R88) -/

/-- `sbit(p)`: the bit at stream position `p` of the buffer at `base`. -/
def streamBit (order : BitOrder) (m : Memory) (base p : Nat) : Bool :=
  (Memory.get m (base + p / 8)).getLsbD (physicalBit order (p % 8))

/-- The stream position of value bit `j` of a field of `len` bits at stream position `P`. -/
def fieldPosition (order : BitOrder) (P len j : Nat) : Nat :=
  match order with
  | .lsb0 => P + j
  | .msb0 => P + (len - 1 - j)

/-- The sum over j < n of bit j times 2^j. -/
def sumBits (bit : Nat → Bool) : Nat → Nat
  | 0 => 0
  | n + 1 => sumBits bit n + (bit n).toNat * 2 ^ n

/-- The value of a field, in the closed form of 41_bit_order.md R88. -/
def fieldValue (order : BitOrder) (m : Memory) (base P len : Nat) : Nat :=
  sumBits (fun j => streamBit order m base (fieldPosition order P len j)) len

/-- The `len` bits of `din` stand in the field at stream position `P` of the buffer at `base`, as far as the field lies
below stream position `top`, and every other bit of the data address space is as before (41_bit_order.md R85, R88, R89). -/
abbrev FieldWritten (order : BitOrder) (m m' : Memory) (base P len top : Nat) (din : Data) : Prop :=
  (∀ a < base, Memory.get m' a = Memory.get m a) ∧
  (∀ j < len, fieldPosition order P len j < top →
    streamBit order m' base (fieldPosition order P len j) = din.getLsbD j) ∧
  (∀ q, ¬ (P ≤ q ∧ q < P + len ∧ q < top) → streamBit order m' base q = streamBit order m base q)

/-! ### The total order of accesses (20_memory.md R38 to R40, R44) -/

/-- The accesses of `n` read chunks from address `a` up, newest first: one MemRead each. -/
def readRun (who : Agent) (m : Memory) (a : Nat) : Nat → List Access
  | 0 => []
  | n + 1 => { agent := who, kind := .read, addr := a + n, value := Memory.get m (a + n) } :: readRun who m a n

/-- The accesses of `n` write chunks from address `a` up, newest first: a MemRead of the byte in `m` and then a MemWrite of
the byte in `m'`, each. -/
def writeRun (who : Agent) (m m' : Memory) (a : Nat) : Nat → List Access
  | 0 => []
  | n + 1 =>
    { agent := who, kind := .write, addr := a + n, value := Memory.get m' (a + n) } ::
    { agent := who, kind := .read, addr := a + n, value := Memory.get m (a + n) } :: writeRun who m m' a n

/-- The memory after one access: a write stores its byte. -/
def Access.replay (m : Memory) (x : Access) : Memory :=
  match x.kind with
  | .read => m
  | .write => Memory.set m x.addr x.value

/-- The memory after the accesses of a log, newest first. -/
def replayLog (m : Memory) : List Access → Memory
  | [] => m
  | x :: log => Access.replay (replayLog m log) x

/-- Every read of a log (newest first) returns the byte that the accesses before it left at its address
(20_memory.md R44, point 3). -/
def logConsistent (m : Memory) : List Access → Bool
  | [] => true
  | x :: log =>
    (match x.kind with
     | .read => x.value == Memory.get (replayLog m log) x.addr
     | .write => true) && logConsistent m log

/-! ### What a command asks for (30_encoding.md R59; 60_exceptions.md R114) -/

/-- The field a command moves: the arguments of its path (41_bit_order.md R75). -/
structure Coordinates where
  order : BitOrder
  base  : Nat
  blen  : Nat
  byte0 : Nat
  bit0  : BitVec 3
  len   : BitVec 8
  width : Width
deriving DecidableEq, Repr

/-- The stream position a field starts at. -/
def Coordinates.start (x : Coordinates) : Nat := 8 * x.byte0 + x.bit0.toNat

/-- The field lies inside its buffer (41_bit_order.md R87). -/
def Coordinates.inBuffer (x : Coordinates) : Bool := decide (x.start + x.len.toNat ≤ 8 * x.blen)

/-- The field of a command: at the context's cursor for RD and WR, at the operands' position for RD.AT and WR.AT. -/
def coordinatesOf (u : Bcu) (o : Operands) : Instr → Option Coordinates
  | .rdNew _ => none
  | .wrNew _ => none
  | .rd width len => some
    { order := u.ctx.order, base := u.ctx.base, blen := u.ctx.blen, byte0 := u.ctx.byteIndex, bit0 := u.ctx.bitIndex,
      len := len, width := width }
  | .wr width len => some
    { order := u.ctx.order, base := u.ctx.base, blen := u.ctx.blen, byte0 := u.ctx.byteIndex, bit0 := u.ctx.bitIndex,
      len := len, width := width }
  | .rdAt order width len bit => some
    { order := order, base := o.base, blen := o.blen, byte0 := o.byte, bit0 := bit, len := len, width := width }
  | .wrAt order width len bit => some
    { order := order, base := o.base, blen := o.blen, byte0 := o.byte, bit0 := bit, len := len, width := width }
  | .drop => none

/-- The commands that name a buffer by their operands (30_encoding.md R56). -/
def namesBuffer : Instr → Bool
  | .rdNew _      => true
  | .wrNew _      => true
  | .rd _ _       => false
  | .wr _ _       => false
  | .rdAt _ _ _ _ => true
  | .wrAt _ _ _ _ => true
  | .drop         => false

/-- The commands that store to memory. -/
def stores : Instr → Bool
  | .rdNew _      => false
  | .wrNew _      => false
  | .rd _ _       => false
  | .wr _ _       => true
  | .rdAt _ _ _ _ => false
  | .wrAt _ _ _ _ => true
  | .drop         => false

/-- RD, WR or DROP in the wrong context state (60_exceptions.md R112). -/
def wrongContext (u : Bcu) : Instr → Bool
  | .rdNew _      => false
  | .wrNew _      => false
  | .rd _ _       => !u.ctx.valid || decide (u.ctx.role = .writer)
  | .wr _ _       => !u.ctx.valid || decide (u.ctx.role = .reader)
  | .rdAt _ _ _ _ => false
  | .wrAt _ _ _ _ => false
  | .drop         => !u.ctx.valid

/-- The status of a command word sent to a unit, by the order of priority of 60_exceptions.md R114. -/
def statusOf (c : Config) (u : Bcu) (o : Operands) (w : Word) : Status :=
  if u.fault then .fatal
  else match decode w with
    | .error _ => .illegalCommand
    | .ok i =>
      if wrongContext u i then .illegalCommand
      else if namesBuffer i && decide (c.space < o.base + o.blen) then .fatal
      else match coordinatesOf u o i with
        | none => .ok
        | some x =>
          if x.len.toNat = 0 then .zeroLength
          else if x.width.bits < x.len.toNat then .widthExceeded
          else if x.inBuffer then .ok
          else .bufferExhausted

/-- The agent that makes a move, and so its accesses. -/
def Input.agent : Input → Agent
  | .command n _   => .unit n
  | .accept n _    => .unit n
  | .tick n        => .unit n
  | .hostRead _    => .host
  | .hostWrite _ _ => .host
  | .reset n       => .unit n

/-- The instruction that a move sends to unit `n`, if it sends one. -/
def Input.sends (n : Nat) : Input → Option Instr
  | .command k c =>
    if k = n then (match decode c.word with | .ok i => some i | .error _ => none) else none
  | .accept k c =>
    if k = n then (match decode c.word with | .ok i => some i | .error _ => none) else none
  | .tick _        => none
  | .hostRead _    => none
  | .hostWrite _ _ => none
  | .reset _       => none

/-- The operand values a move brings. -/
def Input.brings : Input → Operands
  | .command _ c   => c.operands
  | .accept _ c    => c.operands
  | .tick _        => Operands.zero
  | .hostRead _    => Operands.zero
  | .hostWrite _ _ => Operands.zero
  | .reset _       => Operands.zero

/-! ### The invariant -/

/-- What holds of a context: its registers have their widths, its descriptor is legal, its cursor lies in the buffer and
is at bit 0 at the end of it; with no reader or writer bound it holds the reset values. -/
abbrev Context.wf (c : Config) (x : Context) : Prop :=
  x.base < c.space ∧ x.blen < c.space ∧ x.base + x.blen ≤ c.space ∧
  x.byteIndex ≤ x.blen ∧ (x.byteIndex = x.blen → x.bitIndex = 0) ∧ (x.valid = false → x = Context.reset)

/-- What holds of a running command: it passed the entry checks; its descriptor is legal; its loop variables are those
of a chunk loop that started at (byte0, bit0), with `acc` holding `done` bits and `val` of type uW; a held byte belongs to
a write chunk in the buffer; a command of the cursor started at the context's cursor, in the context's buffer. -/
abbrev Transfer.wf (c : Config) (x : Context) (t : Transfer) : Prop :=
  (1 ≤ t.len.toNat ∧ t.len.toNat ≤ t.width.bits) ∧
  t.base + t.blen ≤ c.space ∧
  t.bit < 8 ∧ t.done + t.rem = t.len.toNat ∧
  8 * t.byte + t.bit = 8 * t.byte0 + t.bit0.toNat + t.done ∧
  (t.done = 0 ∨ 8 * t.byte + t.bit ≤ 8 * t.blen) ∧
  t.acc < 2 ^ t.done ∧ t.val < 2 ^ t.width.bits ∧
  (t.held ≠ none → t.direction = .write ∧ 0 < t.rem ∧ t.byte < t.blen) ∧
  (t.issuer = .cursor → x.valid = true ∧ t.order = x.order ∧ t.base = x.base ∧ t.blen = x.blen ∧
    t.byte0 = x.byteIndex ∧ t.bit0 = x.bitIndex)

/-- What holds of a unit. A unit with FAULT = 1 runs no command. -/
abbrev Bcu.wf (c : Config) (u : Bcu) : Prop :=
  u.ctx.wf c ∧ (∀ t ∈ u.inFlight, t.wf c u.ctx ∧ u.fault = false)

/-- The invariant of reachable states. -/
abbrev State.Inv (s : State) : Prop :=
  1 ≤ s.config.addrW ∧ 1 ≤ s.config.nUnits ∧ s.units.length = s.config.nUnits ∧
  (∀ u ∈ s.units, u.wf s.config) ∧
  Memory.wf s.mem = true ∧ Memory.within s.config.space s.mem = true ∧
  s.port.fit s.config.addrW = true ∧ (∀ r ∈ s.responses, r.2.posByte < s.config.space)

/-- The unit `n` of a state exists and is free to take a command, with FAULT = 0. -/
abbrev State.ready (s : State) (n : Nat) (u : Bcu) : Prop :=
  s.units[n]? = some u ∧ u.inFlight = none ∧ u.fault = false

end Sys2Proof.Machine
end

