-- ==== Sys2Proof/Certificates/Slice0/Obligations.lean ====
section
/-! DEFINITION. The statements for the provers, each with the rule of spec/ it formalises. -/

open Sys2Proof Sys2Proof.Machine

/-! ### Encoding (30_encoding.md) -/

/-- The examples of R66: each line assembles to its word with its operand values, and the word decodes to its command.
The words and the operand values a line writes are R66's. That an operand a line does not write is 0 in its command (BYTE and
DIN of rd.new and wr.new, all four of rd.u32 and drop, BASE, BLEN and BYTE of wr, DIN of rd.at) is the model's choice (log
entry 16, DESIGN CHOICE). -/
def Obligations.SpecExampleLinesAssembleAndDecode : Prop :=
  (AsmLine.rdNew .msb0 0x100 2).assemble 16 =
      some { word := 0x00000011, operands := { base := 0x100, blen := 2, byte := 0, din := 0 } } ∧
  (AsmLine.wrNew .lsb0 0x100 2).assemble 16 =
      some { word := 0x00000002, operands := { base := 0x100, blen := 2, byte := 0, din := 0 } } ∧
  (AsmLine.rd .w32 33).assemble 16 = some { word := 0x00002143, operands := Operands.zero } ∧
  (AsmLine.wr .w8 5 5).assemble 16 = some { word := 0x00000504, operands := { Operands.zero with din := 5 } } ∧
  (∀ din : Data, (AsmLine.wr .w128 128 din.toNat).assemble 16 =
      some { word := 0x00008084, operands := { Operands.zero with din := din } }) ∧
  (AsmLine.rdAt .w16 .lsb0 0 4 1 3 12).assemble 16 =
      some { word := 0x00030C25, operands := { base := 0, blen := 4, byte := 1, din := 0 } } ∧
  (∀ din : Data, (AsmLine.wrAt .w16 .msb0 0 4 1 3 12 din.toNat).assemble 16 =
      some { word := 0x00030C36, operands := { base := 0, blen := 4, byte := 1, din := din } }) ∧
  AsmLine.drop.assemble 16 = some { word := 0x00000007, operands := Operands.zero } ∧
  decode 0x00000011 = .ok (.rdNew .msb0) ∧ decode 0x00000002 = .ok (.wrNew .lsb0) ∧
  decode 0x00002143 = .ok (.rd .w32 33) ∧ decode 0x00000504 = .ok (.wr .w8 5) ∧
  decode 0x00008084 = .ok (.wr .w128 128) ∧ decode 0x00030C25 = .ok (.rdAt .lsb0 .w16 12 3) ∧
  decode 0x00030C36 = .ok (.wrAt .msb0 .w16 12 3) ∧ decode 0x00000007 = .ok .drop

/-- Decoding the word of an instruction gives it back, with every field at every value it can hold. -/
def Obligations.DecodeInvertsEncode : Prop :=
  ∀ i : Instr, decode (encode i) = .ok i

/-- A word that decodes is the word of its instruction: no bit of it is dropped, and each instruction has one word. -/
def Obligations.EncodeInvertsDecode : Prop :=
  ∀ (w : Word) (i : Instr), decode w = .ok i → encode i = w

/-- R59: a word decodes to a command of mnemonic m exactly when it selects the row of m by match, mask and TW ≤ 4, and the
rows do not overlap. -/
def Obligations.WordsSelectTheirDecodedRow : Prop :=
  (∀ (w : Word) (m : Mnemonic), m.selectedBy w = true ↔ ∃ i, decode w = .ok i ∧ i.mnemonic = m) ∧
  (∀ (w : Word) (m m' : Mnemonic), m.selectedBy w = true → m'.selectedBy w = true → m = m')

/-- R60: which words are illegal, and what an illegal word sent to a unit with FAULT = 0 does: it is answered
ILLEGAL_COMMAND with every other field 0; the registers, FAULT, memory and the accesses made are as before. -/
def Obligations.IllegalWordsAreAnsweredAndChangeNothing : Prop :=
  (∀ w : Word, (∃ e, decode w = .error e) ↔
    ((Word.op w = 0 ∨ 8 ≤ (Word.op w).toNat) ∨ Word.rsv w ≠ 0 ∨
      ((Word.op w = 3 ∨ Word.op w = 4 ∨ Word.op w = 5 ∨ Word.op w = 6) ∧ 5 ≤ (Word.tw w).toNat) ∨
      ((Word.op w = 3 ∨ Word.op w = 4 ∨ Word.op w = 7) ∧ Word.ord w ≠ 0) ∨
      ((Word.op w = 1 ∨ Word.op w = 2 ∨ Word.op w = 7) ∧ (Word.tw w ≠ 0 ∨ Word.len w ≠ 0)) ∨
      ((Word.op w = 1 ∨ Word.op w = 2 ∨ Word.op w = 3 ∨ Word.op w = 4 ∨ Word.op w = 7) ∧ Word.bit w ≠ 0))) ∧
  (∀ (s : State) (n : Nat) (u : Bcu) (c : Command) (rest : List Input) (e : DecodeError),
    s.inputs = .command n c :: rest → s.ready n u → c.operands.fit s.config.addrW = true →
    decode c.word = .error e →
    step s = .next { s with
      inputs := rest
      cur := n
      port := c.operands
      responses := (n, { status := .illegalCommand, dout := 0, req := 0, twid := 0, posByte := 0, posBit := 0 })
        :: s.responses })

/-- R64, R53, R54, R56: a line stands for a command exactly when it is well-formed, and the command is the line's: its word
decodes to the line's instruction and its operand values are the line's and fit their wires. Form by form: which numbers
make the line well-formed, and that the order, the width, LEN, BIT, BASE, BLEN, BYTE and DIN of its command are those
written. An operand the form does not write is 0, which is the model's choice (log entry 16); R56 lets it affect
nothing. -/
def Obligations.AssembledLinesDecodeToThemselves : Prop :=
  ∀ addrW : Nat,
    (∀ l : AsmLine,
      (l.wf addrW = false → l.assemble addrW = none) ∧
      (l.wf addrW = true → ∃ c, l.assemble addrW = some c ∧ decode c.word = .ok l.instr ∧ c.operands = l.operands ∧
        c.operands.fit addrW = true)) ∧
    (∀ o base blen,
      ((AsmLine.rdNew o base blen).wf addrW = true ↔ base < 2 ^ addrW ∧ blen < 2 ^ addrW) ∧
      (AsmLine.rdNew o base blen).instr = .rdNew o ∧
      (AsmLine.rdNew o base blen).operands = { base := base, blen := blen, byte := 0, din := 0 }) ∧
    (∀ o base blen,
      ((AsmLine.wrNew o base blen).wf addrW = true ↔ base < 2 ^ addrW ∧ blen < 2 ^ addrW) ∧
      (AsmLine.wrNew o base blen).instr = .wrNew o ∧
      (AsmLine.wrNew o base blen).operands = { base := base, blen := blen, byte := 0, din := 0 }) ∧
    (∀ w len,
      ((AsmLine.rd w len).wf addrW = true ↔ len < 256) ∧
      (len < 256 → ∃ fieldLen : BitVec 8, (AsmLine.rd w len).instr = .rd w fieldLen ∧ fieldLen.toNat = len) ∧
      (AsmLine.rd w len).operands = { base := 0, blen := 0, byte := 0, din := 0 }) ∧
    (∀ w len din,
      ((AsmLine.wr w len din).wf addrW = true ↔ len < 256 ∧ din < 2 ^ 128) ∧
      (len < 256 → ∃ fieldLen : BitVec 8, (AsmLine.wr w len din).instr = .wr w fieldLen ∧ fieldLen.toNat = len) ∧
      (din < 2 ^ 128 → ∃ value : Data, value.toNat = din ∧
        (AsmLine.wr w len din).operands = { base := 0, blen := 0, byte := 0, din := value })) ∧
    (∀ w o base blen byte bit len,
      ((AsmLine.rdAt w o base blen byte bit len).wf addrW = true ↔
        base < 2 ^ addrW ∧ blen < 2 ^ addrW ∧ byte < 2 ^ addrW ∧ bit < 8 ∧ len < 256) ∧
      (bit < 8 → len < 256 → ∃ (fieldLen : BitVec 8) (fieldBit : BitVec 3),
        (AsmLine.rdAt w o base blen byte bit len).instr = .rdAt o w fieldLen fieldBit ∧
        fieldLen.toNat = len ∧ fieldBit.toNat = bit) ∧
      (AsmLine.rdAt w o base blen byte bit len).operands = { base := base, blen := blen, byte := byte, din := 0 }) ∧
    (∀ w o base blen byte bit len din,
      ((AsmLine.wrAt w o base blen byte bit len din).wf addrW = true ↔
        base < 2 ^ addrW ∧ blen < 2 ^ addrW ∧ byte < 2 ^ addrW ∧ bit < 8 ∧ len < 256 ∧ din < 2 ^ 128) ∧
      (bit < 8 → len < 256 → ∃ (fieldLen : BitVec 8) (fieldBit : BitVec 3),
        (AsmLine.wrAt w o base blen byte bit len din).instr = .wrAt o w fieldLen fieldBit ∧
        fieldLen.toNat = len ∧ fieldBit.toNat = bit) ∧
      (din < 2 ^ 128 → ∃ value : Data, value.toNat = din ∧
        (AsmLine.wrAt w o base blen byte bit len din).operands =
          { base := base, blen := blen, byte := byte, din := value })) ∧
    (AsmLine.drop.wf addrW = true ∧ AsmLine.drop.instr = .drop ∧
      AsmLine.drop.operands = { base := 0, blen := 0, byte := 0, din := 0 })

/-! ### The step -/

/-- A command given whole is decoded and run on the state that holds its operand values on the port. -/
def Obligations.StepRunsTheDecodedCommand : Prop :=
  ∀ (s : State) (n : Nat) (c : Command) (rest : List Input) (i : Instr),
    s.inputs = .command n c :: rest → c.operands.fit s.config.addrW = true → decode c.word = .ok i →
    step s = exec i { s with inputs := rest, cur := n, port := c.operands }

/-- A command sent to a unit that is still running one is not taken. The spec forbids the host to send it (R48, R126) and
says only that "the model gives no move" (92_eei_decisions.md D27). That the step then ends as the refusal commandWhileBusy is
the model's own choice (log entry 7, DESIGN CHOICE). -/
def Obligations.BusyUnitsTakeNoCommand : Prop :=
  ∀ (s : State) (n : Nat) (u : Bcu) (t : Transfer) (c : Command) (rest : List Input),
    (s.inputs = .command n c :: rest ∨ s.inputs = .accept n c :: rest) →
    s.units[n]? = some u → u.inFlight = some t → c.operands.fit s.config.addrW = true →
    step s = .refused .commandWhileBusy

/-- The host's own accesses (R126): a read is one access that changes no byte and returns the byte there; a write stores
its byte and changes no other. Nothing else of the state changes. -/
def Obligations.HostAccessesReadAndWriteOneByte : Prop :=
  ∀ (s : State) (a : Nat) (rest : List Input), a < s.config.space →
    (s.inputs = .hostRead a :: rest →
      step s = .next { s with
        inputs := rest
        bus := { s.bus with
          log := { agent := .host, kind := .read, addr := a, value := Memory.get s.mem a } :: s.bus.log } }) ∧
    (∀ v, s.inputs = .hostWrite a v :: rest → Memory.wf s.mem = true →
      ∃ m', Memory.get m' a = v ∧ (∀ x, x ≠ a → Memory.get m' x = Memory.get s.mem x) ∧ Memory.wf m' = true ∧
        step s = .next { s with
          inputs := rest
          bus := { mem := m', log := { agent := .host, kind := .write, addr := a, value := v } :: s.bus.log } })

/-! ### Binding and releasing (42_cursor.md) -/

/-- RD.NEW and WR.NEW with a legal descriptor, on a unit in any context state (R93, R94). -/
def Obligations.NewBindsAReaderOrWriterAtTheStart : Prop :=
  ∀ (order : BitOrder) (s : State) (u : Bcu), s.ready s.cur u → s.port.base + s.port.blen ≤ s.config.space →
    (exec (.rdNew order) s = .next { s with
      units := s.units.set s.cur { u with
        ctx := { valid := true, role := .reader, order := order, base := s.port.base, blen := s.port.blen,
                 byteIndex := 0, bitIndex := 0 } }
      responses := (s.cur, { status := .ok, dout := 0, req := 0, twid := 0, posByte := 0, posBit := 0 })
        :: s.responses }) ∧
    (exec (.wrNew order) s = .next { s with
      units := s.units.set s.cur { u with
        ctx := { valid := true, role := .writer, order := order, base := s.port.base, blen := s.port.blen,
                 byteIndex := 0, bitIndex := 0 } }
      responses := (s.cur, { status := .ok, dout := 0, req := 0, twid := 0, posByte := 0, posBit := 0 })
        :: s.responses })

/-- DROP of a bound context gives it the reset values of R28 (R97). -/
def Obligations.DropGivesTheContextItsResetValues : Prop :=
  ∀ (s : State) (u : Bcu), s.ready s.cur u → u.ctx.valid = true →
    exec .drop s = .next { s with
      units := s.units.set s.cur { u with
        ctx := { valid := false, role := .reader, order := .lsb0, base := 0, blen := 0, byteIndex := 0,
                 bitIndex := 0 } }
      responses := (s.cur, { status := .ok, dout := 0, req := 0, twid := 0, posByte := 0, posBit := 0 })
        :: s.responses }

/-- R112: RD with no context or a writer, WR with no context or a reader, DROP with no context. Only the response is
new. -/
def Obligations.WrongContextStateIsIllegal : Prop :=
  ∀ (s : State) (u : Bcu) (i : Instr), s.ready s.cur u →
    ((∃ width len, i = .rd width len) ∧ (u.ctx.valid = false ∨ u.ctx.role = .writer) ∨
      (∃ width len, i = .wr width len) ∧ (u.ctx.valid = false ∨ u.ctx.role = .reader) ∨
      i = .drop ∧ u.ctx.valid = false) →
    exec i s = .next { s with
      responses := (s.cur, { status := .illegalCommand, dout := 0, req := 0, twid := 0, posByte := 0, posBit := 0 })
        :: s.responses }

/-! ### FATAL and FAULT (60_exceptions.md R113) -/

/-- RD.NEW, WR.NEW, RD.AT and WR.AT with BASE + BLEN > 2^ADDR_W: FATAL, FAULT becomes 1, nothing else changes. -/
def Obligations.OverflowingDescriptorIsFatal : Prop :=
  ∀ (s : State) (u : Bcu) (i : Instr), s.ready s.cur u → s.config.space < s.port.base + s.port.blen →
    ((∃ order, i = .rdNew order) ∨ (∃ order, i = .wrNew order) ∨ (∃ order width len bit, i = .rdAt order width len bit) ∨
      (∃ order width len bit, i = .wrAt order width len bit)) →
    exec i s = .next { s with
      units := s.units.set s.cur { u with fault := true }
      responses := (s.cur, { status := .fatal, dout := 0, req := 0, twid := 0, posByte := 0, posBit := 0 })
        :: s.responses }

/-- With FAULT = 1 every word, legal or not, with any operand values, is answered FATAL and changes no state. That
the answer comes in the move that takes the command is the model's choice (log entries 12 and 19). -/
def Obligations.FaultedUnitAnswersFatalToEveryWord : Prop :=
  ∀ (s : State) (n : Nat) (u : Bcu) (c : Command) (rest : List Input),
    (s.inputs = .command n c :: rest ∨ s.inputs = .accept n c :: rest) → s.units[n]? = some u → u.inFlight = none →
    u.fault = true → c.operands.fit s.config.addrW = true →
    step s = .next { s with
      inputs := rest
      cur := n
      port := c.operands
      responses := (n, { status := .fatal, dout := 0, req := 0, twid := 0, posByte := 0, posBit := 0 })
        :: s.responses }

/-- Nothing but reset clears FAULT, and nothing but an overflowing descriptor on RD.NEW, WR.NEW, RD.AT or WR.AT sets it
(R22). -/
def Obligations.FaultIsStickyUntilReset : Prop :=
  ∀ (s t : State) (i : Input) (rest : List Input) (n : Nat) (u u' : Bcu),
    s.inputs = i :: rest → step s = .next t → s.units[n]? = some u → t.units[n]? = some u' →
    (u.fault = true → u'.fault = false → i = .reset n) ∧
    (u.fault = false → u'.fault = true → ∃ instr, i.sends n = some instr ∧
      ((∃ order, instr = .rdNew order) ∨ (∃ order, instr = .wrNew order) ∨
        (∃ order width len bit, instr = .rdAt order width len bit) ∨
        (∃ order width len bit, instr = .wrAt order width len bit)) ∧
      s.config.space < i.brings.base + i.brings.blen)

/-! ### Reading and writing a field -/

/-- RD of a field inside the buffer (R95): DOUT is the field's value in the closed form of R88, the cursor advances by
len, the bytes of the field are read once each in rising order, no byte changes. -/
def Obligations.RdReadsTheFieldAndAdvances : Prop :=
  ∀ (width : Width) (len : BitVec 8) (s : State) (u : Bcu), s.ready s.cur u →
    u.ctx.valid = true → u.ctx.role = .reader → u.ctx.base + u.ctx.blen ≤ s.config.space →
    1 ≤ len.toNat → len.toNat ≤ width.bits →
    8 * u.ctx.byteIndex + u.ctx.bitIndex.toNat + len.toNat ≤ 8 * u.ctx.blen →
    let P := 8 * u.ctx.byteIndex + u.ctx.bitIndex.toNat
    let ctx := { u.ctx with
      byteIndex := (P + len.toNat) / 8
      bitIndex := BitVec.ofNat 3 ((P + len.toNat) % 8) }
    exec (.rd width len) s = .next { s with
      units := s.units.set s.cur { u with ctx := ctx }
      bus := { s.bus with
        log := readRun (.unit s.cur) s.mem (u.ctx.base + u.ctx.byteIndex)
          ((u.ctx.bitIndex.toNat + len.toNat + 7) / 8) ++ s.bus.log }
      responses := (s.cur,
        { status := .ok, dout := BitVec.ofNat 128 (fieldValue u.ctx.order s.mem u.ctx.base P len.toNat),
          req := 0, twid := 0, posByte := ctx.byteIndex, posBit := ctx.bitIndex }) :: s.responses }

/-- WR of a field inside the buffer (R96): the field takes DIN's low len bits (R88), every other bit of memory is as
before (R85), the cursor advances by len, each byte of the field is read and then written once, in rising order. -/
def Obligations.WrWritesTheFieldAndAdvances : Prop :=
  ∀ (width : Width) (len : BitVec 8) (s : State) (u : Bcu), s.ready s.cur u → Memory.wf s.mem = true →
    u.ctx.valid = true → u.ctx.role = .writer → u.ctx.base + u.ctx.blen ≤ s.config.space →
    1 ≤ len.toNat → len.toNat ≤ width.bits →
    8 * u.ctx.byteIndex + u.ctx.bitIndex.toNat + len.toNat ≤ 8 * u.ctx.blen →
    let P := 8 * u.ctx.byteIndex + u.ctx.bitIndex.toNat
    let chunks := (u.ctx.bitIndex.toNat + len.toNat + 7) / 8
    let first := u.ctx.base + u.ctx.byteIndex
    let ctx := { u.ctx with
      byteIndex := (P + len.toNat) / 8
      bitIndex := BitVec.ofNat 3 ((P + len.toNat) % 8) }
    ∃ m', Memory.wf m' = true ∧
      FieldWritten u.ctx.order s.mem m' u.ctx.base P len.toNat (8 * u.ctx.blen) s.port.din ∧
      (∀ a, ¬ (first ≤ a ∧ a < first + chunks) → Memory.get m' a = Memory.get s.mem a) ∧
      exec (.wr width len) s = .next { s with
        units := s.units.set s.cur { u with ctx := ctx }
        bus := { mem := m', log := writeRun (.unit s.cur) s.mem m' first chunks ++ s.bus.log }
        responses := (s.cur,
          { status := .ok, dout := 0, req := 0, twid := 0, posByte := ctx.byteIndex, posBit := ctx.bitIndex })
          :: s.responses }

/-- RD.AT of a field inside the buffer its operands name (R102): as RD, with no context read or written and no position
returned (R104). -/
def Obligations.RdAtReadsTheField : Prop :=
  ∀ (order : BitOrder) (width : Width) (len : BitVec 8) (bit : BitVec 3) (s : State) (u : Bcu), s.ready s.cur u →
    s.port.base + s.port.blen ≤ s.config.space → 1 ≤ len.toNat → len.toNat ≤ width.bits →
    8 * s.port.byte + bit.toNat + len.toNat ≤ 8 * s.port.blen →
    exec (.rdAt order width len bit) s = .next { s with
      units := s.units.set s.cur u
      bus := { s.bus with
        log := readRun (.unit s.cur) s.mem (s.port.base + s.port.byte) ((bit.toNat + len.toNat + 7) / 8)
          ++ s.bus.log }
      responses := (s.cur,
        { status := .ok,
          dout := BitVec.ofNat 128 (fieldValue order s.mem s.port.base (8 * s.port.byte + bit.toNat) len.toNat),
          req := 0, twid := 0, posByte := 0, posBit := 0 }) :: s.responses }

/-- WR.AT of a field inside the buffer its operands name (R103): as WR, with no context read or written and no position
returned (R104). -/
def Obligations.WrAtWritesTheField : Prop :=
  ∀ (order : BitOrder) (width : Width) (len : BitVec 8) (bit : BitVec 3) (s : State) (u : Bcu), s.ready s.cur u →
    Memory.wf s.mem = true →
    s.port.base + s.port.blen ≤ s.config.space → 1 ≤ len.toNat → len.toNat ≤ width.bits →
    8 * s.port.byte + bit.toNat + len.toNat ≤ 8 * s.port.blen →
    let P := 8 * s.port.byte + bit.toNat
    let chunks := (bit.toNat + len.toNat + 7) / 8
    let first := s.port.base + s.port.byte
    ∃ m', Memory.wf m' = true ∧
      FieldWritten order s.mem m' s.port.base P len.toNat (8 * s.port.blen) s.port.din ∧
      (∀ a, ¬ (first ≤ a ∧ a < first + chunks) → Memory.get m' a = Memory.get s.mem a) ∧
      exec (.wrAt order width len bit) s = .next { s with
        units := s.units.set s.cur u
        bus := { mem := m', log := writeRun (.unit s.cur) s.mem m' first chunks ++ s.bus.log }
        responses := (s.cur, { status := .ok, dout := 0, req := 0, twid := 0, posByte := 0, posBit := 0 })
          :: s.responses }

/-! ### The error outcomes of the four data commands -/

/-- LEN = 0 and LEN > W on a command whose context state and descriptor are right (R108, R110): only the response is new.
It carries REQ and TWID for WIDTH_EXCEEDED and the kept cursor for RD and WR. -/
def Obligations.ZeroLengthAndWidthErrorsChangeNothing : Prop :=
  ∀ (width : Width) (len : BitVec 8) (s : State) (u : Bcu), s.ready s.cur u →
    let answer := fun (status : Status) (req twid : BitVec 8) (posByte : Nat) (posBit : BitVec 3) =>
      (Host.Outcome.next { s with
        units := s.units.set s.cur u
        responses := (s.cur,
          { status := status, dout := 0, req := req, twid := twid, posByte := posByte, posBit := posBit })
          :: s.responses } : Host.Outcome State Fault Refusal)
    (u.ctx.valid = true → u.ctx.base + u.ctx.blen ≤ s.config.space →
      (len = 0 → (u.ctx.role = .reader → exec (.rd width len) s =
          answer .zeroLength 0 0 u.ctx.byteIndex u.ctx.bitIndex) ∧
        (u.ctx.role = .writer → exec (.wr width len) s =
          answer .zeroLength 0 0 u.ctx.byteIndex u.ctx.bitIndex)) ∧
      (width.bits < len.toNat → (u.ctx.role = .reader → exec (.rd width len) s =
          answer .widthExceeded len (BitVec.ofNat 8 width.bits) u.ctx.byteIndex u.ctx.bitIndex) ∧
        (u.ctx.role = .writer → exec (.wr width len) s =
          answer .widthExceeded len (BitVec.ofNat 8 width.bits) u.ctx.byteIndex u.ctx.bitIndex))) ∧
    (s.port.base + s.port.blen ≤ s.config.space → ∀ (order : BitOrder) (bit : BitVec 3),
      (len = 0 → exec (.rdAt order width len bit) s = answer .zeroLength 0 0 0 0 ∧
        exec (.wrAt order width len bit) s = answer .zeroLength 0 0 0 0) ∧
      (width.bits < len.toNat →
        exec (.rdAt order width len bit) s = answer .widthExceeded len (BitVec.ofNat 8 width.bits) 0 0 ∧
        exec (.wrAt order width len bit) s = answer .widthExceeded len (BitVec.ofNat 8 width.bits) 0 0))

/-- RD and RD.AT of a field that does not lie inside the buffer (R109): BUFFER_EXHAUSTED, the cursor kept, the bytes from
the field's first to the buffer's last read once each (R86), nothing else. -/
def Obligations.ExhaustedReadsKeepTheCursor : Prop :=
  ∀ (width : Width) (len : BitVec 8) (s : State) (u : Bcu), s.ready s.cur u →
    1 ≤ len.toNat → len.toNat ≤ width.bits →
    (u.ctx.valid = true → u.ctx.role = .reader → u.ctx.base + u.ctx.blen ≤ s.config.space →
      8 * u.ctx.blen < 8 * u.ctx.byteIndex + u.ctx.bitIndex.toNat + len.toNat →
      exec (.rd width len) s = .next { s with
        units := s.units.set s.cur u
        bus := { s.bus with
          log := readRun (.unit s.cur) s.mem (u.ctx.base + u.ctx.byteIndex) (u.ctx.blen - u.ctx.byteIndex)
            ++ s.bus.log }
        responses := (s.cur,
          { status := .bufferExhausted, dout := 0, req := 0, twid := 0, posByte := u.ctx.byteIndex,
            posBit := u.ctx.bitIndex }) :: s.responses }) ∧
    (∀ (order : BitOrder) (bit : BitVec 3), s.port.base + s.port.blen ≤ s.config.space →
      8 * s.port.blen < 8 * s.port.byte + bit.toNat + len.toNat →
      exec (.rdAt order width len bit) s = .next { s with
        units := s.units.set s.cur u
        bus := { s.bus with
          log := readRun (.unit s.cur) s.mem (s.port.base + s.port.byte) (s.port.blen - s.port.byte) ++ s.bus.log }
        responses := (s.cur,
          { status := .bufferExhausted, dout := 0, req := 0, twid := 0, posByte := 0, posBit := 0 })
          :: s.responses })

/-- WR and WR.AT of a field that does not lie inside the buffer (R89): BUFFER_EXHAUSTED, the cursor kept; the stream bits
of the field up to the buffer's end take their value bits and stay written; every other bit, and every byte outside the
buffer, is as before. -/
def Obligations.ExhaustedWritesKeepTheirFirstChunks : Prop :=
  ∀ (width : Width) (len : BitVec 8) (s : State) (u : Bcu), s.ready s.cur u → Memory.wf s.mem = true →
    1 ≤ len.toNat → len.toNat ≤ width.bits →
    (u.ctx.valid = true → u.ctx.role = .writer → u.ctx.base + u.ctx.blen ≤ s.config.space →
      8 * u.ctx.blen < 8 * u.ctx.byteIndex + u.ctx.bitIndex.toNat + len.toNat →
      ∃ m', Memory.wf m' = true ∧
        FieldWritten u.ctx.order s.mem m' u.ctx.base (8 * u.ctx.byteIndex + u.ctx.bitIndex.toNat) len.toNat
          (8 * u.ctx.blen) s.port.din ∧
        (∀ a, ¬ (u.ctx.base + u.ctx.byteIndex ≤ a ∧ a < u.ctx.base + u.ctx.blen) →
          Memory.get m' a = Memory.get s.mem a) ∧
        exec (.wr width len) s = .next { s with
          units := s.units.set s.cur u
          bus := {
            mem := m'
            log := writeRun (.unit s.cur) s.mem m' (u.ctx.base + u.ctx.byteIndex) (u.ctx.blen - u.ctx.byteIndex)
              ++ s.bus.log }
          responses := (s.cur,
            { status := .bufferExhausted, dout := 0, req := 0, twid := 0, posByte := u.ctx.byteIndex,
              posBit := u.ctx.bitIndex }) :: s.responses }) ∧
    (∀ (order : BitOrder) (bit : BitVec 3), s.port.base + s.port.blen ≤ s.config.space →
      8 * s.port.blen < 8 * s.port.byte + bit.toNat + len.toNat →
      ∃ m', Memory.wf m' = true ∧
        FieldWritten order s.mem m' s.port.base (8 * s.port.byte + bit.toNat) len.toNat (8 * s.port.blen)
          s.port.din ∧
        (∀ a, ¬ (s.port.base + s.port.byte ≤ a ∧ a < s.port.base + s.port.blen) →
          Memory.get m' a = Memory.get s.mem a) ∧
        exec (.wrAt order width len bit) s = .next { s with
          units := s.units.set s.cur u
          bus := {
            mem := m'
            log := writeRun (.unit s.cur) s.mem m' (s.port.base + s.port.byte) (s.port.blen - s.port.byte)
              ++ s.bus.log }
          responses := (s.cur,
            { status := .bufferExhausted, dout := 0, req := 0, twid := 0, posByte := 0, posBit := 0 })
            :: s.responses })

/-- R114: of the errors that apply to a command, the first in the order of priority is the one reported, and memory is
accessed only by a command that passes the first six. -/
def Obligations.FirstErrorByPriorityIsReported : Prop :=
  ∀ (s t : State) (n : Nat) (u : Bcu) (c : Command) (rest : List Input),
    s.inputs = .command n c :: rest → s.units[n]? = some u → step s = .next t →
    ∃ r, t.responses = (n, r) :: s.responses ∧ r.status = statusOf s.config u c.operands c.word ∧
      (r.status ≠ .ok → r.status ≠ .bufferExhausted → t.bus = s.bus)

/-- R115: what errors leave unchanged, for every word and operand values. A command that ends with an error keeps every
context register; FATAL sets FAULT, and no other status changes it. Memory (R116) is changed by an error of a WR or WR.AT
alone, and only by BUFFER_EXHAUSTED. -/
def Obligations.ErrorsKeepContextAndMemory : Prop :=
  ∀ (s t : State) (n : Nat) (c : Command) (rest : List Input) (u u' : Bcu) (r : Response),
    s.inputs = .command n c :: rest → s.units[n]? = some u → step s = .next t → t.units[n]? = some u' →
    t.responses = (n, r) :: s.responses →
    (r.status ≠ .ok → u'.ctx = u.ctx) ∧
    (r.status = .fatal → u'.fault = true) ∧ (r.status ≠ .fatal → u'.fault = u.fault) ∧
    (r.status ≠ .ok → t.mem ≠ s.mem →
      r.status = .bufferExhausted ∧ ∃ i, decode c.word = .ok i ∧ stores i = true)

/-! ### Whole-machine rules -/

/-- What no command changes, and what each may change (the frame of every instruction): no other unit, no parameter, no
move to come; one response; the unit's context registers only as its rule says, FAULT only on an overflowing descriptor;
no byte outside the bytes of a stored field. -/
def Obligations.CommandsChangeNothingElse : Prop :=
  ∀ (i : Instr) (s t : State) (u : Bcu), s.units[s.cur]? = some u → exec i s = .next t →
    t.config = s.config ∧ t.cur = s.cur ∧ t.port = s.port ∧ t.inputs = s.inputs ∧ t.freeNext = s.freeNext ∧
    t.units.length = s.units.length ∧ (∀ n, n ≠ s.cur → t.units[n]? = s.units[n]?) ∧
    (∃ r, t.responses = (s.cur, r) :: s.responses) ∧
    (∃ u', t.units[s.cur]? = some u' ∧ u'.inFlight = none ∧
      (u'.fault ≠ u.fault → namesBuffer i = true ∧ s.config.space < s.port.base + s.port.blen) ∧
      ((∀ order, i ≠ .rdNew order) → (∀ order, i ≠ .wrNew order) → i ≠ .drop →
        u'.ctx.valid = u.ctx.valid ∧ u'.ctx.role = u.ctx.role ∧ u'.ctx.order = u.ctx.order ∧
        u'.ctx.base = u.ctx.base ∧ u'.ctx.blen = u.ctx.blen ∧
        ((∀ width len, i ≠ .rd width len) → (∀ width len, i ≠ .wr width len) →
          u'.ctx.byteIndex = u.ctx.byteIndex ∧ u'.ctx.bitIndex = u.ctx.bitIndex))) ∧
    (Memory.wf s.mem = true → ∀ a,
      (∀ x, stores i = true → coordinatesOf u s.port i = some x →
        ¬ (x.base + x.byte0 ≤ a ∧ a < x.base + x.byte0 + (x.bit0.toNat + x.len.toNat + 7) / 8 ∧
          a < x.base + x.blen)) →
      Memory.get t.mem a = Memory.get s.mem a)

/-- Only RD.NEW and WR.NEW set ctx.VALID; only DROP and reset clear it (R16). -/
def Obligations.ValidIsSetByNewAndClearedByDropOrReset : Prop :=
  ∀ (s t : State) (i : Input) (rest : List Input) (n : Nat) (u u' : Bcu),
    s.inputs = i :: rest → step s = .next t → s.units[n]? = some u → t.units[n]? = some u' →
    (u.ctx.valid = false → u'.ctx.valid = true →
      ∃ order, i.sends n = some (.rdNew order) ∨ i.sends n = some (.wrNew order)) ∧
    (u.ctx.valid = true → u'.ctx.valid = false → i.sends n = some .drop ∨ i = .reset n)

/-- While a context stays bound, its role, order and buffer descriptor change only when RD.NEW or WR.NEW replaces it
(R19, R20, R21). -/
def Obligations.RoleOrderAndBufferAreFixedWhileBound : Prop :=
  ∀ (s t : State) (i : Input) (rest : List Input) (n : Nat) (u u' : Bcu),
    s.inputs = i :: rest → step s = .next t → s.units[n]? = some u → t.units[n]? = some u' →
    u.ctx.valid = true → u'.ctx.valid = true →
    (∀ order, i.sends n ≠ some (.rdNew order)) → (∀ order, i.sends n ≠ some (.wrNew order)) →
    u'.ctx.role = u.ctx.role ∧ u'.ctx.order = u.ctx.order ∧ u'.ctx.base = u.ctx.base ∧ u'.ctx.blen = u.ctx.blen

/-- R98: an RD or WR that answers OK moves the stream position forward by exactly LEN, one that answers an error leaves it;
so within one context it never decreases. RD.NEW and WR.NEW, and nothing else, start a new context, at position 0. -/
def Obligations.PositionAdvancesByExactlyLen : Prop :=
  (∀ (width : Width) (len : BitVec 8) (i : Instr) (s t : State) (u u' : Bcu) (r : Response),
    i = .rd width len ∨ i = .wr width len → s.units[s.cur]? = some u → exec i s = .next t →
    t.units[s.cur]? = some u' → t.responses = (s.cur, r) :: s.responses →
    (r.status = .ok → u'.ctx.position = u.ctx.position + len.toNat) ∧
    (r.status ≠ .ok → u'.ctx.position = u.ctx.position)) ∧
  (∀ (order : BitOrder) (i : Instr) (s t : State) (u' : Bcu) (r : Response),
    i = .rdNew order ∨ i = .wrNew order → exec i s = .next t → t.units[s.cur]? = some u' →
    t.responses = (s.cur, r) :: s.responses → r.status = .ok → u'.ctx.position = 0) ∧
  (∀ (s t : State) (i : Input) (rest : List Input) (n : Nat) (u u' : Bcu),
    s.inputs = i :: rest → step s = .next t → s.units[n]? = some u → t.units[n]? = some u' →
    u.ctx.valid = true → u'.ctx.valid = true →
    (∀ order, i.sends n ≠ some (.rdNew order)) → (∀ order, i.sends n ≠ some (.wrNew order)) →
    u.ctx.position ≤ u'.ctx.position) ∧
  (∀ (s t : State) (i : Input) (rest : List Input) (n : Nat) (u u' : Bcu),
    s.inputs = i :: rest → step s = .next t → s.units[n]? = some u → t.units[n]? = some u' →
    u.ctx.valid = false → u'.ctx.valid = true →
    (∃ order, i.sends n = some (.rdNew order) ∨ i.sends n = some (.wrNew order)) ∧ u'.ctx.position = 0)

/-- R105: RD.AT and WR.AT write no context register, and read none: on two states that differ in the unit's context alone
they answer the same and leave the same memory. They touch FAULT on the FATAL path alone. -/
def Obligations.FreeCommandsAreStateless : Prop :=
  ∀ (i : Instr) (s t : State) (u : Bcu),
    ((∃ order width len bit, i = .rdAt order width len bit) ∨ (∃ order width len bit, i = .wrAt order width len bit)) →
    s.units[s.cur]? = some u → exec i s = .next t →
    (∃ u', t.units[s.cur]? = some u' ∧ u'.ctx = u.ctx ∧
      (u'.fault ≠ u.fault → s.config.space < s.port.base + s.port.blen)) ∧
    (∀ ctx : Context, ∃ t', exec i { s with units := s.units.set s.cur { u with ctx := ctx } } = .next t' ∧
      t'.responses = t.responses ∧ t'.bus = t.bus)

/-- R122: a move of one agent changes the registers of no other unit. -/
def Obligations.UnitsShareNoRegister : Prop :=
  ∀ (s t : State) (i : Input) (rest : List Input) (n : Nat),
    s.inputs = i :: rest → step s = .next t → i.agent ≠ .unit n → t.units[n]? = s.units[n]?

/-- R38: RD and RD.AT perform only MemRead, in either form of a command. -/
def Obligations.ReadersNeverWrite : Prop :=
  (∀ (i : Instr) (s t : State),
    ((∃ width len, i = .rd width len) ∨ (∃ order width len bit, i = .rdAt order width len bit)) →
    exec i s = .next t →
    t.mem = s.mem ∧ ∃ new, t.bus.log = new ++ s.bus.log ∧ ∀ x ∈ new, x.kind = .read) ∧
  (∀ (s t : State) (n : Nat) (u : Bcu) (tr : Transfer), s.units[n]? = some u → u.inFlight = some tr →
    tr.wf s.config u.ctx → tr.direction = .read → moveTick n s = .next t →
    t.mem = s.mem ∧ ∃ new, t.bus.log = new ++ s.bus.log ∧ ∀ x ∈ new, x.kind = .read)

/-- R32: every access a command makes is at BASE + i with i < BLEN of its buffer, in either form of a command; a running
command that reaches the buffer's end with bits left makes no access and answers BUFFER_EXHAUSTED. -/
def Obligations.AccessesStayInTheBuffer : Prop :=
  (∀ (i : Instr) (s t : State) (u : Bcu) (new : List Access), s.units[s.cur]? = some u → exec i s = .next t →
    t.bus.log = new ++ s.bus.log → ∀ x ∈ new, ∃ c, coordinatesOf u s.port i = some c ∧
      ∃ k, x.addr = c.base + k ∧ k < c.blen) ∧
  (∀ (s t : State) (n : Nat) (u : Bcu) (tr : Transfer) (new : List Access), s.units[n]? = some u →
    u.inFlight = some tr → tr.wf s.config u.ctx → moveTick n s = .next t → t.bus.log = new ++ s.bus.log →
    ∀ x ∈ new, ∃ k, x.addr = tr.base + k ∧ k < tr.blen) ∧
  (∀ (s : State) (n : Nat) (u : Bcu) (tr : Transfer), s.units[n]? = some u → u.inFlight = some tr →
    tr.base + tr.blen ≤ s.config.space → tr.held = none → 0 < tr.rem → tr.blen ≤ tr.byte →
    ∃ t r, moveTick n s = .next t ∧ t.bus = s.bus ∧ t.responses = (n, r) :: s.responses ∧
      r.status = .bufferExhausted)

/-- R130: the numbers of byte reads and byte writes of a command: on success, on a failure in the chunk loop and on a
failure before it; the bound ceil(len/8) + 1 of a success. RD.NEW, WR.NEW and DROP make no access. -/
def Obligations.AccessCountsAreExact : Prop :=
  ∀ (i : Instr) (s t : State) (u : Bcu) (r : Response) (new : List Access),
    s.units[s.cur]? = some u → exec i s = .next t →
    t.responses = (s.cur, r) :: s.responses → t.bus.log = new ++ s.bus.log →
    (coordinatesOf u s.port i = none → new = []) ∧
    (∀ x, coordinatesOf u s.port i = some x →
      let chunks := if r.status = .ok then (x.bit0.toNat + x.len.toNat + 7) / 8
        else if r.status = .bufferExhausted then x.blen - x.byte0 else 0
      new.countP (fun y => y.kind = .read) = chunks ∧
      new.countP (fun y => y.kind = .write) = (if stores i then chunks else 0) ∧
      (r.status = .ok → chunks ≤ (x.len.toNat + 7) / 8 + 1))

/-- R131: every command finishes: from every state of the invariant, a command to a unit that runs none ends in a next
state with one response, after at most 17 chunks, so at most 34 accesses. -/
def Obligations.EveryCommandFinishes : Prop :=
  ∀ (i : Instr) (s : State) (u : Bcu), s.Inv → s.units[s.cur]? = some u → u.inFlight = none →
    ∃ t r new, exec i s = .next t ∧ t.responses = (s.cur, r) :: s.responses ∧ t.bus.log = new ++ s.bus.log ∧
      new.length ≤ 34

/-- The reset values of R28 and the power-on state of R124, for every parameter value and every canonical memory content,
meet the invariant. The parameters and the empty memory of `State.reset` are the model's choice (log entries 1 to 3). -/
def Obligations.InvariantHoldsAtPowerOn : Prop :=
  State.reset.Inv ∧
  ∀ (c : Config) (m : Memory), 1 ≤ c.addrW → 1 ≤ c.nUnits → Memory.wf m = true → Memory.within c.space m = true →
    (State.powerOn c m).Inv

/-- Every step keeps the invariant: register widths (R15), a legal descriptor (R21), the cursor in the buffer and at bit 0
at its end (R17, R18), the reset values in an unbound context, memory canonical and inside the address space, the loop
variables of running commands consistent and of their widths (R76, R78 to R81), POS_BYTE of every response ADDR_W bits
wide (R57). -/
def Obligations.EveryStepKeepsTheInvariant : Prop :=
  ∀ s t : State, s.Inv → step s = .next t → t.Inv

/-- R44: every step extends one total order of single-byte accesses, made by the agent that moves; memory afterwards is what
its writes leave, and every read returns the last write to its address, or the byte that was there. The log is the model's
record of R44's order (log entry 9). R44 does not speak of a reset in the middle of a write. That the free bytes such a reset
leaves stand in the log as writes of the interrupted unit, and so that memory is what the log's writes leave after that
step too, is the model's choice (log entry 8, DESIGN CHOICE, unsafe for claims about the log). -/
def Obligations.AccessesAreSequentiallyConsistent : Prop :=
  ∀ s t : State, step s = .next t →
    ∃ new, t.bus.log = new ++ s.bus.log ∧ t.mem = replayLog s.mem new ∧ logConsistent s.mem new = true ∧
      ∀ i rest, s.inputs = i :: rest → ∀ x ∈ new, x.agent = i.agent

/-- R132: a command given whole does the same as the command accepted and then run byte access by byte access with no other
agent's move between: the same state, after at most 34 accesses and the response. It relates the model's two forms of a command:
that a command can be given whole is log entry 13 (DESIGN CHOICE), and that taking and checking it is one move, each access one
and the response one more, whence k ≤ 35, is log entry 12 (DEDUCED). -/
def Obligations.WholeCommandEqualsItsByteAccesses : Prop :=
  ∀ (s : State) (n : Nat) (u : Bcu) (c : Command) (rest : List Input), s.Inv → s.units[n]? = some u →
    u.inFlight = none → c.operands.fit s.config.addrW = true →
    ∃ k t, k ≤ 35 ∧ step { s with inputs := .command n c :: rest } = .next t ∧
      Host.Core.run Sys2Proof.core (k + 1)
        { s with inputs := .accept n c :: (List.replicate k (.tick n) ++ rest) } = .next t

/-- R132, R128: a host write outside the buffer of a running command can be moved past the command's next access: both
orders leave the same registers, memory and responses. -/
def Obligations.DisjointHostWriteCommutesWithAnAccess : Prop :=
  ∀ (s : State) (n a : Nat) (v : Byte) (u : Bcu) (tr : Transfer) (rest : List Input), s.Inv → s.units[n]? = some u →
    u.inFlight = some tr → a < s.config.space → ¬ (tr.base ≤ a ∧ a < tr.base + tr.blen) →
    ∃ t t', Host.Core.run Sys2Proof.core 2 { s with inputs := .hostWrite a v :: .tick n :: rest } = .next t ∧
      Host.Core.run Sys2Proof.core 2 { s with inputs := .tick n :: .hostWrite a v :: rest } = .next t' ∧
      t.units = t'.units ∧ t.mem = t'.mem ∧ t.responses = t'.responses

/-- R129: reads of different units do not interfere: two running reads can take their next accesses in either order, with
the same registers and the same memory. -/
def Obligations.ReadersOfDifferentUnitsDoNotInterfere : Prop :=
  ∀ (s : State) (n k : Nat) (u v : Bcu) (tr tr' : Transfer) (rest : List Input), s.Inv → n ≠ k →
    s.units[n]? = some u → s.units[k]? = some v → u.inFlight = some tr → v.inFlight = some tr' →
    tr.direction = .read → tr'.direction = .read →
    ∃ t t', Host.Core.run Sys2Proof.core 2 { s with inputs := .tick n :: .tick k :: rest } = .next t ∧
      Host.Core.run Sys2Proof.core 2 { s with inputs := .tick k :: .tick n :: rest } = .next t' ∧
      t.units = t'.units ∧ t.mem = t'.mem

/-- R36, R40, R41: one move of a running command makes at most one access, of one byte, by that unit. -/
def Obligations.ATickMakesAtMostOneByteAccess : Prop :=
  ∀ (s t : State) (n : Nat), moveTick n s = .next t →
    t.bus.log = s.bus.log ∧ t.mem = s.mem ∨
    ∃ x, t.bus.log = x :: s.bus.log ∧ x.agent = .unit n ∧
      t.mem = (match x.kind with | .read => s.mem | .write => Memory.set s.mem x.addr x.value)

/-- R129, R41: a lost update. Units 0 and 1 each write one bit of the byte at 0x40, whose bits are 0: unit 0 writes 1 to
stream bit 0, unit 1 to stream bit 1. When both read before either writes, unit 0's bit is lost; one after the other,
both stay. -/
def Obligations.UnorderedWritersCanLoseAnUpdate : Prop :=
  let first  : Command := { word := 0x00000106, operands := { base := 0x40, blen := 1, byte := 0, din := 1 } }
  let second : Command := { word := 0x00010106, operands := { base := 0x40, blen := 1, byte := 0, din := 1 } }
  let start := State.powerOn { addrW := 16, nUnits := 2 } []
  (∃ t, Host.Core.run Sys2Proof.core 8 { start with inputs :=
      [.accept 0 first, .accept 1 second, .tick 0, .tick 1, .tick 0, .tick 1, .tick 0, .tick 1] } = .next t ∧
    t.mem = [(0x40, 0x02)]) ∧
  (∃ t, Host.Core.run Sys2Proof.core 2 { start with inputs := [.command 0 first, .command 1 second] } = .next t ∧
    t.mem = [(0x40, 0x03)])

/-! ### Reset (70_reset_and_hazards.md) -/

/-- R123: reset of a unit between commands gives every register of it its reset value and changes nothing else. -/
def Obligations.ResetBetweenCommandsSetsTheRegistersAlone : Prop :=
  ∀ (s : State) (n : Nat) (u : Bcu) (rest : List Input), s.inputs = .reset n :: rest → s.units[n]? = some u →
    u.inFlight = none →
    step s = .next { s with
      inputs := rest
      units := s.units.set n
        { ctx := { valid := false, role := .reader, order := .lsb0, base := 0, blen := 0, byteIndex := 0,
                   bitIndex := 0 }
          fault := false
          inFlight := none } }

/-- R124: a reset in the middle of a command: the registers take their reset values, no response is returned, a read leaves
memory alone, and a write leaves every byte outside its byte range as it was. What stands in the range is a free value,
about which nothing is said. A command in the middle is one in its chunk loop, by the model's choice (log entry 19). -/
def Obligations.ResetDuringACommandBreaksItsRangeAtMost : Prop :=
  ∀ (s : State) (n : Nat) (u : Bcu) (tr : Transfer) (rest : List Input), s.Inv →
    s.inputs = .reset n :: rest → s.units[n]? = some u → u.inFlight = some tr →
    ∃ t, step s = .next t ∧ t.units = s.units.set n Bcu.reset ∧ t.responses = s.responses ∧ t.inputs = rest ∧
      t.config = s.config ∧
      (tr.direction = .read → t.bus = s.bus) ∧
      (∀ a, ¬ (tr.base + tr.byte0 ≤ a ∧ a < tr.base + tr.byte0 + (tr.bit0.toNat + tr.len.toNat + 7) / 8 ∧
          a < tr.base + tr.blen) → Memory.get t.mem a = Memory.get s.mem a)

/-! ### The paths and their primitives (40_bit_slice.md, 41_bit_order.md) -/

/-- R90: what a write path writes, the read path of the same order, width and position reads back, whatever the buffer held
before. -/
def Obligations.ReadPathReadsBackWhatWritePathWrote : Prop :=
  ∀ (who who' : Agent) (order : BitOrder) (base blen byte0 bit0 len v : Nat) (width : Width) (bus : Bus),
    Memory.wf bus.mem = true → bit0 < 8 → 1 ≤ len → len ≤ width.bits → v < 2 ^ len →
    8 * byte0 + bit0 + len ≤ 8 * blen →
    (readPath who' order base blen byte0 bit0 len width.bits
      (writePath who order base blen byte0 bit0 len width.bits (BitVec.ofNat 128 v) bus).2).1 = .ok v

/-- R83: a successful read path returns a value below 2^len, and DOUT of an RD or RD.AT adds zeros up to 128 bits. -/
def Obligations.ReadValuesLieBelowTwoToTheLen : Prop :=
  (∀ (who : Agent) (order : BitOrder) (base blen byte0 bit0 len v : Nat) (width : Width) (bus bus' : Bus), bit0 < 8 →
    readPath who order base blen byte0 bit0 len width.bits bus = (.ok v, bus') → v < 2 ^ len) ∧
  (∀ (i : Instr) (s t : State) (len : BitVec 8) (r : Response),
    ((∃ width, i = .rd width len) ∨ (∃ order width bit, i = .rdAt order width len bit)) →
    exec i s = .next t → t.responses = (s.cur, r) :: s.responses → r.dout.toNat < 2 ^ len.toNat)

/-- R84: a write path writes exactly DIN's bits [len-1:0]: the field it writes holds them, and with two values of DIN that
agree on them it answers the same, makes the same accesses and leaves the same memory, whatever their other bits. -/
def Obligations.WritePathIgnoresDinFromLenUp : Prop :=
  ∀ (who : Agent) (order : BitOrder) (base blen byte0 bit0 len : Nat) (width : Width) (din : Data) (bus : Bus),
    bit0 < 8 →
    (1 ≤ len → len ≤ width.bits → 8 * byte0 + bit0 + len ≤ 8 * blen → Memory.wf bus.mem = true →
      ∃ bus', writePath who order base blen byte0 bit0 len width.bits din bus = (.ok (), bus') ∧
        FieldWritten order bus.mem bus'.mem base (8 * byte0 + bit0) len (8 * blen) din) ∧
    (∀ din' : Data, (∀ j < len, din.getLsbD j = din'.getLsbD j) →
      writePath who order base blen byte0 bit0 len width.bits din bus =
        writePath who order base blen byte0 bit0 len width.bits din' bus)

/-- R35: byte order follows from the bit order. A value of 8m bits written at bit_index 0 stands least significant byte
lowest in Lsb0 and most significant byte lowest in Msb0. -/
def Obligations.ByteOrderFollowsTheBitOrder : Prop :=
  ∀ (who : Agent) (base blen byte0 m : Nat) (width : Width) (din : Data) (bus : Bus) (k : Nat),
    Memory.wf bus.mem = true → 1 ≤ m → 8 * m ≤ width.bits → byte0 + m ≤ blen → k < m →
    Memory.get (writePath who .lsb0 base blen byte0 0 (8 * m) width.bits din bus).2.mem (base + byte0 + k) =
      din.extractLsb' (8 * k) 8 ∧
    Memory.get (writePath who .msb0 base blen byte0 0 (8 * m) width.bits din bus).2.mem (base + byte0 + k) =
      din.extractLsb' (8 * (m - k - 1)) 8

/-- R67, R68: a slice set and then read gives the value's low bits; a slice set to what it holds changes nothing; a
disjoint slice is not touched; the result keeps its width; the empty and the whole slice. -/
def Obligations.BitSlicesAreSetAndReadBack : Prop :=
  ∀ (W x v start stop : Nat), x < 2 ^ W → start ≤ stop → stop ≤ W →
    getBitSlice W (setBitSlice W x start stop v) start stop = v % 2 ^ (stop - start) ∧
    setBitSlice W x start stop (getBitSlice W x start stop) = x ∧
    setBitSlice W x start stop v < 2 ^ W ∧
    (∀ start' stop', start' ≤ stop' → stop' ≤ W → (stop' ≤ start ∨ stop ≤ start') →
      getBitSlice W (setBitSlice W x start stop v) start' stop' = getBitSlice W x start' stop') ∧
    getBitSlice W x start start = 0 ∧ setBitSlice W x start start v = x ∧
    getBitSlice W x 0 W = x ∧ (v < 2 ^ W → setBitSlice W x 0 W v = v)

/-- R69, R70, R71: the saturating shifts give 0 from the width on and are the ordinary shift below it; the low byte. With
the rules' examples. -/
def Obligations.ShiftsSaturateAtTheWidth : Prop :=
  (∀ W x n : Nat, W ≤ n → satShiftLeft W x n = 0 ∧ satShiftRight W x n = 0) ∧
  (∀ W x n : Nat, n < W → satShiftLeft W x n = (x <<< n) % 2 ^ W ∧ satShiftRight W x n = x >>> n) ∧
  (∀ x : Nat, (lowByte x).toNat = x % 256) ∧
  satShiftLeft 8 0x01 8 = 0 ∧ satShiftLeft 8 0x81 1 = 0x02 ∧ satShiftRight 8 0xFF 8 = 0 ∧
  satShiftRight 16 0x1234 4 = 0x0123 ∧ lowByte 0x1234 = 0x34
end

