-- ==== Sys2Proof/Laws/State.lean ====
section
/-! SUPPORT. One lemma per field per update of the state records, true by rfl. -/

namespace Sys2Proof.Machine

section Commit
variable (s : State) (n : Nat) (e : Effect)

@[simp] theorem State.commit_config : (s.commit n e).config = s.config := rfl
@[simp] theorem State.commit_units : (s.commit n e).units = s.units.set n e.unit := rfl
@[simp] theorem State.commit_bus : (s.commit n e).bus = e.bus := rfl
@[simp] theorem State.commit_cur : (s.commit n e).cur = s.cur := rfl
@[simp] theorem State.commit_port : (s.commit n e).port = s.port := rfl
@[simp] theorem State.commit_responses : (s.commit n e).responses = (n, e.response) :: s.responses := rfl
@[simp] theorem State.commit_inputs : (s.commit n e).inputs = s.inputs := rfl
@[simp] theorem State.commit_freeNext : (s.commit n e).freeNext = s.freeNext := rfl
end Commit

section Present
variable (s : State) (n : Nat) (c : Command)

@[simp] theorem State.present_config : (s.present n c).config = s.config := rfl
@[simp] theorem State.present_units : (s.present n c).units = s.units := rfl
@[simp] theorem State.present_bus : (s.present n c).bus = s.bus := rfl
@[simp] theorem State.present_cur : (s.present n c).cur = n := rfl
@[simp] theorem State.present_port : (s.present n c).port = c.operands := rfl
@[simp] theorem State.present_responses : (s.present n c).responses = s.responses := rfl
@[simp] theorem State.present_inputs : (s.present n c).inputs = s.inputs := rfl
@[simp] theorem State.present_freeNext : (s.present n c).freeNext = s.freeNext := rfl
end Present

section GoOn
variable (s : State) (n : Nat) (u : Bcu) (t : Transfer) (b : Bus)

@[simp] theorem State.goOn_config : (s.goOn n u t b).config = s.config := rfl
@[simp] theorem State.goOn_units :
    (s.goOn n u t b).units = s.units.set n { u with inFlight := some t } := rfl
@[simp] theorem State.goOn_bus : (s.goOn n u t b).bus = b := rfl
@[simp] theorem State.goOn_cur : (s.goOn n u t b).cur = s.cur := rfl
@[simp] theorem State.goOn_port : (s.goOn n u t b).port = s.port := rfl
@[simp] theorem State.goOn_responses : (s.goOn n u t b).responses = s.responses := rfl
@[simp] theorem State.goOn_inputs : (s.goOn n u t b).inputs = s.inputs := rfl
@[simp] theorem State.goOn_freeNext : (s.goOn n u t b).freeNext = s.freeNext := rfl
end GoOn

section BusAccess
variable (b : Bus) (who : Agent) (a : Nat) (v : Byte)

@[simp] theorem Bus.read_value : (b.read who a).1 = Memory.get b.mem a := rfl
@[simp] theorem Bus.read_mem : (b.read who a).2.mem = b.mem := rfl
@[simp] theorem Bus.read_log :
    (b.read who a).2.log = { agent := who, kind := .read, addr := a, value := Memory.get b.mem a } :: b.log := rfl
@[simp] theorem Bus.write_mem : (b.write who a v).mem = Memory.set b.mem a v := rfl
@[simp] theorem Bus.write_log :
    (b.write who a v).log = { agent := who, kind := .write, addr := a, value := v } :: b.log := rfl
end BusAccess

section Cursor
variable (c : Context) (n : Nat)

@[simp] theorem Context.advance_valid : (c.advance n).valid = c.valid := rfl
@[simp] theorem Context.advance_role : (c.advance n).role = c.role := rfl
@[simp] theorem Context.advance_order : (c.advance n).order = c.order := rfl
@[simp] theorem Context.advance_base : (c.advance n).base = c.base := rfl
@[simp] theorem Context.advance_blen : (c.advance n).blen = c.blen := rfl
end Cursor

end Sys2Proof.Machine
end

