-- ==== Sys2Proof/Laws/Memory.lean ====
section
/-! SUPPORT. Memory: reads after writes, the canonical form, and equality of canonical memories. -/

namespace Sys2Proof.Machine

theorem Memory.wfFrom_mono {m : Memory} {lo hi : Nat} (h : Memory.wfFrom hi m = true) (hl : lo ≤ hi) :
    Memory.wfFrom lo m = true := by
  cases m with
  | nil => rfl
  | cons c m =>
    simp only [Memory.wfFrom, Bool.and_eq_true, decide_eq_true_eq] at h ⊢
    exact ⟨⟨by omega, h.1.2⟩, h.2⟩

/-- Below the least listed address nothing is listed. -/
theorem Memory.get_below {m : Memory} {lo a : Nat} (h : Memory.wfFrom lo m = true) (ha : a < lo) :
    Memory.get m a = Memory.unlisted := by
  induction m generalizing lo with
  | nil => rfl
  | cons c m ih =>
    simp only [Memory.wfFrom, Bool.and_eq_true, decide_eq_true_eq] at h
    rw [Memory.get, if_neg (by omega), ih h.2 (by omega)]

theorem Memory.get_set_from {m : Memory} {lo : Nat} (h : Memory.wfFrom lo m = true) (a : Nat) (v : Byte) (x : Nat) :
    Memory.get (Memory.set m a v) x = if x = a then v else Memory.get m x := by
  induction m generalizing lo with
  | nil => rw [Memory.set]; split <;> simp_all [Memory.get]
  | cons c m ih =>
    obtain ⟨k, w⟩ := c
    simp only [Memory.wfFrom, Bool.and_eq_true, decide_eq_true_eq] at h
    have below : ∀ y, y ≤ k → Memory.get m y = Memory.unlisted := fun y hy =>
      Memory.get_below h.2 (by omega)
    simp only [Memory.set]
    split
    · split
      · by_cases hx : x = a
        · subst hx; simp_all [Memory.get, Nat.ne_of_lt, below x (by omega)]
        · simp [hx]
      · simp [Memory.get]
    · split
      · subst_vars
        split
        · by_cases hx : x = k
          · subst hx; simp_all
          · simp [Memory.get, hx]
        · simp [Memory.get]; split <;> rfl
      · simp only [Memory.get, ih h.2]
        by_cases hx : x = k
        · subst hx
          rw [if_pos rfl, if_neg (by omega), if_pos rfl]
        · simp [hx]

/-- A read after a write: the byte written, and every other byte as before (20_memory.md R43). -/
theorem Memory.get_set {m : Memory} (h : Memory.wf m = true) (a : Nat) (v : Byte) (x : Nat) :
    Memory.get (Memory.set m a v) x = if x = a then v else Memory.get m x :=
  Memory.get_set_from h a v x

theorem Memory.wfFrom_set {m : Memory} {lo a : Nat} (h : Memory.wfFrom lo m = true) (ha : lo ≤ a) (v : Byte) :
    Memory.wfFrom lo (Memory.set m a v) = true := by
  induction m generalizing lo with
  | nil => rw [Memory.set]; split <;> simp_all [Memory.wfFrom]
  | cons c m ih =>
    obtain ⟨k, w⟩ := c
    have h' := h
    simp only [Memory.wfFrom, Bool.and_eq_true, decide_eq_true_eq] at h'
    simp only [Memory.set]
    split
    · split
      · exact h
      · simp_all [Memory.wfFrom]
    · split
      · split
        · exact Memory.wfFrom_mono h'.2 (by omega)
        · simp_all [Memory.wfFrom]
      · simp only [Memory.wfFrom, Bool.and_eq_true, decide_eq_true_eq]
        exact ⟨h'.1, ih h'.2 (by omega)⟩

/-- A write keeps the canonical form. -/
theorem Memory.wf_set {m : Memory} (h : Memory.wf m = true) (a : Nat) (v : Byte) :
    Memory.wf (Memory.set m a v) = true := Memory.wfFrom_set h (Nat.zero_le a) v

/-- A write below `top` lists no address at or above `top`. -/
theorem Memory.within_set {m : Memory} {top a : Nat} (h : Memory.within top m = true) (ha : a < top) (v : Byte) :
    Memory.within top (Memory.set m a v) = true := by
  induction m with
  | nil => rw [Memory.set]; split <;> simp_all [Memory.within]
  | cons c m ih =>
    obtain ⟨k, w⟩ := c
    simp only [Memory.within, Bool.and_eq_true, decide_eq_true_eq] at h
    have hm := ih h.2
    simp only [Memory.set]
    split
    · split <;> simp only [Memory.within, Bool.and_eq_true, decide_eq_true_eq] <;> exact ⟨by omega, by simp [h]⟩
    · split
      · split
        · exact h.2
        · simp only [Memory.within, Bool.and_eq_true, decide_eq_true_eq]; exact ⟨by omega, h.2⟩
      · simp only [Memory.within, Bool.and_eq_true, decide_eq_true_eq]; exact ⟨h.1, hm⟩

theorem Memory.ext_from {m m' : Memory} {lo : Nat} (h : Memory.wfFrom lo m = true) (h' : Memory.wfFrom lo m' = true)
    (e : ∀ a, Memory.get m a = Memory.get m' a) : m = m' := by
  induction m generalizing lo m' with
  | nil =>
    cases m' with
    | nil => rfl
    | cons c m' =>
      simp only [Memory.wfFrom, Bool.and_eq_true, decide_eq_true_eq] at h'
      have := e c.1
      simp [Memory.get] at this
      exact absurd this.symm h'.1.2
  | cons c m ih =>
    obtain ⟨k, w⟩ := c
    simp only [Memory.wfFrom, Bool.and_eq_true, decide_eq_true_eq] at h
    cases m' with
    | nil =>
      have := e k
      simp [Memory.get] at this
      exact absurd this h.1.2
    | cons c' m' =>
      obtain ⟨k', w'⟩ := c'
      simp only [Memory.wfFrom, Bool.and_eq_true, decide_eq_true_eq] at h'
      have lowM : ∀ y, y ≤ k → Memory.get m y = Memory.unlisted := fun y hy => Memory.get_below h.2 (by omega)
      have lowM' : ∀ y, y ≤ k' → Memory.get m' y = Memory.unlisted := fun y hy => Memory.get_below h'.2 (by omega)
      have hk : k = k' := by
        rcases Nat.lt_trichotomy k k' with hlt | heq | hgt
        · have := e k
          simp [Memory.get, Nat.ne_of_lt hlt, lowM' k (by omega)] at this
          exact absurd this h.1.2
        · exact heq
        · have := e k'
          simp [Memory.get, Nat.ne_of_lt hgt, lowM k' (by omega)] at this
          exact absurd this.symm h'.1.2
      subst hk
      have hw : w = w' := by simpa [Memory.get] using e k
      subst hw
      congr 1
      refine ih h.2 h'.2 fun a => ?_
      have := e a
      by_cases ha : a = k
      · subst ha; rw [lowM a (Nat.le_refl a), lowM' a (Nat.le_refl a)]
      · simpa [Memory.get, ha] using this

/-- Canonical memories that read the same everywhere are equal. -/
theorem Memory.ext {m m' : Memory} (h : Memory.wf m = true) (h' : Memory.wf m' = true)
    (e : ∀ a, Memory.get m a = Memory.get m' a) : m = m' := Memory.ext_from h h' e

/-- Writing back the byte that is there changes nothing. -/
theorem Memory.set_get {m : Memory} (h : Memory.wf m = true) (a : Nat) :
    Memory.set m a (Memory.get m a) = m :=
  Memory.ext (Memory.wf_set h a _) h fun x => by
    rw [Memory.get_set h]; split <;> simp_all

end Sys2Proof.Machine
end

