-- ==== Sys2Proof/Laws/Operands.lean ====
section
/-! SUPPORT. The datapath primitives bit by bit (40_bit_slice.md R67 to R71) and the position arithmetic
(10_state.md R25; 41_bit_order.md R76). -/

namespace Sys2Proof.Machine

theorem getBitSlice_testBit {W start stop : Nat} (x : Nat) (h : start ≤ stop ∧ stop ≤ W) (i : Nat) :
    (getBitSlice W x start stop).testBit i = (decide (i < stop - start) && x.testBit (start + i)) := by
  rw [getBitSlice, if_pos h, Nat.testBit_mod_two_pow, Nat.testBit_div_two_pow, Nat.add_comm]

theorem getBitSlice_lt {W start stop : Nat} (x : Nat) (h : start ≤ stop ∧ stop ≤ W) :
    getBitSlice W x start stop < 2 ^ (stop - start) := by
  rw [getBitSlice, if_pos h]; exact Nat.mod_lt _ (Nat.two_pow_pos _)

theorem setBitSlice_testBit {W start stop : Nat} (x v : Nat) (h : start ≤ stop ∧ stop ≤ W) (i : Nat) :
    (setBitSlice W x start stop v).testBit i =
      if start ≤ i ∧ i < stop then v.testBit (i - start) else x.testBit i := by
  obtain ⟨n, rfl⟩ := Nat.exists_eq_add_of_le h.1
  rw [setBitSlice, if_pos h]
  simp only [Nat.add_sub_cancel_left]
  have hmask : x &&& (2 ^ n - 1) * 2 ^ start = x / 2 ^ start % 2 ^ n * 2 ^ start := by
    apply Nat.eq_of_testBit_eq; intro j
    simp only [Nat.testBit_and, Nat.testBit_mul_two_pow, Nat.testBit_two_pow_sub_one, Nat.testBit_mod_two_pow,
      Nat.testBit_div_two_pow]
    by_cases hj : start ≤ j
    · simp [hj, Bool.and_comm]
    · simp [hj]
  have hlo := Nat.mod_lt x (Nat.two_pow_pos start)
  have hx1 := Nat.div_add_mod x (2 ^ start)
  have hx2 := Nat.div_add_mod (x / 2 ^ start) (2 ^ n)
  have hv := Nat.mod_lt v (Nat.two_pow_pos n)
  have hval : x - (x &&& (2 ^ n - 1) * 2 ^ start) + v % 2 ^ n * 2 ^ start =
      2 ^ start * (2 ^ n * (x / 2 ^ start / 2 ^ n) + v % 2 ^ n) + x % 2 ^ start := by
    rw [hmask]
    have e : x = 2 ^ start * (2 ^ n * (x / 2 ^ start / 2 ^ n)) + 2 ^ start * (x / 2 ^ start % 2 ^ n) +
        x % 2 ^ start := by
      rw [← Nat.mul_add, hx2, hx1]
    rw [Nat.mul_add, Nat.mul_comm (x / 2 ^ start % 2 ^ n), Nat.mul_comm (v % 2 ^ n)]
    omega
  rw [hval, Nat.testBit_two_pow_mul_add _ hlo]
  by_cases h1 : i < start
  · rw [if_pos h1, if_neg (by omega), Nat.testBit_mod_two_pow]; simp [h1]
  · rw [if_neg h1, Nat.testBit_two_pow_mul_add _ hv]
    by_cases h2 : i < start + n
    · rw [if_pos (by omega), if_pos (by omega), Nat.testBit_mod_two_pow]
      simp [show i - start < n by omega]
    · rw [if_neg (by omega), if_neg (by omega), Nat.testBit_div_two_pow, Nat.testBit_div_two_pow]
      congr 1; omega

theorem satShiftLeft_testBit (W x n i : Nat) :
    (satShiftLeft W x n).testBit i = (decide (i < W) && (decide (n ≤ i) && x.testBit (i - n))) := by
  rw [satShiftLeft]
  split
  · simp only [Nat.zero_testBit]
    by_cases h : i < W <;> simp [h]; omega
  · rw [Nat.testBit_mod_two_pow, Nat.testBit_mul_two_pow]

theorem satShiftRight_testBit {W x : Nat} (hx : x < 2 ^ W) (n i : Nat) :
    (satShiftRight W x n).testBit i = x.testBit (n + i) := by
  rw [satShiftRight]
  split
  · rw [Nat.zero_testBit, Nat.testBit_lt_two_pow (Nat.lt_of_lt_of_le hx (Nat.pow_le_pow_right (by omega) (by omega)))]
  · rw [Nat.testBit_div_two_pow, Nat.add_comm]

theorem satShiftRight_lt {W x : Nat} (hx : x < 2 ^ W) (n : Nat) : satShiftRight W x n < 2 ^ W := by
  rw [satShiftRight]
  split
  · exact Nat.two_pow_pos W
  · exact Nat.lt_of_le_of_lt (Nat.div_le_self _ _) hx

theorem lowByte_getLsbD (x i : Nat) : (lowByte x).getLsbD i = (decide (i < 8) && x.testBit i) := by
  simp [lowByte, BitVec.getLsbD_ofNat]

theorem lowByte_toNat_testBit (x i : Nat) : (lowByte x).toNat.testBit i = (decide (i < 8) && x.testBit i) := by
  rw [← lowByte_getLsbD]; rfl

/-! ### Positions -/

theorem advance_fst (byte bit n : Nat) : (advance byte bit n).1 = (8 * byte + bit + n) / 8 := rfl
theorem advance_snd (byte bit n : Nat) : (advance byte bit n).2 = (8 * byte + bit + n) % 8 := rfl
theorem advance_snd_lt (byte bit n : Nat) : (advance byte bit n).2 < 8 := Nat.mod_lt _ (by decide)

/-- The stream position after an advance. -/
theorem advance_position (byte bit n : Nat) :
    8 * (advance byte bit n).1 + (advance byte bit n).2 = 8 * byte + bit + n := by
  rw [advance_fst, advance_snd]; omega

/-- A chunk moves at least one bit, at most what is left, and stays in its byte. -/
theorem chunkSize_bounds {rem bit : Nat} (hr : 0 < rem) (hb : bit < 8) :
    1 ≤ chunkSize rem bit ∧ chunkSize rem bit ≤ rem ∧ bit + chunkSize rem bit ≤ 8 := by
  rw [chunkSize]; omega

/-- After a chunk with bits left, the next one starts at bit 0 of the next byte. -/
theorem advance_chunk {rem byte bit : Nat} (hb : bit < 8) (hl : 0 < rem - chunkSize rem bit) :
    advance byte bit (chunkSize rem bit) = (byte + 1, 0) := by
  rw [chunkSize] at *
  apply Prod.ext
  · rw [advance_fst]; show _ = byte + 1; omega
  · rw [advance_snd]; show _ = 0; omega

/-- The cursor's stream position after an advance (42_cursor.md R98). -/
theorem Context.position_advance (c : Context) (n : Nat) : (c.advance n).position = c.position + n := by
  have := advance_position c.byteIndex c.bitIndex.toNat n
  simp only [Context.position, streamPosition, Context.advance, BitVec.toNat_ofNat]
  have h := advance_snd_lt c.byteIndex c.bitIndex.toNat n
  omega

end Sys2Proof.Machine
end

