-- ==== Sys2Proof/Laws/Paths.lean ====
section
/-! SUPPORT. What the chunk loops and the paths do, said once: when they succeed, the value read, the memory written, and
the accesses made (41_bit_order.md R76, R78 to R81, R86 to R89). -/

namespace Sys2Proof.Machine

/-! ### Runs of accesses -/

theorem readRun_succ_low (who : Agent) (m : Memory) (a n : Nat) :
    readRun who m (a + 1) n ++ [{ agent := who, kind := .read, addr := a, value := Memory.get m a }] =
      readRun who m a (n + 1) := by
  induction n with
  | zero => simp [readRun]
  | succ n ih =>
    rw [readRun, List.cons_append, ih, readRun.eq_2 who m a (n + 1)]
    simp [show a + 1 + n = a + (n + 1) by omega]

theorem writeRun_congr {who : Agent} {m₁ m₂ m' : Memory} {a n : Nat}
    (h : ∀ k < n, Memory.get m₁ (a + k) = Memory.get m₂ (a + k)) :
    writeRun who m₁ m' a n = writeRun who m₂ m' a n := by
  induction n with
  | zero => rfl
  | succ n ih => rw [writeRun, writeRun, ih fun k hk => h k (by omega), h n (by omega)]

theorem writeRun_succ_low (who : Agent) (m m' : Memory) (a n : Nat) :
    writeRun who m m' (a + 1) n ++
      [{ agent := who, kind := .write, addr := a, value := Memory.get m' a },
       { agent := who, kind := .read, addr := a, value := Memory.get m a }] = writeRun who m m' a (n + 1) := by
  induction n with
  | zero => simp [writeRun]
  | succ n ih =>
    rw [writeRun, List.cons_append, List.cons_append, ih, writeRun.eq_2 who m m' a (n + 1)]
    simp [show a + 1 + n = a + (n + 1) by omega]

/-- The number of chunks a loop has left (41_bit_order.md R86). -/
def loopChunks (bit rem : Nat) : Nat := if rem = 0 then 0 else chunkCount bit rem

theorem loopChunks_pos {bit rem : Nat} (hr : 0 < rem) : loopChunks bit rem = chunkCount bit rem :=
  if_neg (by omega)

theorem loopChunks_step {byte bit rem : Nat} (hr : 0 < rem) (hb : bit < 8) :
    loopChunks bit rem =
      loopChunks (advance byte bit (chunkSize rem bit)).2 (rem - chunkSize rem bit) + 1 := by
  rw [loopChunks_pos hr, chunkCount]
  by_cases hl : 0 < rem - chunkSize rem bit
  · rw [advance_chunk hb hl, loopChunks_pos hl, chunkCount, chunkSize] at *
    omega
  · rw [loopChunks, if_pos (by omega)]
    rw [chunkSize] at hl
    omega

/-! ### The BODYs bit by bit -/

theorem lsb0ReadBody_testBit {W : Nat} {b : Byte} {bit chunk acc done : Nat} (hs : bit + chunk ≤ 8)
    (ha : acc < 2 ^ done) (hW : done + chunk ≤ W) (i : Nat) :
    (lsb0ReadBody W b bit chunk acc done).testBit i =
      if i < done then acc.testBit i else decide (i < done + chunk) && b.getLsbD (bit + (i - done)) := by
  rw [lsb0ReadBody, Nat.testBit_or, satShiftLeft_testBit, getBitSlice_testBit _ ⟨by omega, hs⟩]
  by_cases h : i < done
  · simp [h, show ¬ done ≤ i by omega]
  · rw [Nat.testBit_lt_two_pow (Nat.lt_of_lt_of_le ha (Nat.pow_le_pow_right (by omega) (by omega)))]
    by_cases h2 : i < done + chunk
    · simp [h, h2, show i < W by omega, show done ≤ i by omega, show i - done < chunk by omega,
        BitVec.testBit_toNat]
    · simp [h, h2, show ¬ i - done < chunk by omega]

theorem msb0ReadBody_testBit {W : Nat} {b : Byte} {bit chunk acc done : Nat} (hs : bit + chunk ≤ 8)
    (ha : acc < 2 ^ done) (hW : done + chunk ≤ W) (i : Nat) :
    (msb0ReadBody W b bit chunk acc).testBit i =
      if i < chunk then b.getLsbD (8 - bit - chunk + i) else acc.testBit (i - chunk) := by
  simp only [msb0ReadBody]
  rw [Nat.testBit_or, satShiftLeft_testBit, getBitSlice_testBit _ ⟨by omega, by omega⟩]
  by_cases h : i < chunk
  · simp [h, show ¬ chunk ≤ i by omega, show i < 8 - bit - (8 - bit - chunk) by omega, BitVec.testBit_toNat]
  · simp only [if_neg h, show ¬ i < 8 - bit - (8 - bit - chunk) by omega, decide_false, Bool.false_and,
      Bool.or_false, show chunk ≤ i by omega, decide_true, Bool.true_and]
    by_cases hw : i < W
    · simp [hw]
    · rw [Nat.testBit_lt_two_pow (Nat.lt_of_lt_of_le ha (Nat.pow_le_pow_right (by omega) (by omega)))]; simp

theorem lsb0ReadBody_lt {W : Nat} {b : Byte} {bit chunk acc done : Nat} (hs : bit + chunk ≤ 8)
    (ha : acc < 2 ^ done) (hW : done + chunk ≤ W) : lsb0ReadBody W b bit chunk acc done < 2 ^ (done + chunk) := by
  apply Nat.lt_pow_two_of_testBit
  intro i hi
  rw [lsb0ReadBody_testBit hs ha hW, if_neg (by omega)]
  simp [show ¬ i < done + chunk by omega]

theorem msb0ReadBody_lt {W : Nat} {b : Byte} {bit chunk acc done : Nat} (hs : bit + chunk ≤ 8)
    (ha : acc < 2 ^ done) (hW : done + chunk ≤ W) : msb0ReadBody W b bit chunk acc < 2 ^ (done + chunk) := by
  apply Nat.lt_pow_two_of_testBit
  intro i hi
  rw [msb0ReadBody_testBit hs ha hW, if_neg (by omega),
    Nat.testBit_lt_two_pow (Nat.lt_of_lt_of_le ha (Nat.pow_le_pow_right (by omega) (by omega)))]

/-- The accumulator stays below 2^(bits accumulated), in both orders. -/
theorem readBody_lt {order : BitOrder} {W : Nat} {b : Byte} {bit chunk acc done : Nat} (hs : bit + chunk ≤ 8)
    (ha : acc < 2 ^ done) (hW : done + chunk ≤ W) :
    readBody order W b bit chunk acc done < 2 ^ (done + chunk) := by
  cases order with
  | lsb0 => exact lsb0ReadBody_lt hs ha hW
  | msb0 => exact msb0ReadBody_lt hs ha hW

/-- The byte written back, bit by bit: stream offset `k` of the byte is physical bit `physicalBit order k`; the chunk's
offsets take the value's bits and the others keep the byte's. -/
theorem writeByte_getLsbD {order : BitOrder} {W : Nat} {b : Byte} {bit chunk rem val k : Nat}
    (hs : bit + chunk ≤ 8) (hr : chunk ≤ rem) (hW : rem ≤ W) (hk : k < 8) :
    (writeByte order W b bit chunk rem val).getLsbD (physicalBit order k) =
      if bit ≤ k ∧ k < bit + chunk then
        (match order with
         | .lsb0 => val.testBit (k - bit)
         | .msb0 => val.testBit (rem - 1 - (k - bit)))
      else b.getLsbD (physicalBit order k) := by
  cases order with
  | lsb0 =>
    simp only [writeByte, lsb0WriteByte, physicalBit]
    rw [BitVec.getLsbD_ofNat, setBitSlice_testBit _ _ ⟨by omega, hs⟩, lowByte_toNat_testBit,
      getBitSlice_testBit _ ⟨by omega, by omega⟩]
    by_cases h : bit ≤ k ∧ k < bit + chunk
    · simp [h, hk, show k - bit < 8 by omega, show k - bit < chunk by omega]
    · simp [h, hk, BitVec.testBit_toNat]
  | msb0 =>
    simp only [writeByte, msb0WriteByte, physicalBit]
    rw [BitVec.getLsbD_ofNat, setBitSlice_testBit _ _ ⟨by omega, by omega⟩, lowByte_toNat_testBit,
      getBitSlice_testBit _ ⟨by omega, by omega⟩]
    by_cases h : bit ≤ k ∧ k < bit + chunk
    · rw [if_pos h, if_pos (by omega)]
      simp only [show 7 - k < 8 by omega, decide_true, Bool.true_and,
        show 7 - k - (8 - bit - chunk) < 8 by omega,
        show 7 - k - (8 - bit - chunk) < rem - (rem - chunk) by omega]
      congr 1; omega
    · rw [if_neg h, if_neg (by omega)]
      simp [show 7 - k < 8 by omega, BitVec.testBit_toNat]

/-- The write paths' `val` stays below 2^W. -/
theorem writeVal_lt {order : BitOrder} {W val : Nat} (h : val < 2 ^ W) (chunk : Nat) :
    writeVal order W chunk val < 2 ^ W := by
  cases order with
  | lsb0 => exact satShiftRight_lt h chunk
  | msb0 => exact h

/-! ### The read loop -/

/-- Bit `i` of the value a read loop ends with, when it stands at stream position `P` with `rem` bits left and has
accumulated `done` bits in `acc`. -/
def readBits (order : BitOrder) (m : Memory) (base P rem acc done i : Nat) : Bool :=
  match order with
  | .lsb0 => if i < done then acc.testBit i else decide (i < done + rem) && streamBit .lsb0 m base (P + (i - done))
  | .msb0 => if i < rem then streamBit .msb0 m base (P + (rem - 1 - i)) else acc.testBit (i - rem)

theorem streamBit_chunk (order : BitOrder) (m : Memory) (base byte bit k : Nat) (h : bit + k < 8) :
    streamBit order m base (8 * byte + bit + k) =
      (Memory.get m (base + byte)).getLsbD (physicalBit order (bit + k)) := by
  rw [streamBit, show (8 * byte + bit + k) / 8 = byte by omega, show (8 * byte + bit + k) % 8 = bit + k by omega]

/-- One chunk changes the accumulator, not the value the loop ends with. -/
theorem readBits_chunk {order : BitOrder} {W : Nat} {m : Memory} {base byte bit rem acc done : Nat}
    (hr : 0 < rem) (hb : bit < 8) (ha : acc < 2 ^ done) (hW : done + rem ≤ W) (i : Nat) :
    readBits order m base (8 * byte + bit + chunkSize rem bit) (rem - chunkSize rem bit)
      (readBody order W (Memory.get m (base + byte)) bit (chunkSize rem bit) acc done)
      (done + chunkSize rem bit) i =
    readBits order m base (8 * byte + bit) rem acc done i := by
  obtain ⟨h1, h2, h3⟩ := chunkSize_bounds hr hb
  generalize chunkSize rem bit = c at h1 h2 h3
  cases order with
  | lsb0 =>
    simp only [readBits, readBody]
    rw [lsb0ReadBody_testBit h3 ha (by omega)]
    by_cases hi : i < done
    · simp [hi, show i < done + c by omega]
    · by_cases hi2 : i < done + c
      · have := streamBit_chunk .lsb0 m base byte bit (i - done) (by omega)
        simp only [physicalBit] at this
        simp [hi, hi2, show i < done + rem by omega, this]
      · simp only [if_neg hi, if_neg hi2]
        rw [show done + c + (rem - c) = done + rem by omega,
          show 8 * byte + bit + c + (i - (done + c)) = 8 * byte + bit + (i - done) by omega]
  | msb0 =>
    simp only [readBits, readBody]
    rw [msb0ReadBody_testBit h3 ha (by omega)]
    by_cases hi : i < rem - c
    · rw [if_pos hi, if_pos (by omega)]
      congr 1; omega
    · rw [if_neg hi]
      by_cases hi2 : i < rem
      · rw [if_pos (by omega), if_pos hi2]
        have := streamBit_chunk .msb0 m base byte bit (rem - 1 - i) (by omega)
        rw [this]; simp only [physicalBit]; congr 1; omega
      · rw [if_neg (by omega), if_neg hi2]; congr 1; omega

/-- What the read loop does, from any point of it. With the field inside the buffer it answers the value whose bits are
`readBits`; otherwise BufferExhausted. It reads every byte from `base + byte` up, once each, and writes nothing. -/
theorem readLoop_spec (who : Agent) (order : BitOrder) (base blen W : Nat) :
    ∀ (fuel rem byte bit acc done : Nat) (bus : Bus), rem ≤ fuel → bit < 8 → acc < 2 ^ done → done + rem ≤ W →
    ((rem = 0 ∨ 8 * byte + bit + rem ≤ 8 * blen) →
      ∃ v, readLoop who order base blen W fuel rem byte bit acc done bus =
          (.ok v, { bus with log := readRun who bus.mem (base + byte) (loopChunks bit rem) ++ bus.log }) ∧
        (∀ i, v.testBit i = readBits order bus.mem base (8 * byte + bit) rem acc done i) ∧
        v < 2 ^ (done + rem)) ∧
    (0 < rem → 8 * blen < 8 * byte + bit + rem →
      readLoop who order base blen W fuel rem byte bit acc done bus =
        (.error .bufferExhausted, { bus with log := readRun who bus.mem (base + byte) (blen - byte) ++ bus.log })) := by
  have stop : ∀ (order : BitOrder) (m : Memory) (P acc done i : Nat), acc < 2 ^ done →
      acc.testBit i = readBits order m base P 0 acc done i := by
    intro order m P acc done i ha
    cases order with
    | lsb0 =>
      simp only [readBits]
      split
      · rfl
      · rw [Nat.testBit_lt_two_pow (Nat.lt_of_lt_of_le ha (Nat.pow_le_pow_right (by omega) (by omega)))]
        simp_all
    | msb0 => simp [readBits]
  intro fuel
  induction fuel with
  | zero =>
    intro rem byte bit acc done bus hf hb ha hW
    obtain rfl : rem = 0 := by omega
    exact ⟨fun _ => ⟨acc, by simp [readLoop, loopChunks, readRun], fun i => stop _ _ _ _ _ _ ha, ha⟩,
      fun h => absurd h (by omega)⟩
  | succ fuel ih =>
    intro rem byte bit acc done bus hf hb ha hW
    by_cases hr : rem = 0
    · subst hr
      exact ⟨fun _ => ⟨acc, by simp [readLoop, loopChunks, readRun], fun i => stop _ _ _ _ _ _ ha, ha⟩,
        fun h => absurd h (by omega)⟩
    · have hr' : 0 < rem := by omega
      obtain ⟨h1, h2, h3⟩ := chunkSize_bounds hr' hb
      have hpos := advance_position byte bit (chunkSize rem bit)
      by_cases hx : byte ≥ blen
      · refine ⟨fun h => absurd h (by omega), fun _ _ => ?_⟩
        rw [readLoop, if_neg hr, if_pos hx, show blen - byte = 0 by omega]
        simp [readRun]
      · have go := ih (rem - chunkSize rem bit) (advance byte bit (chunkSize rem bit)).1
          (advance byte bit (chunkSize rem bit)).2
          (readBody order W (Memory.get bus.mem (base + byte)) bit (chunkSize rem bit) acc done)
          (done + chunkSize rem bit) (bus.read who (base + byte)).2 (by omega) (advance_snd_lt _ _ _)
          (readBody_lt h3 ha (by omega)) (by omega)
        have unfoldLoop : readLoop who order base blen W (fuel + 1) rem byte bit acc done bus =
            readLoop who order base blen W fuel (rem - chunkSize rem bit)
              (advance byte bit (chunkSize rem bit)).1 (advance byte bit (chunkSize rem bit)).2
              (readBody order W (Memory.get bus.mem (base + byte)) bit (chunkSize rem bit) acc done)
              (done + chunkSize rem bit) (bus.read who (base + byte)).2 := by
          rw [readLoop, if_neg hr, if_neg hx]; rfl
        rw [unfoldLoop]
        simp only [Bus.read_mem, Bus.read_log, hpos] at go
        constructor
        · intro hfit
          obtain ⟨v, hv, hbits, hlt⟩ := go.1 (by omega)
          refine ⟨v, ?_, fun i => by rw [hbits, readBits_chunk hr' hb ha hW], by
            rwa [show done + chunkSize rem bit + (rem - chunkSize rem bit) = done + rem by omega] at hlt⟩
          rw [hv, loopChunks_step hr' hb (byte := byte), ← readRun_succ_low]
          by_cases hl : 0 < rem - chunkSize rem bit
          · rw [advance_chunk hb hl]
            simp [Nat.add_assoc]
          · rw [show rem - chunkSize rem bit = 0 by omega]
            simp [loopChunks, readRun]
        · intro _ hover
          have hl : 0 < rem - chunkSize rem bit := by omega
          rw [go.2 hl (by omega), advance_chunk hb hl]
          obtain ⟨k, hk⟩ : ∃ k, blen - byte = k + 1 := ⟨blen - byte - 1, by omega⟩
          rw [hk, ← readRun_succ_low, show blen - (byte + 1) = k by omega]
          simp [Nat.add_assoc]

/-! ### Closed forms -/

theorem sumBits_lt (f : Nat → Bool) (n : Nat) : sumBits f n < 2 ^ n := by
  induction n with
  | zero => simp [sumBits]
  | succ n ih =>
    rw [sumBits, Nat.pow_succ]
    have : (f n).toNat ≤ 1 := by cases f n <;> simp
    have := Nat.mul_le_mul_right (2 ^ n) this
    omega

/-- Bit `i` of the sum is the `i`-th summand's bit. -/
theorem sumBits_testBit (f : Nat → Bool) (n i : Nat) : (sumBits f n).testBit i = (decide (i < n) && f i) := by
  induction n with
  | zero => simp [sumBits]
  | succ n ih =>
    rw [sumBits, Nat.add_comm, Nat.mul_comm, Nat.testBit_two_pow_mul_add _ (sumBits_lt f n)]
    by_cases h : i < n
    · rw [if_pos h, ih]; simp [h, show i < n + 1 by omega]
    · rw [if_neg h]
      by_cases h2 : i = n
      · subst h2; cases f i <;> simp
      · have hf : (f n).toNat < 2 ^ 1 := by cases f n <;> decide
        rw [Nat.testBit_lt_two_pow (Nat.lt_of_lt_of_le hf (Nat.pow_le_pow_right (by omega) (by omega)))]
        simp [show ¬ i < n + 1 by omega]

theorem fieldValue_lt (order : BitOrder) (m : Memory) (base P len : Nat) :
    fieldValue order m base P len < 2 ^ len := sumBits_lt _ _

/-- Bit `j` of a field's value is the stream bit at its position. -/
theorem fieldValue_testBit (order : BitOrder) (m : Memory) (base P len j : Nat) :
    (fieldValue order m base P len).testBit j =
      (decide (j < len) && streamBit order m base (fieldPosition order P len j)) := sumBits_testBit _ _ _

/-- The value a loop ends with from its start is the field's value. -/
theorem readBits_start (order : BitOrder) (m : Memory) (base P len i : Nat) :
    readBits order m base P len 0 0 i = (fieldValue order m base P len).testBit i := by
  rw [fieldValue_testBit]
  cases order with
  | lsb0 => simp [readBits, fieldPosition]
  | msb0 =>
    simp only [readBits, fieldPosition, Nat.zero_testBit]
    by_cases h : i < len <;> simp [h]

theorem entryChecks_none {len W : Nat} (h : 1 ≤ len ∧ len ≤ W) : entryChecks len W = none := by
  rw [entryChecks, if_neg (by omega), if_neg (by omega)]

theorem entryChecks_zero (W : Nat) : entryChecks 0 W = some .zeroLength := rfl

theorem entryChecks_wide {len W : Nat} (h : W < len) : entryChecks len W = some (.widthExceeded len W) := by
  rw [entryChecks, if_neg (by omega), if_pos h]

/-- A read path that passes its entry checks: the field's value when the field lies in the buffer, BufferExhausted
otherwise (41_bit_order.md R86, R87, R88). -/
theorem readPath_spec (who : Agent) (order : BitOrder) (base blen byte0 bit0 len W : Nat) (bus : Bus)
    (hl : 1 ≤ len ∧ len ≤ W) (hb : bit0 < 8) :
    readPath who order base blen byte0 bit0 len W bus =
      if 8 * byte0 + bit0 + len ≤ 8 * blen then
        (.ok (fieldValue order bus.mem base (8 * byte0 + bit0) len),
          { bus with log := readRun who bus.mem (base + byte0) (chunkCount bit0 len) ++ bus.log })
      else
        (.error .bufferExhausted,
          { bus with log := readRun who bus.mem (base + byte0) (blen - byte0) ++ bus.log }) := by
  have h := readLoop_spec who order base blen W len len byte0 bit0 0 0 bus (Nat.le_refl _) hb (by simp) (by omega)
  rw [readPath, entryChecks_none hl]
  simp only
  split
  · rename_i hfit
    obtain ⟨v, hv, hbits, _⟩ := h.1 (Or.inr hfit)
    rw [hv, loopChunks_pos (by omega)]
    have : v = fieldValue order bus.mem base (8 * byte0 + bit0) len :=
      Nat.eq_of_testBit_eq fun i => by rw [hbits, readBits_start]
    rw [this]
  · exact h.2 (by omega) (by omega)

/-! ### The write loop -/

/-- The bit that a write loop at stream position `P`, with `rem` bits left in `val`, puts at stream position `q`. -/
def writtenBit (order : BitOrder) (val P rem q : Nat) : Bool :=
  match order with
  | .lsb0 => val.testBit (q - P)
  | .msb0 => val.testBit (rem - 1 - (q - P))

theorem streamBit_set {m : Memory} (h : Memory.wf m = true) (order : BitOrder) (base byte : Nat) (v : Byte) (q : Nat) :
    streamBit order (Memory.set m (base + byte) v) base q =
      if q / 8 = byte then v.getLsbD (physicalBit order (q % 8)) else streamBit order m base q := by
  rw [streamBit, Memory.get_set h]
  by_cases hq : q / 8 = byte
  · rw [if_pos hq, if_pos (by omega)]
  · rw [if_neg hq, if_neg (by omega)]; rfl

/-- One chunk puts its own bits and leaves the others to the rest of the loop. -/
theorem writtenBit_chunk {order : BitOrder} {W val P rem c q : Nat} (hv : val < 2 ^ W) (_ : c ≤ rem)
    (hq : P + c ≤ q) (hq' : q < P + rem) :
    writtenBit order (writeVal order W c val) (P + c) (rem - c) q = writtenBit order val P rem q := by
  cases order with
  | lsb0 => simp only [writtenBit, writeVal]; rw [satShiftRight_testBit hv]; congr 1; omega
  | msb0 => simp only [writtenBit, writeVal]; congr 1; omega

/-- The stream after one chunk: the chunk's bits are `writtenBit`, every other bit is as before. -/
theorem streamBit_writeByte {order : BitOrder} {W : Nat} {m : Memory} {base byte bit rem val : Nat}
    (h : Memory.wf m = true) (hr : 0 < rem) (hb : bit < 8) (hW : rem ≤ W) (q : Nat) :
    streamBit order (Memory.set m (base + byte)
        (writeByte order W (Memory.get m (base + byte)) bit (chunkSize rem bit) rem val)) base q =
      if 8 * byte + bit ≤ q ∧ q < 8 * byte + bit + chunkSize rem bit then
        writtenBit order val (8 * byte + bit) rem q
      else streamBit order m base q := by
  obtain ⟨h1, h2, h3⟩ := chunkSize_bounds hr hb
  generalize chunkSize rem bit = c at h1 h2 h3
  rw [streamBit_set h]
  by_cases hq : q / 8 = byte
  · rw [if_pos hq, writeByte_getLsbD h3 h2 hW (Nat.mod_lt _ (by decide))]
    by_cases hk : bit ≤ q % 8 ∧ q % 8 < bit + c
    · rw [if_pos hk, if_pos (by omega)]
      cases order with
      | lsb0 => simp only [writtenBit]; congr 1; omega
      | msb0 => simp only [writtenBit]; congr 1; omega
    · rw [if_neg hk, if_neg (by omega), streamBit, hq]
  · rw [if_neg hq, if_neg (by omega)]

/-- What the write loop does, from any point of it. It succeeds exactly when the field lies inside the buffer. In either
case the bits of the field that lie inside the buffer take the value's bits and every other bit is as before; each byte
from `base + byte` up is read once and then written once. -/
theorem writeLoop_spec (who : Agent) (order : BitOrder) (base blen W : Nat) :
    ∀ (fuel rem byte bit val : Nat) (bus : Bus), rem ≤ fuel → bit < 8 → rem ≤ W → val < 2 ^ W →
    Memory.wf bus.mem = true →
    ∃ m', Memory.wf m' = true ∧
      (∀ top, Memory.within top bus.mem = true → base + blen ≤ top → Memory.within top m' = true) ∧
      (∀ a, ¬ (base + byte ≤ a ∧ a < base + blen) → Memory.get m' a = Memory.get bus.mem a) ∧
      (∀ q, streamBit order m' base q =
        if 8 * byte + bit ≤ q ∧ q < 8 * byte + bit + rem ∧ q < 8 * blen then
          writtenBit order val (8 * byte + bit) rem q
        else streamBit order bus.mem base q) ∧
      ((rem = 0 ∨ 8 * byte + bit + rem ≤ 8 * blen) →
        writeLoop who order base blen W fuel rem byte bit val bus =
          (.ok (), { mem := m', log := writeRun who bus.mem m' (base + byte) (loopChunks bit rem) ++ bus.log })) ∧
      (0 < rem → 8 * blen < 8 * byte + bit + rem →
        writeLoop who order base blen W fuel rem byte bit val bus =
          (.error .bufferExhausted,
            { mem := m', log := writeRun who bus.mem m' (base + byte) (blen - byte) ++ bus.log })) := by
  have stop : ∀ (fuel byte bit val : Nat) (bus : Bus),
      writeLoop who order base blen W fuel 0 byte bit val bus = (.ok (), bus) := by
    intro fuel byte bit val bus
    cases fuel <;> simp [writeLoop]
  intro fuel
  induction fuel with
  | zero =>
    intro rem byte bit val bus hf hb hW hv hm
    obtain rfl : rem = 0 := by omega
    refine ⟨bus.mem, hm, fun _ h _ => h, fun _ _ => rfl, fun q => by rw [if_neg (by omega)], fun _ => ?_,
      fun h => absurd h (by omega)⟩
    simp [stop, loopChunks, writeRun]
  | succ fuel ih =>
    intro rem byte bit val bus hf hb hW hv hm
    by_cases hr : rem = 0
    · subst hr
      refine ⟨bus.mem, hm, fun _ h _ => h, fun _ _ => rfl, fun q => by rw [if_neg (by omega)], fun _ => ?_,
        fun h => absurd h (by omega)⟩
      simp [stop, loopChunks, writeRun]
    · have hr' : 0 < rem := by omega
      obtain ⟨h1, h2, h3⟩ := chunkSize_bounds hr' hb
      by_cases hx : byte ≥ blen
      · refine ⟨bus.mem, hm, fun _ h _ => h, fun _ _ => rfl, fun q => by rw [if_neg (by omega)],
          fun h => absurd h (by omega), fun _ _ => ?_⟩
        rw [writeLoop, if_neg hr, if_pos hx, show blen - byte = 0 by omega]
        simp [writeRun]
      · have hpos := advance_position byte bit (chunkSize rem bit)
        have hbyte : byte ≤ (advance byte bit (chunkSize rem bit)).1 := by
          rw [advance_fst]; omega
        have hnext : 0 < rem - chunkSize rem bit →
            advance byte bit (chunkSize rem bit) = (byte + 1, 0) := advance_chunk hb
        have hbits := fun q => streamBit_writeByte (order := order) (W := W) (base := base) (byte := byte)
          (bit := bit) (val := val) hm hr' hb hW q
        have hchunks := loopChunks_step (byte := byte) hr' hb
        generalize hnx : advance byte bit (chunkSize rem bit) = nx at *
        generalize hc : chunkSize rem bit = c at *
        generalize hv' : writeByte order W (Memory.get bus.mem (base + byte)) bit c rem val = v at *
        obtain ⟨m', hwf, hwithin, hframe, hstream, hok, herr⟩ :=
          ih (rem - c) nx.1 nx.2 (writeVal order W c val)
            ((bus.read who (base + byte)).2.write who (base + byte) v)
            (by omega) (by rw [← hnx]; exact advance_snd_lt _ _ _) (by omega) (writeVal_lt hv c)
            (Memory.wf_set hm _ _)
        have unfoldLoop : writeLoop who order base blen W (fuel + 1) rem byte bit val bus =
            writeLoop who order base blen W fuel (rem - c) nx.1 nx.2 (writeVal order W c val)
              ((bus.read who (base + byte)).2.write who (base + byte) v) := by
          rw [writeLoop, if_neg hr, if_neg hx, ← hnx, ← hv', ← hc]; rfl
        simp only [Bus.write_mem, Bus.read_mem, Bus.write_log, Bus.read_log] at hwithin hframe hstream hok herr
        -- the first chunk's byte is not touched again
        have hfirst : 0 < rem - c → Memory.get m' (base + byte) = v := by
          intro hl
          rw [hframe _ (by rw [hnext hl]; show ¬ (base + (byte + 1) ≤ _ ∧ _); omega), Memory.get_set hm, if_pos rfl]
        have hrest : ∀ n, writeRun who (Memory.set bus.mem (base + byte) v) m' (base + (byte + 1)) n =
            writeRun who bus.mem m' (base + (byte + 1)) n := fun n =>
          writeRun_congr fun k _ => by rw [Memory.get_set hm, if_neg (by omega)]
        refine ⟨m', hwf, fun top ht hb' => hwithin top (Memory.within_set ht (by omega) v) hb', ?_, ?_, ?_, ?_⟩
        · intro a ha
          by_cases hin : base + nx.1 ≤ a ∧ a < base + blen
          · omega
          · rw [hframe a hin, Memory.get_set hm, if_neg (by omega)]
        · intro q
          rw [hstream, hbits]
          by_cases hq1 : 8 * byte + bit ≤ q ∧ q < 8 * byte + bit + c
          · rw [if_neg (by omega), if_pos hq1, if_pos (by omega)]
          · rw [if_neg hq1]
            by_cases hq2 : 8 * byte + bit ≤ q ∧ q < 8 * byte + bit + rem ∧ q < 8 * blen
            · rw [if_pos (by omega), if_pos hq2, hpos, writtenBit_chunk hv h2 (by omega) hq2.2.1]
            · rw [if_neg (by omega), if_neg hq2]
        · intro hfit
          rw [unfoldLoop, hok (by omega), hchunks, ← writeRun_succ_low]
          by_cases hl : 0 < rem - c
          · rw [hnext hl, hrest, hfirst hl]
            simp [Nat.add_assoc]
          · have : rem - c = 0 := by omega
            have hlast : Memory.get m' (base + byte) = v := by
              have := hok (by omega)
              rw [show rem - c = 0 by omega, stop] at this
              have hmem := congrArg (fun r => r.2.mem) this
              simp only [Bus.write_mem, Bus.read_mem] at hmem
              rw [← hmem, Memory.get_set hm, if_pos rfl]
            rw [this, hlast]
            simp [loopChunks, writeRun]
        · intro _ hover
          have hl : 0 < rem - c := by omega
          rw [unfoldLoop, herr hl (by omega), hnext hl]
          obtain ⟨k, hk⟩ : ∃ k, blen - byte = k + 1 := ⟨blen - byte - 1, by omega⟩
          rw [hk, ← writeRun_succ_low, show blen - (byte + 1) = k by omega, hrest, hfirst hl]
          simp [Nat.add_assoc]

/-- The bits a write path puts in the stream are the field's bits of DIN. -/
theorem fieldWritten_of_stream {order : BitOrder} {m m' : Memory} {base P len W top : Nat} {din : Data}
    (hl : len ≤ W) (hlow : ∀ a < base, Memory.get m' a = Memory.get m a)
    (hs : ∀ q, streamBit order m' base q =
      if P ≤ q ∧ q < P + len ∧ q < top then writtenBit order (din.toNat % 2 ^ W) P len q
      else streamBit order m base q) :
    FieldWritten order m m' base P len top din := by
  refine ⟨hlow, fun j hj ht => ?_, fun q hq => by rw [hs, if_neg hq]⟩
  have hin : P ≤ fieldPosition order P len j ∧ fieldPosition order P len j < P + len := by
    cases order <;> simp only [fieldPosition] <;> omega
  rw [hs, if_pos ⟨hin.1, hin.2, ht⟩]
  cases order with
  | lsb0 =>
    simp only [fieldPosition, writtenBit, Nat.testBit_mod_two_pow]
    rw [show P + j - P = j by omega]
    simp [show j < W by omega, BitVec.testBit_toNat]
  | msb0 =>
    simp only [fieldPosition, writtenBit, Nat.testBit_mod_two_pow]
    rw [show len - 1 - (P + (len - 1 - j) - P) = j by omega]
    simp [show j < W by omega, BitVec.testBit_toNat]

/-- A write path that passes its entry checks, over a canonical memory: the field is written as far as it lies in the
buffer, and the path succeeds when all of it does (41_bit_order.md R85 to R89). -/
theorem writePath_spec (who : Agent) (order : BitOrder) (base blen byte0 bit0 len W : Nat) (din : Data) (bus : Bus)
    (hl : 1 ≤ len ∧ len ≤ W) (hb : bit0 < 8) (hm : Memory.wf bus.mem = true) :
    ∃ m', Memory.wf m' = true ∧
      (∀ top, Memory.within top bus.mem = true → base + blen ≤ top → Memory.within top m' = true) ∧
      (∀ a, ¬ (base + byte0 ≤ a ∧ a < base + blen) → Memory.get m' a = Memory.get bus.mem a) ∧
      FieldWritten order bus.mem m' base (8 * byte0 + bit0) len (8 * blen) din ∧
      writePath who order base blen byte0 bit0 len W din bus =
        if 8 * byte0 + bit0 + len ≤ 8 * blen then
          (.ok (), { mem := m', log := writeRun who bus.mem m' (base + byte0) (chunkCount bit0 len) ++ bus.log })
        else
          (.error .bufferExhausted,
            { mem := m', log := writeRun who bus.mem m' (base + byte0) (blen - byte0) ++ bus.log }) := by
  obtain ⟨m', hwf, hin, hframe, hs, hok, herr⟩ := writeLoop_spec who order base blen W len len byte0 bit0
    (din.toNat % 2 ^ W) bus (Nat.le_refl _) hb hl.2 (Nat.mod_lt _ (Nat.two_pow_pos W)) hm
  refine ⟨m', hwf, hin, hframe, fieldWritten_of_stream hl.2 (fun a ha => hframe a (by omega)) hs, ?_⟩
  rw [writePath, entryChecks_none hl]
  simp only
  split
  · rename_i hfit
    rw [hok (Or.inr hfit), loopChunks_pos (by omega)]
  · exact herr (by omega) (by omega)

/-! ### Bytes and the stream -/

theorem physicalBit_involutive (order : BitOrder) {i : Nat} (h : i < 8) :
    physicalBit order (physicalBit order i) = i ∧ physicalBit order i < 8 := by
  cases order
  · exact ⟨rfl, h⟩
  · exact ⟨show 7 - (7 - i) = i by omega, show 7 - i < 8 by omega⟩

/-- A byte whose eight stream bits are as before is as before. -/
theorem Memory.get_eq_of_streamBit {order : BitOrder} {m m' : Memory} {base a : Nat} (ha : base ≤ a)
    (h : ∀ k < 8, streamBit order m' base (8 * (a - base) + k) = streamBit order m base (8 * (a - base) + k)) :
    Memory.get m' a = Memory.get m a := by
  apply BitVec.eq_of_getLsbD_eq
  intro i hi
  obtain ⟨h1, h2⟩ := physicalBit_involutive order hi
  have := h _ h2
  simp only [streamBit] at this
  rwa [show (8 * (a - base) + physicalBit order i) / 8 = a - base by omega,
    show (8 * (a - base) + physicalBit order i) % 8 = physicalBit order i by omega, h1,
    show base + (a - base) = a by omega] at this

/-- A written field changes no byte outside the bytes it lies in. -/
theorem FieldWritten.frame {order : BitOrder} {m m' : Memory} {base byte0 bit0 len top : Nat} {din : Data}
    (h : FieldWritten order m m' base (8 * byte0 + bit0) len top din) {a : Nat}
    (ha : ¬ (base + byte0 ≤ a ∧ a < base + byte0 + (bit0 + len + 7) / 8)) :
    Memory.get m' a = Memory.get m a := by
  by_cases hb : base ≤ a
  · exact Memory.get_eq_of_streamBit hb fun k _ => h.2.2 _ (by omega)
  · exact h.1 _ (by omega)

end Sys2Proof.Machine
end

