-- ==== Sys2Proof/Laws/Accesses.lean ====
section
/-! SUPPORT. The accesses that the operations make, as an extension of the total order (20_memory.md R32, R36, R40, R44;
41_bit_order.md R86), for every memory. -/

namespace Sys2Proof.Machine

/-- From bus `b` to bus `b'` agent `who` makes `r` byte reads and `w` byte writes, all at addresses from `lo` to below
`hi`; the memory is what the writes leave, and each read returns the byte that stood there. -/
def Bus.Moves (who : Agent) (lo hi r w : Nat) (b b' : Bus) : Prop :=
  ∃ new, b'.log = new ++ b.log ∧ b'.mem = replayLog b.mem new ∧ logConsistent b.mem new = true ∧
    (∀ x ∈ new, x.agent = who ∧ lo ≤ x.addr ∧ x.addr < hi) ∧
    new.countP (fun y => y.kind = .read) = r ∧ new.countP (fun y => y.kind = .write) = w

theorem replayLog_append (m : Memory) (later earlier : List Access) :
    replayLog m (later ++ earlier) = replayLog (replayLog m earlier) later := by
  induction later with
  | nil => rfl
  | cons x later ih => simp [replayLog, ih]

theorem logConsistent_append (m : Memory) (later earlier : List Access) :
    logConsistent m (later ++ earlier) =
      (logConsistent (replayLog m earlier) later && logConsistent m earlier) := by
  induction later with
  | nil => simp [logConsistent]
  | cons x later ih => simp [logConsistent, ih, replayLog_append, Bool.and_assoc]

theorem Bus.Moves.refl (who : Agent) (lo hi : Nat) (b : Bus) : Bus.Moves who lo hi 0 0 b b :=
  ⟨[], rfl, rfl, rfl, by simp, rfl, rfl⟩

theorem Bus.Moves.trans {who : Agent} {lo hi r₁ w₁ r₂ w₂ : Nat} {b₁ b₂ b₃ : Bus}
    (h₁ : Bus.Moves who lo hi r₁ w₁ b₁ b₂) (h₂ : Bus.Moves who lo hi r₂ w₂ b₂ b₃) :
    Bus.Moves who lo hi (r₁ + r₂) (w₁ + w₂) b₁ b₃ := by
  obtain ⟨n₁, hl₁, hm₁, hc₁, ha₁, hr₁, hw₁⟩ := h₁
  obtain ⟨n₂, hl₂, hm₂, hc₂, ha₂, hr₂, hw₂⟩ := h₂
  refine ⟨n₂ ++ n₁, by rw [hl₂, hl₁, List.append_assoc], by rw [replayLog_append, ← hm₁, hm₂],
    by rw [logConsistent_append, ← hm₁, hc₁, hc₂]; rfl, ?_, ?_, ?_⟩
  · intro x hx
    rcases List.mem_append.mp hx with h | h
    · exact ha₂ x h
    · exact ha₁ x h
  · rw [List.countP_append, hr₁, hr₂, Nat.add_comm]
  · rw [List.countP_append, hw₁, hw₂, Nat.add_comm]

theorem Bus.Moves.widen {who : Agent} {lo hi lo' hi' r w : Nat} {b b' : Bus} (h : Bus.Moves who lo hi r w b b')
    (hl : lo' ≤ lo) (hh : hi ≤ hi') : Bus.Moves who lo' hi' r w b b' := by
  obtain ⟨new, h1, h2, h3, h4, h5⟩ := h
  exact ⟨new, h1, h2, h3, fun x hx => ⟨(h4 x hx).1, by have := (h4 x hx).2; omega⟩, h5⟩

theorem Bus.read_moves (b : Bus) (who : Agent) {lo hi a : Nat} (h : lo ≤ a ∧ a < hi) :
    Bus.Moves who lo hi 1 0 b (b.read who a).2 :=
  ⟨[{ agent := who, kind := .read, addr := a, value := Memory.get b.mem a }], rfl, rfl,
    by simp [logConsistent, replayLog], by simpa using h, rfl, rfl⟩

theorem Bus.write_moves (b : Bus) (who : Agent) {lo hi a : Nat} (v : Byte) (h : lo ≤ a ∧ a < hi) :
    Bus.Moves who lo hi 0 1 b (b.write who a v) :=
  ⟨[{ agent := who, kind := .write, addr := a, value := v }], rfl, rfl,
    by simp [logConsistent], by simpa using h, rfl, rfl⟩

/-- A memory that no write of a log names is as before. -/
theorem replayLog_of_reads {m : Memory} {log : List Access} (h : log.countP (fun y => y.kind = .write) = 0) :
    replayLog m log = m := by
  induction log with
  | nil => rfl
  | cons x log ih =>
    rw [List.countP_eq_zero] at h
    have hx : x.kind = .read := by
      have := h x (by simp)
      cases hk : x.kind <;> simp_all
    rw [replayLog, Access.replay, hx, ih]
    rw [List.countP_eq_zero]
    exact fun y hy => h y (by simp [hy])

/-- Accesses without a write leave memory as it was. -/
theorem Bus.Moves.mem_eq {who : Agent} {lo hi r : Nat} {b b' : Bus} (h : Bus.Moves who lo hi r 0 b b') :
    b'.mem = b.mem := by
  obtain ⟨new, _, hm, _, _, _, hw⟩ := h
  rw [hm, replayLog_of_reads hw]

/-- The number of chunks a loop runs from (byte, bit) with `rem` bits left (41_bit_order.md R86). -/
def chunksRun (blen rem byte bit : Nat) : Nat :=
  if rem = 0 ∨ 8 * byte + bit + rem ≤ 8 * blen then loopChunks bit rem else blen - byte

theorem chunksRun_step {blen rem byte bit : Nat} (hr : 0 < rem) (hb : bit < 8) (hx : byte < blen) :
    chunksRun blen rem byte bit =
      1 + chunksRun blen (rem - chunkSize rem bit) (advance byte bit (chunkSize rem bit)).1
        (advance byte bit (chunkSize rem bit)).2 := by
  obtain ⟨h1, h2, h3⟩ := chunkSize_bounds hr hb
  have hpos := advance_position byte bit (chunkSize rem bit)
  simp only [chunksRun]
  by_cases hfit : 8 * byte + bit + rem ≤ 8 * blen
  · rw [if_pos (Or.inr hfit), if_pos (by omega), loopChunks_step hr hb (byte := byte), Nat.add_comm]
  · have hl : 0 < rem - chunkSize rem bit := by omega
    rw [if_neg (by omega), if_neg (by omega), advance_chunk hb hl]
    omega

/-- The accesses of a read loop: `chunksRun` byte reads inside the buffer. -/
theorem readLoop_moves (who : Agent) (order : BitOrder) (base blen W : Nat) :
    ∀ (fuel rem byte bit acc done : Nat) (bus : Bus), rem ≤ fuel → bit < 8 →
    Bus.Moves who (base + byte) (base + blen) (chunksRun blen rem byte bit) 0 bus
      (readLoop who order base blen W fuel rem byte bit acc done bus).2 := by
  have none : ∀ byte bit bus, Bus.Moves who (base + byte) (base + blen) (chunksRun blen 0 byte bit) 0 bus bus :=
    fun byte bit bus => by simpa [chunksRun, loopChunks] using Bus.Moves.refl _ _ _ _
  intro fuel
  induction fuel with
  | zero =>
    intro rem byte bit acc done bus hf hb
    obtain rfl : rem = 0 := by omega
    exact none _ _ _
  | succ fuel ih =>
    intro rem byte bit acc done bus hf hb
    rw [readLoop]
    split
    · subst rem; exact none _ _ _
    · split
      · rw [chunksRun, if_neg (by omega), show blen - byte = 0 by omega]
        exact Bus.Moves.refl _ _ _ _
      · rename_i hr hx
        obtain ⟨h1, h2, h3⟩ := chunkSize_bounds (by omega : 0 < rem) hb
        rw [chunksRun_step (by omega) hb (by omega)]
        refine Bus.Moves.trans (w₂ := 0) (Bus.read_moves bus who (by omega))
          (Bus.Moves.widen (ih _ _ _ _ _ _ (by omega) (advance_snd_lt _ _ _)) ?_ (Nat.le_refl _))
        rw [advance_fst]; omega

/-- The accesses of a write loop: `chunksRun` byte reads and as many byte writes inside the buffer. -/
theorem writeLoop_moves (who : Agent) (order : BitOrder) (base blen W : Nat) :
    ∀ (fuel rem byte bit val : Nat) (bus : Bus), rem ≤ fuel → bit < 8 →
    Bus.Moves who (base + byte) (base + blen) (chunksRun blen rem byte bit) (chunksRun blen rem byte bit) bus
      (writeLoop who order base blen W fuel rem byte bit val bus).2 := by
  have none : ∀ byte bit bus, Bus.Moves who (base + byte) (base + blen) (chunksRun blen 0 byte bit)
      (chunksRun blen 0 byte bit) bus bus :=
    fun byte bit bus => by simpa [chunksRun, loopChunks] using Bus.Moves.refl _ _ _ _
  intro fuel
  induction fuel with
  | zero =>
    intro rem byte bit val bus hf hb
    obtain rfl : rem = 0 := by omega
    exact none _ _ _
  | succ fuel ih =>
    intro rem byte bit val bus hf hb
    rw [writeLoop]
    split
    · subst rem; exact none _ _ _
    · split
      · rw [chunksRun, if_neg (by omega), show blen - byte = 0 by omega]
        exact Bus.Moves.refl _ _ _ _
      · rename_i hr hx
        obtain ⟨h1, h2, h3⟩ := chunkSize_bounds (by omega : 0 < rem) hb
        rw [chunksRun_step (by omega) hb (by omega)]
        refine Bus.Moves.trans
          (Bus.Moves.trans (r₂ := 0) (w₁ := 0) (Bus.read_moves bus who (by omega))
            (Bus.write_moves _ who _ (by omega)))
          (Bus.Moves.widen (ih _ _ _ _ _ (by omega) (advance_snd_lt _ _ _)) ?_ (Nat.le_refl _))
        rw [advance_fst]; omega

/-- The number of chunks a path runs: none when an entry check fails (41_bit_order.md R77, R86). -/
def pathChunks (blen byte0 bit0 len W : Nat) : Nat :=
  if 1 ≤ len ∧ len ≤ W then chunksRun blen len byte0 bit0 else 0

theorem pathChunks_le {blen byte0 bit0 len W : Nat} (hb : bit0 < 8) (hW : W ≤ 128) :
    pathChunks blen byte0 bit0 len W ≤ 17 := by
  rw [pathChunks]
  split
  · rw [chunksRun, loopChunks, chunkCount]
    split
    · split <;> omega
    · omega
  · omega

theorem entryChecks_some {len W : Nat} {e : PathError} (h : entryChecks len W = some e) : ¬ (1 ≤ len ∧ len ≤ W) := by
  intro hl
  rw [entryChecks_none hl] at h
  cases h

theorem entryChecks_eq_none {len W : Nat} (h : entryChecks len W = none) : 1 ≤ len ∧ len ≤ W := by
  rw [entryChecks] at h
  split at h
  · cases h
  · split at h
    · cases h
    · omega

theorem readPath_moves (who : Agent) (order : BitOrder) (base blen byte0 bit0 len W : Nat) (bus : Bus)
    (hb : bit0 < 8) :
    Bus.Moves who (base + byte0) (base + blen) (pathChunks blen byte0 bit0 len W) 0 bus
      (readPath who order base blen byte0 bit0 len W bus).2 := by
  rw [readPath, pathChunks]
  cases h : entryChecks len W with
  | some e => rw [if_neg (entryChecks_some h)]; exact Bus.Moves.refl _ _ _ _
  | none =>
    rw [if_pos (entryChecks_eq_none h)]
    exact readLoop_moves who order base blen W len len byte0 bit0 0 0 bus (Nat.le_refl _) hb

theorem writePath_moves (who : Agent) (order : BitOrder) (base blen byte0 bit0 len W : Nat) (din : Data) (bus : Bus)
    (hb : bit0 < 8) :
    Bus.Moves who (base + byte0) (base + blen) (pathChunks blen byte0 bit0 len W)
      (pathChunks blen byte0 bit0 len W) bus (writePath who order base blen byte0 bit0 len W din bus).2 := by
  rw [writePath, pathChunks]
  cases h : entryChecks len W with
  | some e => rw [if_neg (entryChecks_some h)]; exact Bus.Moves.refl _ _ _ _
  | none =>
    rw [if_pos (entryChecks_eq_none h)]
    exact writeLoop_moves who order base blen W len len byte0 bit0 _ bus (Nat.le_refl _) hb

/-- What a path answers, for every memory: an entry check's error, success or BufferExhausted (41_bit_order.md R77, R87). -/
theorem readPath_answer (who : Agent) (order : BitOrder) (base blen byte0 bit0 len W : Nat) (bus : Bus)
    (hb : bit0 < 8) :
    (readPath who order base blen byte0 bit0 len W bus).1 =
      match entryChecks len W with
      | some e => .error e
      | none =>
        if 8 * byte0 + bit0 + len ≤ 8 * blen then
          .ok (fieldValue order bus.mem base (8 * byte0 + bit0) len)
        else .error .bufferExhausted := by
  cases h : entryChecks len W with
  | some e => rw [readPath, h]
  | none =>
    rw [readPath_spec who order base blen byte0 bit0 len W bus (entryChecks_eq_none h) hb]
    split <;> rfl

theorem writeLoop_answer (who : Agent) (order : BitOrder) (base blen W : Nat) :
    ∀ (fuel rem byte bit val : Nat) (bus : Bus), rem ≤ fuel → bit < 8 →
    (writeLoop who order base blen W fuel rem byte bit val bus).1 =
      if rem = 0 ∨ 8 * byte + bit + rem ≤ 8 * blen then .ok () else .error .bufferExhausted := by
  intro fuel
  induction fuel with
  | zero =>
    intro rem byte bit val bus hf hb
    rw [if_pos (by omega)]; rfl
  | succ fuel ih =>
    intro rem byte bit val bus hf hb
    rw [writeLoop]
    split
    · rw [if_pos (Or.inl ‹_›)]
    · split
      · rw [if_neg (by omega)]
      · rename_i hr hx
        obtain ⟨h1, h2, h3⟩ := chunkSize_bounds (by omega : 0 < rem) hb
        have hpos := advance_position byte bit (chunkSize rem bit)
        rw [ih _ _ _ _ _ (by omega) (advance_snd_lt _ _ _)]
        by_cases hfit : 8 * byte + bit + rem ≤ 8 * blen
        · rw [if_pos (by omega), if_pos (Or.inr hfit)]
        · rw [if_neg (by omega), if_neg (by omega)]

theorem writePath_answer (who : Agent) (order : BitOrder) (base blen byte0 bit0 len W : Nat) (din : Data) (bus : Bus)
    (hb : bit0 < 8) :
    (writePath who order base blen byte0 bit0 len W din bus).1 =
      match entryChecks len W with
      | some e => .error e
      | none => if 8 * byte0 + bit0 + len ≤ 8 * blen then .ok () else .error .bufferExhausted := by
  rw [writePath]
  cases h : entryChecks len W with
  | some e => rfl
  | none =>
    have := entryChecks_eq_none h
    simp only
    rw [writeLoop_answer who order base blen W len len byte0 bit0 _ bus (Nat.le_refl _) hb]
    by_cases hfit : 8 * byte0 + bit0 + len ≤ 8 * blen
    · rw [if_pos (Or.inr hfit), if_pos hfit]
    · rw [if_neg (by omega), if_neg hfit]

end Sys2Proof.Machine
end

