-- ==== Sys2Proof/Laws/Commands.lean ====
section
/-! SUPPORT. What performing a command can do, said once: the shared way every command is performed, and, for every
instruction that answers a next state, its effect (60_exceptions.md R114). -/

namespace Sys2Proof.Machine

/-! ### `perform` -/

/-- A command to a ready unit is its own rule's effect, stored. -/
theorem perform_ready {s : State} {u : Bcu} (h : s.ready s.cur u)
    (rule : Bcu → Host.Outcome Effect Fault Refusal) {e : Effect} (he : rule u = .next e) :
    perform s rule = .next (s.commit s.cur e) := by
  obtain ⟨h1, h2, h3⟩ := h
  simp [perform, h1, h2, h3, he]

theorem perform_faulted {s : State} {u : Bcu} (h1 : s.units[s.cur]? = some u) (h2 : u.inFlight = none)
    (h3 : u.fault = true) (rule : Bcu → Host.Outcome Effect Fault Refusal) :
    perform s rule = .next (s.commit s.cur (fatalFaulted u s.bus)) := by
  simp [perform, h1, h2, h3]

theorem perform_busy {s : State} {u : Bcu} {t : Transfer} (h1 : s.units[s.cur]? = some u)
    (h2 : u.inFlight = some t) (rule : Bcu → Host.Outcome Effect Fault Refusal) :
    perform s rule = .refused .commandWhileBusy := by
  simp [perform, h1, h2]

/-- What `perform` answering a next state says. -/
theorem perform_next {s t : State} {rule : Bcu → Host.Outcome Effect Fault Refusal} (h : perform s rule = .next t) :
    ∃ u, s.units[s.cur]? = some u ∧ u.inFlight = none ∧
      (u.fault = true ∧ t = s.commit s.cur (fatalFaulted u s.bus) ∨
       u.fault = false ∧ ∃ e, rule u = .next e ∧ t = s.commit s.cur e) := by
  rw [perform] at h
  split at h
  · cases h
  · rename_i u hu
    refine ⟨u, hu, ?_⟩
    split at h
    · cases h
    · rename_i hf
      refine ⟨hf, ?_⟩
      split at h
      · rename_i hfault
        cases h
        exact Or.inl ⟨hfault, rfl⟩
      · rename_i hfault
        split at h
        · rename_i e he
          cases h
          exact Or.inr ⟨by simpa using hfault, e, he, rfl⟩
        · cases h
        · cases h

/-! ### The effect of an instruction -/

/-- The role whose context RD or WR needs, and the issuer of a data command. -/
def issuerOf : Instr → Issuer
  | .rdNew _       => .cursor
  | .wrNew _       => .cursor
  | .rd _ _        => .cursor
  | .wr _ _        => .cursor
  | .rdAt _ _ _ _  => .free
  | .wrAt _ _ _ _  => .free
  | .drop          => .cursor

/-- The read path of a field. -/
def Coordinates.readPath (x : Coordinates) (who : Agent) (b : Bus) : Except PathError Nat × Bus :=
  Machine.readPath who x.order x.base x.blen x.byte0 x.bit0.toNat x.len.toNat x.width.bits b

/-- The write path of a field. -/
def Coordinates.writePath (x : Coordinates) (who : Agent) (din : Data) (b : Bus) : Except PathError Unit × Bus :=
  Machine.writePath who x.order x.base x.blen x.byte0 x.bit0.toNat x.len.toNat x.width.bits din b

/-- The effects an instruction can have on unit `u` of state `s`. -/
inductive CommandEffect (s : State) (u : Bcu) : Instr → Effect → Prop where
  | faulted (i : Instr) (h : u.fault = true) : CommandEffect s u i (fatalFaulted u s.bus)
  | illegal (i : Instr) (h : u.fault = false) (hw : wrongContext u i = true) :
      CommandEffect s u i (illegalCommand u s.bus)
  | overflow (i : Instr) (h : u.fault = false) (hn : namesBuffer i = true)
      (ho : s.config.space < s.port.base + s.port.blen) : CommandEffect s u i (fatalDescriptor u s.bus)
  | bindReader (order : BitOrder) (h : u.fault = false) (ho : s.port.base + s.port.blen ≤ s.config.space) :
      CommandEffect s u (.rdNew order)
        { unit := { u with ctx := Context.bind .reader order s.port.base s.port.blen }, bus := s.bus
          response := bareResponse .ok }
  | bindWriter (order : BitOrder) (h : u.fault = false) (ho : s.port.base + s.port.blen ≤ s.config.space) :
      CommandEffect s u (.wrNew order)
        { unit := { u with ctx := Context.bind .writer order s.port.base s.port.blen }, bus := s.bus
          response := bareResponse .ok }
  | drop (h : u.fault = false) (hv : u.ctx.valid = true) :
      CommandEffect s u .drop
        { unit := { u with ctx := Context.reset }, bus := s.bus, response := bareResponse .ok }
  | read (i : Instr) (x : Coordinates) (h : u.fault = false) (hw : wrongContext u i = false)
      (hx : coordinatesOf u s.port i = some x) (hs : stores i = false) (hb : x.base + x.blen ≤ s.config.space) :
      CommandEffect s u i (endRead (issuerOf i) u (x.readPath (.unit s.cur) s.bus).2 x.len.toNat
        (x.readPath (.unit s.cur) s.bus).1)
  | write (i : Instr) (x : Coordinates) (h : u.fault = false) (hw : wrongContext u i = false)
      (hx : coordinatesOf u s.port i = some x) (hs : stores i = true) (hb : x.base + x.blen ≤ s.config.space) :
      CommandEffect s u i (endWrite (issuerOf i) u (x.writePath (.unit s.cur) s.port.din s.bus).2 x.len.toNat
        (x.writePath (.unit s.cur) s.port.din s.bus).1)

theorem descriptorFits_iff {c : Config} {base blen : Nat} :
    descriptorFits c base blen = true ↔ base + blen ≤ c.space := decide_eq_true_iff

theorem isBound_reader {c : Context} : c.isBound .reader = true ↔ c.valid = true ∧ c.role = .reader := by
  simp [Context.isBound]

theorem isBound_writer {c : Context} : c.isBound .writer = true ↔ c.valid = true ∧ c.role = .writer := by
  simp [Context.isBound]

theorem bindContext_fits {c : Config} {o : Operands} (h : o.base + o.blen ≤ c.space) (role : Role) (order : BitOrder)
    (b : Bus) (u : Bcu) :
    bindContext c role order o b u =
      { unit := { u with ctx := Context.bind role order o.base o.blen }, bus := b, response := bareResponse .ok } := by
  rw [bindContext, if_pos (descriptorFits_iff.mpr h)]; rfl

theorem bindContext_overflow {c : Config} {o : Operands} (h : c.space < o.base + o.blen) (role : Role)
    (order : BitOrder) (b : Bus) (u : Bcu) : bindContext c role order o b u = fatalDescriptor u b := by
  rw [bindContext, if_neg (by rw [descriptorFits_iff]; omega)]

/-- Every instruction that answers a next state has one of the effects of `CommandEffect`, on the unit it was sent to. -/
theorem exec_next {i : Instr} {s t : State} (h : exec i s = .next t) :
    ∃ u e, s.units[s.cur]? = some u ∧ u.inFlight = none ∧ CommandEffect s u i e ∧ t = s.commit s.cur e := by
  cases i with
  | rdNew order =>
    rw [exec, execRdNew] at h
    obtain ⟨u, hu, hf, ⟨hfault, rfl⟩ | ⟨hfault, e, he, rfl⟩⟩ := perform_next h
    · exact ⟨u, _, hu, hf, .faulted _ hfault, rfl⟩
    · cases he
      refine ⟨u, _, hu, hf, ?_, rfl⟩
      by_cases ho : s.port.base + s.port.blen ≤ s.config.space
      · rw [bindContext_fits ho]; exact .bindReader order hfault ho
      · rw [bindContext_overflow (by omega)]; exact .overflow _ hfault rfl (by omega)
  | wrNew order =>
    rw [exec, execWrNew] at h
    obtain ⟨u, hu, hf, ⟨hfault, rfl⟩ | ⟨hfault, e, he, rfl⟩⟩ := perform_next h
    · exact ⟨u, _, hu, hf, .faulted _ hfault, rfl⟩
    · cases he
      refine ⟨u, _, hu, hf, ?_, rfl⟩
      by_cases ho : s.port.base + s.port.blen ≤ s.config.space
      · rw [bindContext_fits ho]; exact .bindWriter order hfault ho
      · rw [bindContext_overflow (by omega)]; exact .overflow _ hfault rfl (by omega)
  | rd width len =>
    rw [exec, execRd] at h
    obtain ⟨u, hu, hf, ⟨hfault, rfl⟩ | ⟨hfault, e, he, rfl⟩⟩ := perform_next h
    · exact ⟨u, _, hu, hf, .faulted _ hfault, rfl⟩
    · refine ⟨u, e, hu, hf, ?_, rfl⟩
      split at he
      · rename_i hb
        obtain ⟨hv, hr⟩ := isBound_reader.mp hb
        split at he
        · rename_i hd
          cases he
          exact .read (.rd width len)
            { order := u.ctx.order, base := u.ctx.base, blen := u.ctx.blen, byte0 := u.ctx.byteIndex,
              bit0 := u.ctx.bitIndex, len := len, width := width }
            hfault (by simp [wrongContext, hv, hr]) rfl rfl (descriptorFits_iff.mp hd)
        · cases he
      · rename_i hb
        cases he
        refine .illegal _ hfault ?_
        rw [isBound_reader] at hb
        cases hr : u.ctx.role <;> simp_all [wrongContext]
  | wr width len =>
    rw [exec, execWr] at h
    obtain ⟨u, hu, hf, ⟨hfault, rfl⟩ | ⟨hfault, e, he, rfl⟩⟩ := perform_next h
    · exact ⟨u, _, hu, hf, .faulted _ hfault, rfl⟩
    · refine ⟨u, e, hu, hf, ?_, rfl⟩
      split at he
      · rename_i hb
        obtain ⟨hv, hr⟩ := isBound_writer.mp hb
        split at he
        · rename_i hd
          cases he
          exact .write (.wr width len)
            { order := u.ctx.order, base := u.ctx.base, blen := u.ctx.blen, byte0 := u.ctx.byteIndex,
              bit0 := u.ctx.bitIndex, len := len, width := width }
            hfault (by simp [wrongContext, hv, hr]) rfl rfl (descriptorFits_iff.mp hd)
        · cases he
      · rename_i hb
        cases he
        refine .illegal _ hfault ?_
        rw [isBound_writer] at hb
        cases hr : u.ctx.role <;> simp_all [wrongContext]
  | rdAt order width len bit =>
    rw [exec, execRdAt] at h
    obtain ⟨u, hu, hf, ⟨hfault, rfl⟩ | ⟨hfault, e, he, rfl⟩⟩ := perform_next h
    · exact ⟨u, _, hu, hf, .faulted _ hfault, rfl⟩
    · refine ⟨u, e, hu, hf, ?_, rfl⟩
      split at he
      · rename_i hd
        cases he
        exact .read (.rdAt order width len bit)
          { order := order, base := s.port.base, blen := s.port.blen, byte0 := s.port.byte, bit0 := bit, len := len,
            width := width }
          hfault rfl rfl rfl (descriptorFits_iff.mp hd)
      · rename_i hd
        cases he
        rw [descriptorFits_iff] at hd
        exact .overflow _ hfault rfl (by omega)
  | wrAt order width len bit =>
    rw [exec, execWrAt] at h
    obtain ⟨u, hu, hf, ⟨hfault, rfl⟩ | ⟨hfault, e, he, rfl⟩⟩ := perform_next h
    · exact ⟨u, _, hu, hf, .faulted _ hfault, rfl⟩
    · refine ⟨u, e, hu, hf, ?_, rfl⟩
      split at he
      · rename_i hd
        cases he
        exact .write (.wrAt order width len bit)
          { order := order, base := s.port.base, blen := s.port.blen, byte0 := s.port.byte, bit0 := bit, len := len,
            width := width }
          hfault rfl rfl rfl (descriptorFits_iff.mp hd)
      · rename_i hd
        cases he
        rw [descriptorFits_iff] at hd
        exact .overflow _ hfault rfl (by omega)
  | drop =>
    rw [exec, execDrop] at h
    obtain ⟨u, hu, hf, ⟨hfault, rfl⟩ | ⟨hfault, e, he, rfl⟩⟩ := perform_next h
    · exact ⟨u, _, hu, hf, .faulted _ hfault, rfl⟩
    · refine ⟨u, e, hu, hf, ?_, rfl⟩
      split at he
      · rename_i hv
        cases he
        exact .drop hfault hv
      · rename_i hv
        cases he
        exact .illegal _ hfault (by simpa [wrongContext] using hv)

/-! ### When an instruction answers, and with what -/

theorem exec_busy {s : State} {u : Bcu} {t : Transfer} (i : Instr) (h1 : s.units[s.cur]? = some u)
    (h2 : u.inFlight = some t) : exec i s = .refused .commandWhileBusy := by
  cases i <;>
    simp only [exec, execRdNew, execWrNew, execRd, execWr, execRdAt, execWrAt, execDrop, perform_busy h1 h2]

theorem exec_faulted {s : State} {u : Bcu} (i : Instr) (h1 : s.units[s.cur]? = some u) (h2 : u.inFlight = none)
    (h3 : u.fault = true) : exec i s = .next (s.commit s.cur (fatalFaulted u s.bus)) := by
  cases i <;>
    simp only [exec, execRdNew, execWrNew, execRd, execWr, execRdAt, execWrAt, execDrop, perform_faulted h1 h2 h3]

section DataCommands
variable {s : State} {u : Bcu} {width : Width} {len : BitVec 8} {order : BitOrder} {bit : BitVec 3}

theorem exec_rd_ready (hr : s.ready s.cur u) (hv : u.ctx.valid = true) (hx : u.ctx.role = .reader)
    (hd : u.ctx.base + u.ctx.blen ≤ s.config.space) :
    let r := readPath (.unit s.cur) u.ctx.order u.ctx.base u.ctx.blen u.ctx.byteIndex u.ctx.bitIndex.toNat len.toNat
      width.bits s.bus
    exec (.rd width len) s = .next (s.commit s.cur (endRead .cursor u r.2 len.toNat r.1)) := by
  rw [exec, execRd, perform_ready hr]
  rw [if_pos (isBound_reader.mpr ⟨hv, hx⟩), if_pos (descriptorFits_iff.mpr hd)]

theorem exec_wr_ready (hr : s.ready s.cur u) (hv : u.ctx.valid = true) (hx : u.ctx.role = .writer)
    (hd : u.ctx.base + u.ctx.blen ≤ s.config.space) :
    let r := writePath (.unit s.cur) u.ctx.order u.ctx.base u.ctx.blen u.ctx.byteIndex u.ctx.bitIndex.toNat len.toNat
      width.bits s.port.din s.bus
    exec (.wr width len) s = .next (s.commit s.cur (endWrite .cursor u r.2 len.toNat r.1)) := by
  rw [exec, execWr, perform_ready hr]
  rw [if_pos (isBound_writer.mpr ⟨hv, hx⟩), if_pos (descriptorFits_iff.mpr hd)]

theorem exec_rdAt_ready (hr : s.ready s.cur u) (hd : s.port.base + s.port.blen ≤ s.config.space) :
    let r := readPath (.unit s.cur) order s.port.base s.port.blen s.port.byte bit.toNat len.toNat width.bits s.bus
    exec (.rdAt order width len bit) s = .next (s.commit s.cur (endRead .free u r.2 len.toNat r.1)) := by
  rw [exec, execRdAt, perform_ready hr]
  rw [if_pos (descriptorFits_iff.mpr hd)]

theorem exec_wrAt_ready (hr : s.ready s.cur u) (hd : s.port.base + s.port.blen ≤ s.config.space) :
    let r := writePath (.unit s.cur) order s.port.base s.port.blen s.port.byte bit.toNat len.toNat width.bits
      s.port.din s.bus
    exec (.wrAt order width len bit) s = .next (s.commit s.cur (endWrite .free u r.2 len.toNat r.1)) := by
  rw [exec, execWrAt, perform_ready hr]
  rw [if_pos (descriptorFits_iff.mpr hd)]
end DataCommands

/-- Every instruction on a free unit whose context's descriptor is legal answers a next state. -/
theorem exec_completes (i : Instr) {s : State} {u : Bcu} (hu : s.units[s.cur]? = some u) (hf : u.inFlight = none)
    (hd : u.ctx.base + u.ctx.blen ≤ s.config.space) : ∃ t, exec i s = .next t := by
  by_cases hff : u.fault = true
  · exact ⟨_, exec_faulted i hu hf hff⟩
  have hr : s.ready s.cur u := ⟨hu, hf, by simpa using hff⟩
  cases i with
  | rdNew => rw [exec, execRdNew]; exact ⟨_, perform_ready hr _ rfl⟩
  | wrNew => rw [exec, execWrNew]; exact ⟨_, perform_ready hr _ rfl⟩
  | rd =>
    rw [exec, execRd]
    by_cases hb : u.ctx.isBound .reader
    · exact ⟨_, perform_ready hr _ (by rw [if_pos hb, if_pos (descriptorFits_iff.mpr hd)])⟩
    · exact ⟨_, perform_ready hr _ (by rw [if_neg hb])⟩
  | wr =>
    rw [exec, execWr]
    by_cases hb : u.ctx.isBound .writer
    · exact ⟨_, perform_ready hr _ (by rw [if_pos hb, if_pos (descriptorFits_iff.mpr hd)])⟩
    · exact ⟨_, perform_ready hr _ (by rw [if_neg hb])⟩
  | rdAt =>
    rw [exec, execRdAt]
    by_cases hb : descriptorFits s.config s.port.base s.port.blen
    · exact ⟨_, perform_ready hr _ (by rw [if_pos hb])⟩
    · exact ⟨_, perform_ready hr _ (by rw [if_neg hb])⟩
  | wrAt =>
    rw [exec, execWrAt]
    by_cases hb : descriptorFits s.config s.port.base s.port.blen
    · exact ⟨_, perform_ready hr _ (by rw [if_pos hb])⟩
    · exact ⟨_, perform_ready hr _ (by rw [if_neg hb])⟩
  | drop =>
    rw [exec, execDrop]
    by_cases hb : u.ctx.valid
    · exact ⟨_, perform_ready hr _ (by rw [if_pos hb])⟩
    · exact ⟨_, perform_ready hr _ (by rw [if_neg hb])⟩

/-! ### The ends of a command -/

theorem endRead_bus (issuer : Issuer) (u : Bcu) (b : Bus) (len : Nat) (r : Except PathError Nat) :
    (endRead issuer u b len r).bus = b := by
  cases r <;> cases issuer <;> rfl

theorem endWrite_bus (issuer : Issuer) (u : Bcu) (b : Bus) (len : Nat) (r : Except PathError Unit) :
    (endWrite issuer u b len r).bus = b := by
  cases r <;> cases issuer <;> rfl

theorem endRead_error (issuer : Issuer) (u : Bcu) (b : Bus) (len : Nat) (e : PathError) :
    endRead issuer u b len (.error e) =
      { unit := u, bus := b, response := withPosition issuer u.ctx (errorResponse e) } := by
  cases issuer <;> rfl

theorem endWrite_error (issuer : Issuer) (u : Bcu) (b : Bus) (len : Nat) (e : PathError) :
    endWrite issuer u b len (.error e) =
      { unit := u, bus := b, response := withPosition issuer u.ctx (errorResponse e) } := by
  cases issuer <;> rfl

/-- The unit after a read command: its cursor advanced if it is the cursor's and succeeded, otherwise unchanged. -/
theorem endRead_unit (issuer : Issuer) (u : Bcu) (b : Bus) (len : Nat) (r : Except PathError Nat) :
    (endRead issuer u b len r).unit = u ∨
    issuer = .cursor ∧ (∃ v, r = .ok v) ∧ (endRead issuer u b len r).unit = { u with ctx := u.ctx.advance len } := by
  cases r <;> cases issuer <;> simp [endRead]

theorem endWrite_unit (issuer : Issuer) (u : Bcu) (b : Bus) (len : Nat) (r : Except PathError Unit) :
    (endWrite issuer u b len r).unit = u ∨
    issuer = .cursor ∧ r = .ok () ∧ (endWrite issuer u b len r).unit = { u with ctx := u.ctx.advance len } := by
  cases r <;> cases issuer <;> simp [endWrite]

theorem Width.bits_le (w : Width) : w.bits ≤ 128 := by cases w <;> decide

/-- The accesses of an effect: those of its path, by the unit it was sent to, inside its buffer. -/
theorem CommandEffect.moves {s : State} {u : Bcu} {i : Instr} {e : Effect} (h : CommandEffect s u i e) :
    ∃ lo hi r w, Bus.Moves (.unit s.cur) lo hi r w s.bus e.bus ∧ r + w ≤ 34 ∧ (stores i = false → w = 0) ∧
      (r + w = 0 ∨ ∃ x, coordinatesOf u s.port i = some x ∧ lo = x.base + x.byte0 ∧ hi = x.base + x.blen) := by
  have none : ∃ lo hi r w, Bus.Moves (.unit s.cur) lo hi r w s.bus s.bus ∧ r + w ≤ 34 ∧ (stores i = false → w = 0) ∧
      (r + w = 0 ∨ ∃ x, coordinatesOf u s.port i = some x ∧ lo = x.base + x.byte0 ∧ hi = x.base + x.blen) :=
    ⟨0, 0, 0, 0, Bus.Moves.refl _ _ _ _, by decide, fun _ => rfl, Or.inl rfl⟩
  cases h with
  | faulted i h => exact none
  | illegal i h hw => exact none
  | overflow i h hn ho => exact none
  | bindReader order h ho => exact none
  | bindWriter order h ho => exact none
  | drop h hv => exact none
  | read i x h hw hx hs hb =>
    rw [endRead_bus]
    have hc := pathChunks_le (blen := x.blen) (byte0 := x.byte0) (len := x.len.toNat) x.bit0.isLt
      (Width.bits_le x.width)
    exact ⟨_, _, _, 0, readPath_moves _ _ _ _ _ _ _ _ _ x.bit0.isLt, by omega, fun _ => rfl,
      Or.inr ⟨x, hx, rfl, rfl⟩⟩
  | write i x h hw hx hs hb =>
    rw [endWrite_bus]
    have hc := pathChunks_le (blen := x.blen) (byte0 := x.byte0) (len := x.len.toNat) x.bit0.isLt
      (Width.bits_le x.width)
    exact ⟨_, _, _, _, writePath_moves _ _ _ _ _ _ _ _ _ _ x.bit0.isLt, by omega, by simp [hs],
      Or.inr ⟨x, hx, rfl, rfl⟩⟩

end Sys2Proof.Machine
end

