-- ==== Sys2Proof/Laws/Decode.lean ====
section
/-! SUPPORT. The fields of a packed word, and the two field tables read both ways (30_encoding.md R49 to R55). -/

namespace Sys2Proof

/-- The bits of a packed word. -/
theorem packWord_getLsbD (op : BitVec 4) (ord : BitVec 1) (tw : BitVec 3) (len : BitVec 8) (bit : BitVec 3) (i : Nat) :
    (packWord op ord tw len bit).getLsbD i =
      (op.getLsbD i || (decide (4 ≤ i) && ord.getLsbD (i - 4)) || (decide (5 ≤ i) && tw.getLsbD (i - 5)) ||
        (decide (8 ≤ i) && len.getLsbD (i - 8)) || (decide (16 ≤ i) && bit.getLsbD (i - 16))) := by
  simp only [packWord, BitVec.getLsbD_or, BitVec.getLsbD_shiftLeft, BitVec.getLsbD_setWidth]
  by_cases h : i < 32
  · have flip : ∀ k, (!decide (i < k)) = decide (k ≤ i) := by
      intro k
      by_cases hk : i < k <;> simp [hk]
      omega
    simp [flip, h, show i - 4 < 32 by omega, show i - 5 < 32 by omega, show i - 8 < 32 by omega,
      show i - 16 < 32 by omega, -not_lt, -decide_eq_false_iff_not]
  · simp [h, show 4 ≤ i by omega, show 5 ≤ i by omega, show 8 ≤ i by omega, show 16 ≤ i by omega,
      BitVec.getLsbD_of_ge _ _ (show 1 ≤ i - 4 by omega), BitVec.getLsbD_of_ge _ _ (show 3 ≤ i - 5 by omega),
      BitVec.getLsbD_of_ge _ _ (show 8 ≤ i - 8 by omega), BitVec.getLsbD_of_ge _ _ (show 3 ≤ i - 16 by omega)]

section Fields
variable (op : BitVec 4) (ord : BitVec 1) (tw : BitVec 3) (len : BitVec 8) (bit : BitVec 3)

theorem Word.op_packWord : Word.op (packWord op ord tw len bit) = op := by
  ext i hi
  simp only [Word.op, BitVec.getElem_extractLsb', packWord_getLsbD]
  interval_cases i <;> simp

theorem Word.ord_packWord : Word.ord (packWord op ord tw len bit) = ord := by
  ext i hi
  simp only [Word.ord, BitVec.getElem_extractLsb', packWord_getLsbD]
  interval_cases i
  simp

theorem Word.tw_packWord : Word.tw (packWord op ord tw len bit) = tw := by
  ext i hi
  simp only [Word.tw, BitVec.getElem_extractLsb', packWord_getLsbD]
  interval_cases i <;> simp

theorem Word.len_packWord : Word.len (packWord op ord tw len bit) = len := by
  ext i hi
  simp only [Word.len, BitVec.getElem_extractLsb', packWord_getLsbD]
  interval_cases i <;> simp

theorem Word.bit_packWord : Word.bit (packWord op ord tw len bit) = bit := by
  ext i hi
  simp only [Word.bit, BitVec.getElem_extractLsb', packWord_getLsbD]
  interval_cases i <;> simp

theorem Word.rsv_packWord : Word.rsv (packWord op ord tw len bit) = 0 := by
  ext i hi
  simp only [Word.rsv, BitVec.getElem_extractLsb', packWord_getLsbD]
  interval_cases i <;> simp
end Fields

/-- A word with RSV = 0 is packed from its fields. -/
theorem packWord_fields {w : Word} (h : Word.rsv w = 0) :
    packWord (Word.op w) (Word.ord w) (Word.tw w) (Word.len w) (Word.bit w) = w := by
  have hr : ∀ k, k < 13 → w.getLsbD (19 + k) = false := by
    intro k hk
    have := congrArg (fun v => v.getLsbD k) h
    simpa [Word.rsv, hk] using this
  apply BitVec.eq_of_getLsbD_eq
  intro i hi
  rw [packWord_getLsbD]
  simp only [Word.op, Word.ord, Word.tw, Word.len, Word.bit, BitVec.getLsbD_extractLsb']
  rcases Nat.lt_or_ge i 19 with h19 | h19
  · interval_cases i <;> simp
  · have := hr (i - 19) (by omega)
    rw [show 19 + (i - 19) = i by omega] at this
    simp [this, show ¬ i < 4 by omega, show ¬ i - 4 < 1 by omega, show ¬ i - 5 < 3 by omega,
      show ¬ i - 8 < 8 by omega, show ¬ i - 16 < 3 by omega]

theorem orderOfField_field (o : BitOrder) : orderOfField o.field = o := by cases o <;> rfl

theorem field_orderOfField (b : BitVec 1) : (orderOfField b).field = b := by revert b; decide

theorem widthOfField_field (w : Width) : widthOfField w.field = some w := by cases w <;> rfl

theorem field_of_widthOfField {b : BitVec 3} {w : Width} (h : widthOfField b = some w) : w.field = b := by
  revert h; revert b; cases w <;> decide

/-- TW names a width exactly when it is at most 4 (30_encoding.md R52). -/
theorem widthOfField_isSome (b : BitVec 3) : (widthOfField b).isSome = decide (b.toNat ≤ 4) := by
  revert b; decide

/-- W = 8 << TW (30_encoding.md R52). -/
theorem Width.bits_of_field (w : Width) : w.bits = 8 <<< w.field.toNat := by cases w <;> rfl

end Sys2Proof
end

