-- ==== Sys2Proof/Laws/Moves.lean ====
section
/-! SUPPORT. What one move can do, said once (20_memory.md R44; 70_reset_and_hazards.md R123, R124, R126, R131). -/

namespace Sys2Proof.Machine

/-! ### A command, whole or accepted -/

/-- What performing an illegal word that answers a next state says. -/
theorem performIllegal_next {s t : State} (h : performIllegal s = .next t) :
    ∃ u e, s.units[s.cur]? = some u ∧ u.inFlight = none ∧
      (u.fault = true ∧ e = fatalFaulted u s.bus ∨ u.fault = false ∧ e = illegalCommand u s.bus) ∧
      t = s.commit s.cur e := by
  obtain ⟨u, hu, hf, ⟨hfault, rfl⟩ | ⟨hfault, e, he, rfl⟩⟩ := perform_next h
  · exact ⟨u, _, hu, hf, Or.inl ⟨hfault, rfl⟩, rfl⟩
  · cases he; exact ⟨u, _, hu, hf, Or.inr ⟨hfault, rfl⟩, rfl⟩

/-- What a command sent whole to unit `n` can do. -/
theorem moveCommand_next {n : Nat} {c : Command} {s t : State} (h : moveCommand n c s = .next t) :
    c.operands.fit s.config.addrW = true ∧
      ((∃ i, decode c.word = .ok i ∧ exec i (s.present n c) = .next t) ∨
       (∃ e, decode c.word = .error e ∧ performIllegal (s.present n c) = .next t)) := by
  rw [moveCommand] at h
  split at h
  · rename_i hfit
    refine ⟨hfit, ?_⟩
    rw [runWord] at h
    split at h
    · exact Or.inl ⟨_, ‹_›, h⟩
    · exact Or.inr ⟨_, ‹_›, h⟩
  · cases h

/-- What accepting a command can do beyond performing it whole: start its chunk loop. -/
theorem moveAccept_next {n : Nat} {c : Command} {s t : State} (h : moveAccept n c s = .next t) :
    c.operands.fit s.config.addrW = true ∧
      ((∃ i, decode c.word = .ok i ∧ exec i (s.present n c) = .next t) ∨
       (∃ e, decode c.word = .error e ∧ performIllegal (s.present n c) = .next t) ∨
       (∃ i u tr, decode c.word = .ok i ∧ s.units[n]? = some u ∧ u.inFlight = none ∧
          transferOf s.config c.operands u i = some tr ∧
          t = { s.present n c with units := s.units.set n { u with inFlight := some tr } })) := by
  rw [moveAccept] at h
  split at h
  · rename_i hfit
    refine ⟨hfit, ?_⟩
    split at h
    · rename_i i hd
      rw [acceptInstr] at h
      split at h
      · cases h
      · rename_i u hu
        split at h
        · cases h
        · rename_i hf
          split at h
          · exact Or.inl ⟨i, hd, h⟩
          · rename_i tr htr
            cases h
            exact Or.inr (Or.inr ⟨i, u, tr, hd, hu, hf, htr, rfl⟩)
    · exact Or.inr (Or.inl ⟨_, ‹_›, h⟩)
  · cases h

/-- What a started chunk loop is: the checks before it passed, and it stands at the field's start. -/
theorem startTransfer_some {direction : Direction} {issuer : Issuer} {order : BitOrder} {base blen byte0 : Nat}
    {bit0 : BitVec 3} {len : BitVec 8} {width : Width} {din : Data} {tr : Transfer}
    (h : startTransfer direction issuer order base blen byte0 bit0 len width din = some tr) :
    (1 ≤ len.toNat ∧ len.toNat ≤ width.bits) ∧
      tr = { direction := direction, issuer := issuer, order := order, base := base, blen := blen, byte0 := byte0,
             bit0 := bit0, len := len, width := width, rem := len.toNat, byte := byte0, bit := bit0.toNat, acc := 0,
             done := 0, val := startVal direction width.bits din,
             held := none } := by
  unfold startTransfer at h
  split at h
  · cases h
  · exact ⟨entryChecks_eq_none ‹_›, (Option.some.inj h).symm⟩

/-- A started chunk loop is the loop of the instruction's field, on a unit with FAULT = 0 in the right context state. -/
theorem transferOf_some {c : Config} {o : Operands} {u : Bcu} {i : Instr} {tr : Transfer}
    (h : transferOf c o u i = some tr) :
    u.fault = false ∧ wrongContext u i = false ∧
      (namesBuffer i = true → o.base + o.blen ≤ c.space) ∧
      ∃ x, coordinatesOf u o i = some x ∧
        startTransfer (if stores i then .write else .read) (issuerOf i) x.order x.base x.blen x.byte0 x.bit0 x.len
          x.width (if stores i then o.din else 0) = some tr := by
  cases i with
  | rdNew order => cases h
  | wrNew order => cases h
  | drop => cases h
  | rd width len =>
    rw [transferOf] at h
    split at h
    · rename_i hc
      simp only [Bool.and_eq_true, Bool.not_eq_true', isBound_reader] at hc
      exact ⟨hc.1, by simp [wrongContext, hc.2.1, hc.2.2], by simp [namesBuffer], _, rfl, h⟩
    · cases h
  | wr width len =>
    rw [transferOf] at h
    split at h
    · rename_i hc
      simp only [Bool.and_eq_true, Bool.not_eq_true', isBound_writer] at hc
      exact ⟨hc.1, by simp [wrongContext, hc.2.1, hc.2.2], by simp [namesBuffer], _, rfl, h⟩
    · cases h
  | rdAt order width len bit =>
    rw [transferOf] at h
    split at h
    · rename_i hc
      simp only [Bool.and_eq_true, Bool.not_eq_true', descriptorFits_iff] at hc
      exact ⟨hc.1, rfl, fun _ => hc.2, _, rfl, h⟩
    · cases h
  | wrAt order width len bit =>
    rw [transferOf] at h
    split at h
    · rename_i hc
      simp only [Bool.and_eq_true, Bool.not_eq_true', descriptorFits_iff] at hc
      exact ⟨hc.1, rfl, fun _ => hc.2, _, rfl, h⟩
    · cases h

/-! ### A tick -/

/-- The effects of a tick of unit `n`, which is `u` and runs `tr`. -/
inductive TickEffect (s : State) (n : Nat) (u : Bcu) (tr : Transfer) : State → Prop where
  /-- the MemWrite of a write chunk -/
  | wrote (b : Byte) (hh : tr.held = some b) : TickEffect s n u tr
      (s.goOn n u tr.passWrite (s.bus.write (.unit n) (tr.base + tr.byte) (tr.written b)))
  /-- the MemRead of a read chunk -/
  | passed (hh : tr.held = none) (hr : 0 < tr.rem) (hb : tr.byte < tr.blen) (hd : tr.direction = .read) :
      TickEffect s n u tr
        (s.goOn n u (tr.passRead (Memory.get s.mem (tr.base + tr.byte)))
          (s.bus.read (.unit n) (tr.base + tr.byte)).2)
  /-- the MemRead of a write chunk -/
  | fetched (hh : tr.held = none) (hr : 0 < tr.rem) (hb : tr.byte < tr.blen) (hd : tr.direction = .write) :
      TickEffect s n u tr
        (s.goOn n u { tr with held := some (Memory.get s.mem (tr.base + tr.byte)) }
          (s.bus.read (.unit n) (tr.base + tr.byte)).2)
  /-- the response of a command that has moved all its bits -/
  | finished (hh : tr.held = none) (hr : tr.rem = 0) :
      TickEffect s n u tr (s.commit n (endTransfer u tr s.bus none))
  /-- the response of a command that has run off its buffer -/
  | exhausted (hh : tr.held = none) (hr : 0 < tr.rem) (hb : tr.blen ≤ tr.byte) :
      TickEffect s n u tr (s.commit n (endTransfer u tr s.bus (some .bufferExhausted)))

/-- What a tick that answers a next state says. -/
theorem moveTick_next {n : Nat} {s t : State} (h : moveTick n s = .next t) :
    ∃ u, s.units[n]? = some u ∧
      (u.inFlight = none ∧ t = s ∨
       ∃ tr, u.inFlight = some tr ∧ tr.base + tr.blen ≤ s.config.space ∧ TickEffect s n u tr t) := by
  rw [moveTick] at h
  split at h
  · cases h
  · rename_i u hu
    refine ⟨u, hu, ?_⟩
    split at h
    · cases h; exact Or.inl ⟨‹_›, rfl⟩
    · rename_i tr htr
      refine Or.inr ⟨tr, htr, ?_⟩
      split at h
      · rename_i hd
        refine ⟨descriptorFits_iff.mp hd, ?_⟩
        split at h
        · cases h; exact .wrote _ ‹_›
        · rename_i hh
          split at h
          · cases h; exact .finished hh ‹_›
          · split at h
            · cases h; exact .exhausted hh (by omega) (by omega)
            · simp only at h
              split at h
              · cases h; exact .passed hh (by omega) (by omega) ‹_›
              · cases h; exact .fetched hh (by omega) (by omega) ‹_›
      · cases h

/-- A tick of a unit whose running command has a legal descriptor answers a next state. -/
theorem moveTick_completes {n : Nat} {s : State} {u : Bcu} {tr : Transfer} (hu : s.units[n]? = some u)
    (hf : u.inFlight = some tr) (hd : tr.base + tr.blen ≤ s.config.space) :
    ∃ t, moveTick n s = .next t ∧ TickEffect s n u tr t := by
  have hd' : descriptorFits s.config tr.base tr.blen = true := descriptorFits_iff.mpr hd
  have key : ∃ t, moveTick n s = .next t := by
    rw [moveTick]
    simp only [hu, hf, hd', if_true]
    split
    · exact ⟨_, rfl⟩
    · split
      · exact ⟨_, rfl⟩
      · split
        · exact ⟨_, rfl⟩
        · split <;> exact ⟨_, rfl⟩
  obtain ⟨t, ht⟩ := key
  obtain ⟨u', hu', ⟨hn, _⟩ | ⟨tr', hf', _, he⟩⟩ := moveTick_next ht
  · rw [hu] at hu'; cases hu'; rw [hf] at hn; cases hn
  · rw [hu] at hu'; cases hu'; rw [hf] at hf'; cases hf'
    exact ⟨t, ht, he⟩

theorem endTransfer_bus (u : Bcu) (tr : Transfer) (b : Bus) (e : Option PathError) :
    (endTransfer u tr b e).bus = b := by
  unfold endTransfer
  split <;> simp only [endRead_bus, endWrite_bus]

/-- The unit after the response: free, with its cursor advanced if the command is the cursor's and succeeded. -/
theorem endTransfer_unit (u : Bcu) (tr : Transfer) (b : Bus) (e : Option PathError) :
    (endTransfer u tr b e).unit = { u with inFlight := none } ∨
    tr.issuer = .cursor ∧ e = none ∧
      (endTransfer u tr b e).unit = { u with inFlight := none, ctx := u.ctx.advance tr.len.toNat } := by
  unfold endTransfer
  cases hd : tr.direction <;> cases e <;> cases hi : tr.issuer <;> simp [endRead, endWrite]

/-! ### Reset -/

/-- The free bytes of an interrupted write: writes of `count` addresses from `a` on. -/
theorem scramble_moves (who : Agent) :
    ∀ (count a k : Nat) (b : Bus), Bus.Moves who a (a + count) 0 count b (scramble who count a k b) := by
  intro count
  induction count with
  | zero => intro a k b; exact Bus.Moves.refl _ _ _ _
  | succ count ih =>
    intro a k b
    rw [scramble, show count + 1 = 1 + count by omega]
    exact Bus.Moves.trans (r₁ := 0) (r₂ := 0) (Bus.write_moves b who _ (by omega))
      (Bus.Moves.widen (ih _ _ _) (by omega) (by omega))

/-- Free bytes keep the canonical form, stay inside the address space, and leave other addresses alone. -/
theorem scramble_mem (who : Agent) :
    ∀ (count a k : Nat) (b : Bus), Memory.wf b.mem = true →
      Memory.wf (scramble who count a k b).mem = true ∧
      (∀ top, Memory.within top b.mem = true → a + count ≤ top →
        Memory.within top (scramble who count a k b).mem = true) ∧
      (∀ x, ¬ (a ≤ x ∧ x < a + count) → Memory.get (scramble who count a k b).mem x = Memory.get b.mem x) := by
  intro count
  induction count with
  | zero => intro a k b h; exact ⟨h, fun _ h _ => h, fun _ _ => rfl⟩
  | succ count ih =>
    intro a k b h
    rw [scramble]
    obtain ⟨h1, h2, h3⟩ := ih (a + 1) (k + 1) (b.write who a (Config.freeByte k)) (Memory.wf_set h _ _)
    refine ⟨h1, fun top ht hc => h2 top (Memory.within_set ht (by omega) _) (by omega), fun x hx => ?_⟩
    rw [h3 x (by omega), Bus.write_mem, Memory.get_set h, if_neg (by omega)]

/-- What a reset that answers a next state says. -/
theorem moveReset_next {n : Nat} {s t : State} (h : moveReset n s = .next t) :
    ∃ u, s.units[n]? = some u ∧
      (u.inFlight = none ∧ t = { s with units := s.units.set n Bcu.reset } ∨
       ∃ tr, u.inFlight = some tr ∧ tr.base + tr.blen ≤ s.config.space ∧
         t = { s with
           units := s.units.set n Bcu.reset
           bus := scramble (.unit n) tr.brokenBytes (tr.base + tr.byte0) s.freeNext s.bus
           freeNext := s.freeNext + tr.brokenBytes }) := by
  rw [moveReset] at h
  split at h
  · cases h
  · rename_i u hu
    refine ⟨u, hu, ?_⟩
    split at h
    · cases h; exact Or.inl ⟨‹_›, rfl⟩
    · rename_i tr htr
      split at h
      · rename_i hd
        cases h
        exact Or.inr ⟨tr, htr, descriptorFits_iff.mp hd, rfl⟩
      · cases h

/-! ### What a move does to the units, said once -/

/-- The effects of a move on the registers of the unit `u`, number `n`, that makes it (10_state.md R16 to R22). -/
inductive UnitEffect (config : Config) (i : Input) (n : Nat) (u : Bcu) : Bcu → Prop where
  | kept (u' : Bcu) (hc : u'.ctx = u.ctx) (hf : u'.fault = u.fault) : UnitEffect config i n u u'
  | overflowed (u' : Bcu) (instr : Instr) (hi : i.sends n = some instr) (hn : namesBuffer instr = true)
      (ho : config.space < i.brings.base + i.brings.blen) (hc : u'.ctx = u.ctx) (hf : u'.fault = true) :
      UnitEffect config i n u u'
  | bound (u' : Bcu) (role : Role) (order : BitOrder)
      (hi : i.sends n = some (.rdNew order) ∨ i.sends n = some (.wrNew order))
      (hc : u'.ctx = Context.bind role order i.brings.base i.brings.blen) (hf : u'.fault = u.fault) :
      UnitEffect config i n u u'
  | dropped (u' : Bcu) (hi : i.sends n = some .drop) (hc : u'.ctx = Context.reset) (hf : u'.fault = u.fault) :
      UnitEffect config i n u u'
  | advanced (u' : Bcu) (k : Nat) (hc : u'.ctx = u.ctx.advance k) (hf : u'.fault = u.fault) :
      UnitEffect config i n u u'
  | reset (hi : i = .reset n) : UnitEffect config i n u Bcu.reset

theorem CommandEffect.unitEffect {s : State} {u : Bcu} {instr : Instr} {e : Effect} (h : CommandEffect s u instr e)
    {i : Input} {n : Nat} (hi : i.sends n = some instr) (hb : i.brings = s.port) :
    UnitEffect s.config i n u e.unit := by
  cases h with
  | faulted i h => exact .kept _ rfl rfl
  | illegal i h hw => exact .kept _ rfl rfl
  | overflow i h hn ho => exact .overflowed _ _ hi hn (by rw [hb]; exact ho) rfl rfl
  | bindReader order h ho => exact .bound _ .reader order (.inl hi) (by rw [hb]) rfl
  | bindWriter order h ho => exact .bound _ .writer order (.inr hi) (by rw [hb]) rfl
  | drop h hv => exact .dropped _ hi rfl rfl
  | read j x h hw hx hs hb =>
    rcases endRead_unit (issuerOf instr) u (x.readPath (.unit s.cur) s.bus).2 x.len.toNat
      (x.readPath (.unit s.cur) s.bus).1 with h | ⟨-, -, h⟩ <;> rw [h]
    · exact .kept _ rfl rfl
    · exact .advanced _ _ rfl rfl
  | write j x h hw hx hs hb =>
    rcases endWrite_unit (issuerOf instr) u (x.writePath (.unit s.cur) s.port.din s.bus).2 x.len.toNat
      (x.writePath (.unit s.cur) s.port.din s.bus).1 with h | ⟨-, -, h⟩ <;> rw [h]
    · exact .kept _ rfl rfl
    · exact .advanced _ _ rfl rfl

/-- A move changes no unit, or the one unit that makes it. -/
theorem move_units {s t : State} {i : Input} (h : move i s = .next t) :
    t.units = s.units ∨
    ∃ k v w, i.agent = .unit k ∧ s.units[k]? = some v ∧ t.units = s.units.set k w ∧ UnitEffect s.config i k v w := by
  have whole : ∀ (k : Nat) (c : Command), i.agent = .unit k → i.brings = c.operands →
      (∀ instr, decode c.word = .ok instr → i.sends k = some instr) →
      ((∃ j, decode c.word = .ok j ∧ exec j (s.present k c) = .next t) ∨
       (∃ e, decode c.word = .error e ∧ performIllegal (s.present k c) = .next t)) →
      ∃ k v w, i.agent = .unit k ∧ s.units[k]? = some v ∧ t.units = s.units.set k w ∧
        UnitEffect s.config i k v w := by
    intro k c ha hb hsend hx
    rcases hx with ⟨j, hd, he⟩ | ⟨e, hd, he⟩
    · obtain ⟨v, e, hv, -, hce, rfl⟩ := exec_next he
      exact ⟨k, v, e.unit, ha, hv, rfl, hce.unitEffect (hsend _ hd) hb⟩
    · obtain ⟨v, e, hv, -, hce, rfl⟩ := performIllegal_next he
      refine ⟨k, v, e.unit, ha, hv, rfl, ?_⟩
      rcases hce with ⟨_, rfl⟩ | ⟨_, rfl⟩ <;> exact .kept _ rfl rfl
  cases i with
  | command k c => exact .inr (whole k c rfl rfl (fun instr hd => by simp [Input.sends, hd]) (moveCommand_next h).2)
  | accept k c =>
    rcases (moveAccept_next h).2 with hx | hx | ⟨j, v, tr, hd, hv, hvf, htr, rfl⟩
    · exact .inr (whole k c rfl rfl (fun instr hd => by simp [Input.sends, hd]) (.inl hx))
    · exact .inr (whole k c rfl rfl (fun instr hd => by simp [Input.sends, hd]) (.inr hx))
    · exact .inr ⟨k, v, _, rfl, hv, rfl, .kept _ rfl rfl⟩
  | tick k =>
    obtain ⟨v, hv, ⟨hvf, rfl⟩ | ⟨tr, hvf, hd, he⟩⟩ := moveTick_next h
    · exact .inl rfl
    · refine .inr ⟨k, v, ?_⟩
      have ended : ∀ x : Option PathError,
          UnitEffect s.config (.tick k) k v (endTransfer v tr s.bus x).unit := by
        intro x
        rcases endTransfer_unit v tr s.bus x with hh | ⟨-, -, hh⟩
        · exact .kept _ (by rw [hh]) (by rw [hh])
        · exact .advanced _ _ (by rw [hh]) (by rw [hh])
      cases he with
      | wrote b hh => exact ⟨_, rfl, hv, rfl, .kept _ rfl rfl⟩
      | passed hh hr hb hd => exact ⟨_, rfl, hv, rfl, .kept _ rfl rfl⟩
      | fetched hh hr hb hd => exact ⟨_, rfl, hv, rfl, .kept _ rfl rfl⟩
      | finished hh hr => exact ⟨_, rfl, hv, rfl, ended _⟩
      | exhausted hh hr hb => exact ⟨_, rfl, hv, rfl, ended _⟩
  | hostRead a =>
    rw [move, moveHostRead] at h
    split at h <;> cases h
    exact .inl rfl
  | hostWrite a v =>
    rw [move, moveHostWrite] at h
    split at h <;> cases h
    exact .inl rfl
  | reset k =>
    obtain ⟨v, hv, ⟨hvf, rfl⟩ | ⟨tr, hvf, hd, rfl⟩⟩ := moveReset_next h <;>
      exact .inr ⟨k, v, _, rfl, hv, rfl, .reset rfl⟩

/-- The same seen from one unit. -/
theorem move_unit {s t : State} {i : Input} {n : Nat} {u u' : Bcu} (h : move i s = .next t)
    (hu : s.units[n]? = some u) (hu' : t.units[n]? = some u') :
    u' = u ∨ i.agent = .unit n ∧ UnitEffect s.config i n u u' := by
  rcases move_units h with he | ⟨k, v, w, ha, hv, he, hw⟩ <;> rw [he] at hu'
  · rw [hu] at hu'; cases hu'; exact .inl rfl
  · by_cases hk : k = n
    · subst hk
      rw [hu] at hv; cases hv
      rw [List.getElem?_set_self', hu] at hu'; cases hu'
      exact .inr ⟨ha, hw⟩
    · rw [List.getElem?_set_ne hk, hu] at hu'; cases hu'
      exact .inl rfl

/-! ### The step -/

theorem step_nil {s : State} (h : s.inputs = []) : step s = .next s := by rw [step, h]

theorem step_cons {s : State} {i : Input} {rest : List Input} (h : s.inputs = i :: rest) :
    step s = move i { s with inputs := rest } := by rw [step, h]

end Sys2Proof.Machine
end

