-- ==== Sys2Proof/Laws/PerInstr.lean ====
section
/-! SUPPORT. Statements made per instruction, one lemma per constructor: the word of an instruction selects the row of
its mnemonic in the opcode map, by match, mask and TW ≤ 4 (30_encoding.md R59). -/

namespace Sys2Proof.Laws.SelectsOwnRow

/-- The word of `i` selects the row of `i`'s mnemonic (30_encoding.md R59). -/
def Statement (i : Instr) : Prop := i.mnemonic.selectedBy (encode i) = true

/-- A row is selected when the masked bits are the row's and TW names a width where the row uses it. -/
theorem selectedBy_of_bits {m : Mnemonic} {w : Word}
    (hbits : ∀ i < 32, (w.getLsbD i && m.mask.getLsbD i) = m.pattern.getLsbD i)
    (htw : m.usesWidth = true → (Word.tw w).toNat ≤ 4) : m.selectedBy w = true := by
  have hw : w &&& m.mask = m.pattern := by
    apply BitVec.eq_of_getLsbD_eq
    intro i hi
    rw [BitVec.getLsbD_and]
    exact hbits i hi
  rw [Mnemonic.selectedBy, hw]
  cases hu : m.usesWidth <;> simp_all

theorem rdNew (order : BitOrder) : Statement (.rdNew order) := by cases order <;> rfl

theorem wrNew (order : BitOrder) : Statement (.wrNew order) := by cases order <;> rfl

theorem rd (width : Width) (len : BitVec 8) : Statement (.rd width len) := by
  refine selectedBy_of_bits (fun i hi => ?_) fun _ => ?_
  · simp only [encode, packWord_getLsbD, Instr.mnemonic, Mnemonic.mask, Mnemonic.pattern]
    interval_cases i <;> simp
  · rw [encode, Word.tw_packWord]; cases width <;> decide

theorem wr (width : Width) (len : BitVec 8) : Statement (.wr width len) := by
  refine selectedBy_of_bits (fun i hi => ?_) fun _ => ?_
  · simp only [encode, packWord_getLsbD, Instr.mnemonic, Mnemonic.mask, Mnemonic.pattern]
    interval_cases i <;> simp
  · rw [encode, Word.tw_packWord]; cases width <;> decide

theorem rdAt (order : BitOrder) (width : Width) (len : BitVec 8) (bit : BitVec 3) :
    Statement (.rdAt order width len bit) := by
  refine selectedBy_of_bits (fun i hi => ?_) fun _ => ?_
  · simp only [encode, packWord_getLsbD, Instr.mnemonic, Mnemonic.mask, Mnemonic.pattern]
    interval_cases i <;> simp
  · rw [encode, Word.tw_packWord]; cases width <;> decide

theorem wrAt (order : BitOrder) (width : Width) (len : BitVec 8) (bit : BitVec 3) :
    Statement (.wrAt order width len bit) := by
  refine selectedBy_of_bits (fun i hi => ?_) fun _ => ?_
  · simp only [encode, packWord_getLsbD, Instr.mnemonic, Mnemonic.mask, Mnemonic.pattern]
    interval_cases i <;> simp
  · rw [encode, Word.tw_packWord]; cases width <;> decide

theorem drop : Statement .drop := rfl

end Sys2Proof.Laws.SelectsOwnRow
end

