-- ==== Sys2Proof/Tests/Slice0.lean ====
section
/-! SUPPORT. The model's own tests: words written out from the field tables, ill-formed syntax refused, single steps of
95_test_vectors.md, and for every obligation with hypotheses a state and operands that meet them. -/

namespace Sys2Proof.Tests

open Sys2Proof Sys2Proof.Machine

/-! ### Decoding words written out from the fields of 30_encoding.md R49: RSV BIT LEN TW ORD OP -/

theorem test_decode_rdNew : decode 0b0000000000000_000_00000000_000_1_0001 = .ok (.rdNew .msb0) := by decide
theorem test_decode_wrNew : decode 0b0000000000000_000_00000000_000_0_0010 = .ok (.wrNew .lsb0) := by decide
theorem test_decode_rd : decode 0b0000000000000_000_00100001_010_0_0011 = .ok (.rd .w32 33) := by decide
theorem test_decode_wr : decode 0b0000000000000_000_10000000_100_0_0100 = .ok (.wr .w128 128) := by decide
theorem test_decode_rdAt : decode 0b0000000000000_011_00001100_001_0_0101 = .ok (.rdAt .lsb0 .w16 12 3) := by decide
theorem test_decode_wrAt : decode 0b0000000000000_111_11111111_011_1_0110 = .ok (.wrAt .msb0 .w64 255 7) := by decide
theorem test_decode_drop : decode 0b0000000000000_000_00000000_000_0_0111 = .ok .drop := by decide

theorem test_illegal_opcodes :
    decode 0x00000000 = .error (.reservedOpcode 0) ∧ decode 0x00000008 = .error .reservedForSeek ∧
    decode 0x00000009 = .error (.reservedOpcode 9) ∧ decode 0x0000000F = .error (.reservedOpcode 15) := by decide
theorem test_illegal_fields :
    decode 0x80000003 = .error .reservedBits ∧ decode 0x00080005 = .error .reservedBits ∧
    decode 0x000000A3 = .error (.noSuchWidth 5) ∧ decode 0x000000E6 = .error (.noSuchWidth 7) ∧
    decode 0x00000013 = .error .ordMustBeZero ∧ decode 0x00000017 = .error .ordMustBeZero ∧
    decode 0x00000021 = .error .twMustBeZero ∧ decode 0x00000101 = .error .lenMustBeZero ∧
    decode 0x00010004 = .error .bitMustBeZero := by decide

theorem test_tableWord :
    decodeTableWord 32 0x00030C36 = some (.wrAt .msb0 .w16 12 3) ∧ decodeTableWord 32 0x00000008 = none := by decide

/-- The texts of 30_encoding.md R66 and 42_cursor.md. -/
theorem test_text :
    (AsmLine.rd .w32 33).text = "rd.u32 33" ∧ (AsmLine.wr .w8 5 5).text = "wr.u8 5, 5" ∧
    (AsmLine.rdAt .w16 .lsb0 0 4 1 3 12).text = "rd.at.u16 lsb0, 0, 4, 1, 3, 12" ∧
    AsmLine.drop.text = "drop" := by decide

/-! ### Ill-formed syntax, one term for each check of WellFormed.lean -/

theorem test_base_too_wide : Operands.fit 16 { base := 0x10000, blen := 0, byte := 0, din := 0 } = false := by decide
theorem test_blen_too_wide : Operands.fit 16 { base := 0, blen := 0x10000, byte := 0, din := 0 } = false := by decide
theorem test_byte_too_wide : Operands.fit 16 { base := 0, blen := 0, byte := 0x10000, din := 0 } = false := by decide
theorem test_operands_fit :
    Operands.fit 16 { base := 0xFFFF, blen := 0xFFFF, byte := 0xFFFF, din := 0 } = true := by decide
theorem test_len_256 : AsmLine.wf 16 (.rd .w128 256) = false ∧ AsmLine.wf 16 (.wr .w128 256 0) = false := by decide
theorem test_bit_8 : AsmLine.wf 16 (.rdAt .w8 .lsb0 0 1 0 8 1) = false := by decide
theorem test_din_too_wide :
    AsmLine.wf 16 (.wr .w128 128 (2 ^ 128)) = false ∧
    AsmLine.wf 16 (.wrAt .w8 .lsb0 0 1 0 0 1 (2 ^ 128)) = false := by decide
theorem test_address_too_wide :
    AsmLine.wf 16 (.rdNew .lsb0 0x10000 0) = false ∧ AsmLine.wf 16 (.wrNew .lsb0 0 0x10000) = false ∧
    AsmLine.wf 16 (.rdAt .w8 .lsb0 0 1 0x10000 0 1) = false := by decide
theorem test_ill_formed_line_has_no_command : (AsmLine.rd .w128 256).assemble 16 = none := by decide

/-! ### The primitives: V-P1, V-P4, V-P7, V-P10, V-P15 -/

theorem test_primitives :
    getBitSlice 8 0xCD 2 5 = 3 ∧ setBitSlice 8 0x05 3 6 3 = 0x1D ∧ setBitSlice 8 0x00 6 8 0xFF = 0xC0 ∧
    satShiftLeft 128 1 127 = 2 ^ 127 ∧ satShiftRight 16 5 200 = 0 := by decide

/-! ### Single steps -/

/-- One unit in a given context, over a memory, with operand values on its port. -/
def machine (ctx : Context) (o : Operands) (m : Memory) : State :=
  { State.reset with
    units := [{ ctx := ctx, fault := false, inFlight := none }]
    bus := { mem := m, log := [] }
    port := o }

/-- A bound context. -/
def bound (role : Role) (order : BitOrder) (base blen byte : Nat) (bit : BitVec 3) : Context :=
  { valid := true, role := role, order := order, base := base, blen := blen, byteIndex := byte, bitIndex := bit }

/-- Operand values of RD.AT and WR.AT. -/
def operands (base blen byte : Nat) (din : Data) : Operands := { base := base, blen := blen, byte := byte, din := din }

/-- What a test looks at: STATUS, DOUT, POS_BYTE and POS_BIT of the first response, and the memory. -/
structure Answer where
  status  : Status
  dout    : Nat
  posByte : Nat
  posBit  : Nat
  mem     : Memory
deriving DecidableEq, Repr

/-- The answer of a step, if it ends in a next state with a response. -/
def answer : Host.Outcome State Fault Refusal → Option Answer
  | .next t => t.responses.head?.map fun r => ⟨r.2.status, r.2.dout.toNat, r.2.posByte, r.2.posBit.toNat, t.mem⟩
  | .fault _ => none
  | .refused _ => none

/-- The registers of unit 0. -/
def unit0 : Host.Outcome State Fault Refusal → Option Bcu
  | .next t => t.units[0]?
  | .fault _ => none
  | .refused _ => none

/-- V-L1a: `rd.new msb0, 0x100, 2` on a bound writer. -/
theorem test_rdNew_replaces_a_writer :
    unit0 (exec (.rdNew .msb0) (machine (bound .writer .lsb0 0 1 0 3) (operands 0x100 2 0 0) [])) =
      some { ctx := bound .reader .msb0 0x100 2 0 0, fault := false, inFlight := none } := by decide

/-- 60_exceptions.md R113: BASE + BLEN = 2^ADDR_W is legal, one more is FATAL. -/
theorem test_wrNew_at_the_top :
    unit0 (exec (.wrNew .lsb0) (machine Context.reset (operands 0xFFFF 1 0 0) [])) =
      some { ctx := bound .writer .lsb0 0xFFFF 1 0 0, fault := false, inFlight := none } ∧
    unit0 (exec (.wrNew .lsb0) (machine Context.reset (operands 0xFFFF 2 0 0) [])) =
      some { ctx := Context.reset, fault := true, inFlight := none } := by decide

/-- V-L1b: `rd.u8 4` of the Lsb0 buffer [1D 15] at (0,6). -/
theorem test_rd_lsb0 :
    answer (exec (.rd .w8 4) (machine (bound .reader .lsb0 0x100 2 0 6) Operands.zero [(0x100, 0x1D), (0x101, 0x15)])) =
      some ⟨.ok, 4, 1, 2, [(0x100, 0x1D), (0x101, 0x15)]⟩ := by decide

/-- V-L1a: `rd.u8 4` of the Msb0 buffer [CD 0A] at (0,6). -/
theorem test_rd_msb0 :
    answer (exec (.rd .w8 4) (machine (bound .reader .msb0 0x100 2 0 6) Operands.zero [(0x100, 0xCD), (0x101, 0x0A)])) =
      some ⟨.ok, 4, 1, 2, [(0x100, 0xCD), (0x101, 0x0A)]⟩ := by decide

/-- V-B24: an Lsb0 write of 0 over [FF FF] at (0,6) keeps the other bits. -/
theorem test_wr_lsb0 :
    answer (exec (.wr .w8 4)
      (machine (bound .writer .lsb0 0x100 2 0 6) (operands 0 0 0 0) [(0x100, 0xFF), (0x101, 0xFF)])) =
      some ⟨.ok, 0, 1, 2, [(0x100, 0x3F), (0x101, 0xFC)]⟩ := by decide

/-- V-B25: the same in Msb0. -/
theorem test_wr_msb0 :
    answer (exec (.wr .w8 4)
      (machine (bound .writer .msb0 0x100 2 0 6) (operands 0 0 0 0) [(0x100, 0xFF), (0x101, 0xFF)])) =
      some ⟨.ok, 0, 1, 2, [(0x100, 0xFC), (0x101, 0x3F)]⟩ := by decide

/-- V-F3: `rd.at.u16 lsb0, 0, 4, 1, 3, 12` over [00 F8 7F 00]. -/
theorem test_rdAt :
    answer (exec (.rdAt .lsb0 .w16 12 3)
      (machine Context.reset (operands 0 4 1 0) [(1, 0xF8), (2, 0x7F)])) =
      some ⟨.ok, 0x0FFF, 0, 0, [(1, 0xF8), (2, 0x7F)]⟩ := by decide

/-- V-B15: 9 bits from (1,0) of a 2-byte buffer run off its end after one byte. -/
theorem test_rdAt_exhausted :
    answer (exec (.rdAt .lsb0 .w16 9 0) (machine Context.reset (operands 0 2 1 0) [(0, 0x12), (1, 0x34)])) =
      some ⟨.bufferExhausted, 0, 0, 0, [(0, 0x12), (1, 0x34)]⟩ := by decide

/-- V-F4: `wr.at.u16 msb0, 0, 4, 1, 3, 12, 0xABC` over zeroed bytes gives [00 15 78 00]. -/
theorem test_wrAt_msb0 :
    answer (exec (.wrAt .msb0 .w16 12 3) (machine Context.reset (operands 0 4 1 0xABC) [])) =
      some ⟨.ok, 0, 0, 0, [(1, 0x15), (2, 0x78)]⟩ := by decide

/-- 41_bit_order.md R89: the chunks before the failing one stay written. -/
theorem test_wrAt_partial :
    answer (exec (.wrAt .lsb0 .w16 12 0) (machine Context.reset (operands 0 1 0 0xFFF) [])) =
      some ⟨.bufferExhausted, 0, 0, 0, [(0, 0xFF)]⟩ := by decide

/-- 42_cursor.md R97. -/
theorem test_drop :
    unit0 (exec .drop (machine (bound .reader .msb0 0x100 2 1 7) Operands.zero [])) =
      some { ctx := Context.reset, fault := false, inFlight := none } ∧
    answer (exec .drop (machine Context.reset Operands.zero [])) = some ⟨.illegalCommand, 0, 0, 0, []⟩ := by decide

/-- The first step after reset runs the table word's command. -/
theorem test_withFetchWord :
    answer (step (State.reset.withFetchWord 32 0x00002143)) = some ⟨.illegalCommand, 0, 0, 0, []⟩ ∧
    unit0 (step (State.reset.withFetchWord 32 0x00000011)) =
      some { ctx := bound .reader .msb0 0 0 0 0, fault := false, inFlight := none } := by decide

/-- The registers of 10_state.md R28. -/
theorem test_reset_registers :
    State.reset.units =
      [{ ctx := { valid := false, role := .reader, order := .lsb0, base := 0, blen := 0, byteIndex := 0, bitIndex := 0 }
         fault := false
         inFlight := none }] := by decide

/-! ### Witnesses: the hypotheses of each obligation, met together

`reader`, `writer` and `free` stand at the edge of their buffers: a field of 9 bits at (1,7) of 3 bytes ends exactly at
the end. -/

/-- A Msb0 reader whose next 9 bits end at the end of its buffer, which ends at the top of the address space. -/
def reader : State := machine (bound .reader .msb0 0xFFFD 3 1 7) (operands 0xFFFD 3 1 0x1FF) [(0xFFFE, 0x81)]

/-- The writer at the same place. -/
def writer : State := machine (bound .writer .lsb0 0xFFFD 3 1 7) (operands 0xFFFD 3 1 0x1FF) [(0xFFFE, 0x81)]

def readerUnit : Bcu := { ctx := bound .reader .msb0 0xFFFD 3 1 7, fault := false, inFlight := none }
def writerUnit : Bcu := { ctx := bound .writer .lsb0 0xFFFD 3 1 7, fault := false, inFlight := none }
def faultedUnit : Bcu := { ctx := Context.reset, fault := true, inFlight := none }

/-- A chunk loop of 9 bits at (1,7), before its first access. -/
def transfer (direction : Direction) : Transfer :=
  { direction := direction, issuer := .free, order := .lsb0, base := 0xFFFD, blen := 3, byte0 := 1, bit0 := 7, len := 9,
    width := .w16, rem := 9, byte := 1, bit := 7, acc := 0, done := 0, val := 0, held := none }

/-- The machine with two units, each running a command of its own, and moves to come. -/
def running (d d' : Direction) (inputs : List Input) : State :=
  { State.powerOn { addrW := 16, nUnits := 2 } [(0xFFFE, 0x81)] with
    units := [{ Bcu.reset with inFlight := some (transfer d) }, { Bcu.reset with inFlight := some (transfer d') }]
    inputs := inputs }

/-- A command word with operand values. -/
def send (w : Word) (o : Operands) : Input := .command 0 { word := w, operands := o }

theorem witness_EncodeInvertsDecode : decode 0x00030C25 = .ok (.rdAt .lsb0 .w16 12 3) := by decide

theorem witness_WordsSelectTheirDecodedRow :
    Mnemonic.rdAt.selectedBy 0x00078085 = true ∧ Mnemonic.drop.selectedBy 0x00000007 = true := by decide

theorem witness_IllegalWordsAreAnsweredAndChangeNothing :
    reader.ready 0 readerUnit ∧ (operands 0xFFFF 0xFFFF 0xFFFF 0).fit reader.config.addrW = true ∧
      decode 0x000000A5 = .error (.noSuchWidth 5) := by decide

theorem witness_AssembledLinesDecodeToThemselves :
    AsmLine.wf 16 (.rdNew .msb0 0xFFFF 0xFFFF) = true ∧ AsmLine.wf 16 (.wrNew .lsb0 0xFFFF 0xFFFF) = true ∧
      AsmLine.wf 16 (.rd .w128 255) = true ∧ AsmLine.wf 16 (.wr .w128 255 (2 ^ 128 - 1)) = true ∧
      AsmLine.wf 16 (.rdAt .w16 .lsb0 0xFFFF 0xFFFF 0xFFFF 7 255) = true ∧
      AsmLine.wf 16 (.wrAt .w16 .msb0 0xFFFF 0xFFFF 0xFFFF 7 255 (2 ^ 128 - 1)) = true ∧
      AsmLine.wf 16 (.rdAt .w16 .lsb0 0xFFFF 0xFFFF 0xFFFF 8 255) = false := by decide

theorem witness_StepRunsTheDecodedCommand :
    ({ reader with inputs := [send 0x00000903 Operands.zero] } : State).inputs = send 0x00000903 Operands.zero :: [] ∧
      Operands.zero.fit reader.config.addrW = true ∧ decode 0x00000903 = .ok (.rd .w8 9) := by decide

theorem witness_BusyUnitsTakeNoCommand :
    let c : Command := { word := 7, operands := Operands.zero }
    (running .read .write [.command 0 c]).inputs = .command 0 c :: [] ∧
      (running .read .write [.accept 0 c]).inputs = .accept 0 c :: [] ∧
      (running .read .write []).units[0]? = some { Bcu.reset with inFlight := some (transfer .read) } ∧
      c.operands.fit 16 = true := by decide

theorem witness_HostAccessesReadAndWriteOneByte :
    0xFFFF < reader.config.space ∧ Memory.wf reader.mem = true ∧
      ({ reader with inputs := [.hostRead 0xFFFF] } : State).inputs = .hostRead 0xFFFF :: [] ∧
      ({ reader with inputs := [.hostWrite 0xFFFF 1] } : State).inputs = .hostWrite 0xFFFF 1 :: [] := by decide

/-- The descriptor ends exactly at the top of the address space. -/
theorem witness_NewBindsAReaderOrWriterAtTheStart :
    reader.ready reader.cur readerUnit ∧ reader.port.base + reader.port.blen = reader.config.space := by decide

theorem witness_DropGivesTheContextItsResetValues :
    writer.ready writer.cur writerUnit ∧ writerUnit.ctx.valid = true := by decide

/-- Each of the three instructions in each of its wrong context states. -/
theorem witness_WrongContextStateIsIllegal :
    (machine Context.reset Operands.zero []).ready 0 Bcu.reset ∧ Bcu.reset.ctx.valid = false ∧
      writer.ready writer.cur writerUnit ∧ writerUnit.ctx.role = .writer ∧
      reader.ready reader.cur readerUnit ∧ readerUnit.ctx.role = .reader := by decide

/-- One byte past the top of the address space. -/
theorem witness_OverflowingDescriptorIsFatal :
    (machine Context.reset (operands 0xFFFF 2 0 0) []).ready 0 Bcu.reset ∧
      (machine Context.reset (operands 0xFFFF 2 0 0) []).config.space + 1 = 0xFFFF + 2 := by decide

theorem witness_FaultedUnitAnswersFatalToEveryWord :
    let c : Command := { word := 0, operands := Operands.zero }
    let s : State := { State.reset with units := [faultedUnit], inputs := [.command 0 c] }
    let s' : State := { State.reset with units := [faultedUnit], inputs := [.accept 0 c] }
    s.inputs = .command 0 c :: [] ∧ s'.inputs = .accept 0 c :: [] ∧ s.units[0]? = some faultedUnit ∧
      s'.units[0]? = some faultedUnit ∧ faultedUnit.inFlight = none ∧ faultedUnit.fault = true ∧
      c.operands.fit s.config.addrW = true := by decide

/-- FAULT cleared by reset, and set by an overflowing RD.AT. -/
theorem witness_FaultIsStickyUntilReset :
    unit0 (step { State.reset with units := [faultedUnit], inputs := [.reset 0] }) = some Bcu.reset ∧
      unit0 (step { State.reset with inputs := [send 0x00000105 (operands 0xFFFF 2 0 0)] }) = some faultedUnit := by
  decide

/-- A field of 9 bits from (1,7) ends exactly at the end of the buffer, whose descriptor ends at the top. -/
theorem witness_RdReadsTheFieldAndAdvances :
    reader.ready reader.cur readerUnit ∧ readerUnit.ctx.valid = true ∧ readerUnit.ctx.role = .reader ∧
      readerUnit.ctx.base + readerUnit.ctx.blen ≤ reader.config.space ∧ 1 ≤ (9 : BitVec 8).toNat ∧
      (9 : BitVec 8).toNat ≤ Width.w16.bits ∧
      8 * readerUnit.ctx.byteIndex + readerUnit.ctx.bitIndex.toNat + (9 : BitVec 8).toNat =
        8 * readerUnit.ctx.blen := by decide

theorem witness_WrWritesTheFieldAndAdvances :
    writer.ready writer.cur writerUnit ∧ Memory.wf writer.mem = true ∧ writerUnit.ctx.valid = true ∧
      writerUnit.ctx.role = .writer ∧ writerUnit.ctx.base + writerUnit.ctx.blen ≤ writer.config.space ∧
      1 ≤ (9 : BitVec 8).toNat ∧ (9 : BitVec 8).toNat ≤ Width.w16.bits ∧
      8 * writerUnit.ctx.byteIndex + writerUnit.ctx.bitIndex.toNat + (9 : BitVec 8).toNat =
        8 * writerUnit.ctx.blen := by decide

theorem witness_RdAtReadsTheField :
    reader.ready reader.cur readerUnit ∧ reader.port.base + reader.port.blen ≤ reader.config.space ∧
      1 ≤ (9 : BitVec 8).toNat ∧ (9 : BitVec 8).toNat ≤ Width.w16.bits ∧
      8 * reader.port.byte + (7 : BitVec 3).toNat + (9 : BitVec 8).toNat = 8 * reader.port.blen := by decide

theorem witness_WrAtWritesTheField :
    writer.ready writer.cur writerUnit ∧ Memory.wf writer.mem = true ∧
      writer.port.base + writer.port.blen ≤ writer.config.space ∧
      1 ≤ (9 : BitVec 8).toNat ∧ (9 : BitVec 8).toNat ≤ Width.w16.bits ∧
      8 * writer.port.byte + (7 : BitVec 3).toNat + (9 : BitVec 8).toNat = 8 * writer.port.blen := by decide

/-- LEN = 0, and LEN one above the width, on a reader, on a writer and on the operands' buffer. -/
theorem witness_ZeroLengthAndWidthErrorsChangeNothing :
    reader.ready reader.cur readerUnit ∧ readerUnit.ctx.valid = true ∧
      readerUnit.ctx.base + readerUnit.ctx.blen ≤ reader.config.space ∧ readerUnit.ctx.role = .reader ∧
      writer.ready writer.cur writerUnit ∧ writerUnit.ctx.valid = true ∧
      writerUnit.ctx.base + writerUnit.ctx.blen ≤ writer.config.space ∧ writerUnit.ctx.role = .writer ∧
      reader.port.base + reader.port.blen ≤ reader.config.space ∧
      Width.w128.bits + 1 = (129 : BitVec 8).toNat ∧ Width.w8.bits + 1 = (9 : BitVec 8).toNat := by decide

/-- One bit more than the buffer holds. -/
theorem witness_ExhaustedReadsKeepTheCursor :
    reader.ready reader.cur readerUnit ∧ 1 ≤ (10 : BitVec 8).toNat ∧ (10 : BitVec 8).toNat ≤ Width.w16.bits ∧
      readerUnit.ctx.valid = true ∧ readerUnit.ctx.role = .reader ∧
      readerUnit.ctx.base + readerUnit.ctx.blen ≤ reader.config.space ∧
      8 * readerUnit.ctx.blen + 1 =
        8 * readerUnit.ctx.byteIndex + readerUnit.ctx.bitIndex.toNat + (10 : BitVec 8).toNat ∧
      reader.port.base + reader.port.blen ≤ reader.config.space ∧
      8 * reader.port.blen + 1 = 8 * reader.port.byte + (7 : BitVec 3).toNat + (10 : BitVec 8).toNat := by decide

theorem witness_ExhaustedWritesKeepTheirFirstChunks :
    writer.ready writer.cur writerUnit ∧ Memory.wf writer.mem = true ∧ 1 ≤ (10 : BitVec 8).toNat ∧
      (10 : BitVec 8).toNat ≤ Width.w16.bits ∧ writerUnit.ctx.valid = true ∧ writerUnit.ctx.role = .writer ∧
      writerUnit.ctx.base + writerUnit.ctx.blen ≤ writer.config.space ∧
      8 * writerUnit.ctx.blen + 1 =
        8 * writerUnit.ctx.byteIndex + writerUnit.ctx.bitIndex.toNat + (10 : BitVec 8).toNat ∧
      writer.port.base + writer.port.blen ≤ writer.config.space ∧
      8 * writer.port.blen + 1 = 8 * writer.port.byte + (7 : BitVec 3).toNat + (10 : BitVec 8).toNat := by decide

/-- A WIDTH_EXCEEDED that would also exhaust the buffer. -/
theorem witness_FirstErrorByPriorityIsReported :
    answer (step { reader with inputs := [send 0x00002143 Operands.zero] }) =
      some ⟨.widthExceeded, 0, 1, 7, [(0xFFFE, 0x81)]⟩ := by decide

/-- An error that sets FAULT, one that does not, and one that changes memory. -/
theorem witness_ErrorsKeepContextAndMemory :
    answer (step { reader with inputs := [send 0x00000105 (operands 0xFFFF 2 0 0)] }) =
      some ⟨.fatal, 0, 0, 0, [(0xFFFE, 0x81)]⟩ ∧
    answer (step { reader with inputs := [send 0x00000003 Operands.zero] }) =
      some ⟨.zeroLength, 0, 1, 7, [(0xFFFE, 0x81)]⟩ ∧
    answer (step { writer with inputs := [send 0x00000A24 (operands 0 0 0 0x3FE)] }) =
      some ⟨.bufferExhausted, 0, 1, 7, [(0xFFFE, 0x01), (0xFFFF, 0xFF)]⟩ := by decide

theorem witness_CommandsChangeNothingElse :
    writer.units[writer.cur]? = some writerUnit ∧ Memory.wf writer.mem = true ∧
      (answer (exec (.wr .w16 9) writer)).isSome = true := by decide

theorem witness_ValidIsSetByNewAndClearedByDropOrReset :
    unit0 (step { State.reset with inputs := [send 0x00000001 Operands.zero] }) =
      some { ctx := bound .reader .lsb0 0 0 0 0, fault := false, inFlight := none } ∧
    unit0 (step { reader with inputs := [send 0x00000007 Operands.zero] }) = some Bcu.reset ∧
    unit0 (step { reader with inputs := [.reset 0] }) = some Bcu.reset := by decide

theorem witness_RoleOrderAndBufferAreFixedWhileBound :
    unit0 (step { reader with inputs := [send 0x00000103 Operands.zero] }) =
      some { readerUnit with ctx := bound .reader .msb0 0xFFFD 3 2 0 } ∧
    (∀ order, (send 0x00000103 Operands.zero).sends 0 ≠ some (.rdNew order)) ∧
    (∀ order, (send 0x00000103 Operands.zero).sends 0 ≠ some (.wrNew order)) := by
  refine ⟨by decide, fun order => ?_, fun order => ?_⟩ <;> cases order <;> decide

/-- An RD and a WR that answer OK, an RD that answers an error, an RD.NEW and a WR.NEW on an unbound unit. -/
theorem witness_PositionAdvancesByExactlyLen :
    unit0 (exec (.rd .w16 9) reader) = some { readerUnit with ctx := bound .reader .msb0 0xFFFD 3 3 0 } ∧
    unit0 (exec (.wr .w16 9) writer) = some { writerUnit with ctx := bound .writer .lsb0 0xFFFD 3 3 0 } ∧
    unit0 (exec (.rd .w16 10) reader) = some readerUnit ∧
    unit0 (exec (.rdNew .lsb0) State.reset) = some { readerUnit with ctx := bound .reader .lsb0 0 0 0 0 } ∧
    unit0 (step { State.reset with inputs := [send 0x00000012 Operands.zero] }) =
      some { writerUnit with ctx := bound .writer .msb0 0 0 0 0 } := by decide

theorem witness_FreeCommandsAreStateless :
    reader.units[reader.cur]? = some readerUnit ∧ (answer (exec (.rdAt .msb0 .w16 9 7) reader)).isSome = true ∧
      (answer (exec (.wrAt .msb0 .w16 9 7) reader)).isSome = true := by decide

theorem witness_UnitsShareNoRegister :
    (running .read .write [.tick 1]).inputs = .tick 1 :: [] ∧ (Input.tick 1).agent ≠ .unit 0 ∧
      unit0 (step (running .read .write [.tick 1])) =
        some { Bcu.reset with inFlight := some (transfer .read) } := by decide

theorem witness_ReadersNeverWrite :
    (answer (exec (.rd .w16 9) reader)).isSome = true ∧ (answer (exec (.rdAt .lsb0 .w16 9 7) reader)).isSome = true ∧
      (running .read .read []).units[0]? = some { Bcu.reset with inFlight := some (transfer .read) } ∧
      (transfer .read).wf (running .read .read []).config Context.reset ∧
      unit0 (moveTick 0 (running .read .read [])) ≠ none := by decide

/-- A command with accesses, a tick with one, and a transfer at the end of its buffer with bits left. -/
theorem witness_AccessesStayInTheBuffer :
    (match exec (.wr .w16 9) writer with | .next t => t.bus.log.length | _ => 0) = 4 ∧
      (match moveTick 0 (running .write .read []) with | .next t => t.bus.log.length | _ => 0) = 1 ∧
      (transfer .write).wf (running .write .read []).config Context.reset ∧
      (let tr := { transfer .read with len := 10, rem := 1, byte := 3, bit := 0, done := 9 }
       let u := { Bcu.reset with inFlight := some tr }
       ({ reader with units := [u] } : State).units[0]? = some u ∧ u.inFlight = some tr ∧
         tr.base + tr.blen ≤ reader.config.space ∧ tr.held = none ∧ 0 < tr.rem ∧ tr.blen ≤ tr.byte) := by decide

theorem witness_AccessCountsAreExact :
    coordinatesOf readerUnit reader.port (.rdNew .lsb0) = none ∧ (answer (exec (.rdNew .lsb0) reader)).isSome = true ∧
      (coordinatesOf writerUnit writer.port (.wr .w16 9)).isSome = true ∧
      (answer (exec (.wr .w16 9) writer)).isSome = true := by decide

theorem witness_invariant_reader : reader.Inv := by decide

theorem witness_invariant_running : (running .read .write []).Inv := by decide

theorem witness_EveryCommandFinishes :
    reader.Inv ∧ reader.units[reader.cur]? = some readerUnit ∧ readerUnit.inFlight = none := by decide

theorem witness_InvariantHoldsAtPowerOn :
    let c : Config := { addrW := 1, nUnits := 1 }
    1 ≤ c.addrW ∧ 1 ≤ c.nUnits ∧ Memory.wf [(1, 0xFF)] = true ∧ Memory.within c.space [(1, 0xFF)] = true := by decide

/-- A state of the invariant, in the middle of two commands, with a next state. -/
theorem witness_EveryStepKeepsTheInvariant :
    (running .read .write [.tick 0]).Inv ∧ unit0 (step (running .read .write [.tick 0])) ≠ none := by decide

theorem witness_AccessesAreSequentiallyConsistent :
    ∃ t, step (running .read .write [.tick 0]) = .next t ∧
      (running .read .write [.tick 0]).inputs = .tick 0 :: [] := ⟨_, rfl, rfl⟩

theorem witness_WholeCommandEqualsItsByteAccesses :
    writer.Inv ∧ writer.units[0]? = some writerUnit ∧ writerUnit.inFlight = none ∧
      (operands 0xFFFF 0xFFFF 0xFFFF 0).fit writer.config.addrW = true := ⟨by decide, by decide⟩

/-- The bytes just below the running command's buffer. -/
theorem witness_DisjointHostWriteCommutesWithAnAccess :
    (running .write .read []).Inv ∧
      (running .write .read []).units[0]? = some { Bcu.reset with inFlight := some (transfer .write) } ∧
      0xFFFC < (running .write .read []).config.space ∧
      ¬ ((transfer .write).base ≤ 0xFFFC ∧ 0xFFFC < (transfer .write).base + (transfer .write).blen) := ⟨by decide, by decide⟩

theorem witness_ReadersOfDifferentUnitsDoNotInterfere :
    (running .read .read []).Inv ∧ (0 : Nat) ≠ 1 ∧
      (running .read .read []).units[0]? = some { Bcu.reset with inFlight := some (transfer .read) } ∧
      (running .read .read []).units[1]? = some { Bcu.reset with inFlight := some (transfer .read) } ∧
      (transfer .read).direction = .read := ⟨by decide, by decide⟩

theorem witness_ATickMakesAtMostOneByteAccess :
    (match moveTick 0 (running .write .read []) with | .next t => t.bus.log.length | _ => 0) = 1 ∧
      (match moveTick 0 reader with | .next t => t.bus.log.length | _ => 7) = 0 := by decide

theorem witness_ResetBetweenCommandsSetsTheRegistersAlone :
    ({ reader with inputs := [.reset 0] } : State).inputs = .reset 0 :: [] ∧
      reader.units[0]? = some readerUnit ∧ readerUnit.inFlight = none := by decide

theorem witness_ResetDuringACommandBreaksItsRangeAtMost :
    (running .read .write [.reset 0]).Inv ∧ (running .read .write [.reset 0]).inputs = .reset 0 :: [] ∧
      (running .read .write [.reset 1]).inputs = .reset 1 :: [] ∧
      (running .read .write []).units[0]? = some { Bcu.reset with inFlight := some (transfer .read) } ∧
      (running .read .write []).units[1]? = some { Bcu.reset with inFlight := some (transfer .write) } ∧
      (transfer .read).direction = .read := ⟨by decide, by decide⟩

/-- 128 bits at bit 7 of a buffer that they fill to its last bit but none further. -/
theorem witness_ReadPathReadsBackWhatWritePathWrote :
    Memory.wf writer.mem = true ∧ 7 < 8 ∧ 1 ≤ 128 ∧ 128 ≤ Width.w128.bits ∧ 2 ^ 128 - 1 < 2 ^ 128 ∧
      8 * 0 + 7 + 129 = 8 * 17 := by decide

theorem witness_ReadValuesLieBelowTwoToTheLen :
    (∃ v bus', readPath .host .lsb0 0 1 0 7 1 Width.w8.bits reader.bus = (.ok v, bus')) ∧
      (answer (exec (.rd .w16 9) reader)).isSome = true ∧
      (answer (exec (.rdAt .lsb0 .w16 9 7) reader)).isSome = true := ⟨⟨_, _, rfl⟩, by decide, by decide⟩

/-- Two values of DIN that differ from bit 1 up. -/
theorem witness_WritePathIgnoresDinFromLenUp :
    (∀ j < 1, (1 : Data).getLsbD j = (0xFF : Data).getLsbD j) ∧ (1 : Data) ≠ 0xFF ∧ 1 ≤ Width.w8.bits ∧
      8 * 0 + 7 + 1 = 8 * 1 ∧ Memory.wf writer.mem = true := by
  refine ⟨fun j hj => ?_, by decide, by decide, by decide, by decide⟩
  obtain rfl : j = 0 := by omega
  decide

/-- Two bytes at the end of their buffer, the upper one. -/
theorem witness_ByteOrderFollowsTheBitOrder :
    Memory.wf writer.mem = true ∧ 1 ≤ 2 ∧ 8 * 2 ≤ Width.w16.bits ∧ 1 + 2 = 3 ∧ 1 < 2 := by decide

theorem witness_BitSlicesAreSetAndReadBack :
    0xFF < 2 ^ 8 ∧ 2 ≤ 5 ∧ 5 ≤ 8 ∧ (0 ≤ 2 ∧ 2 ≤ 8 ∧ 2 ≤ 2) ∧ (5 ≤ 8 ∧ 8 ≤ 8 ∧ 5 ≤ 5) ∧ 0x5A < 2 ^ 8 := by decide

theorem witness_ShiftsSaturateAtTheWidth : 8 ≤ 8 ∧ 7 < 8 := by decide

end Sys2Proof.Tests
end

section
/-! PROOFS. The registers and the invariant (10_state.md): what a command and a move do to one unit, and the invariant of
reachable states, kept clause by clause. -/

namespace Sys2Proof.Machine

/-! ### Which instruction it is -/

/-- The four commands that name a buffer by their operands (30_encoding.md R56). -/
theorem namesBuffer_cases {i : Instr} (h : namesBuffer i = true) :
    (∃ order, i = .rdNew order) ∨ (∃ order, i = .wrNew order) ∨
      (∃ order width len bit, i = .rdAt order width len bit) ∨
      (∃ order width len bit, i = .wrAt order width len bit) := by
  cases i with
  | rdNew order => exact .inl ⟨order, rfl⟩
  | wrNew order => exact .inr (.inl ⟨order, rfl⟩)
  | rdAt order width len bit => exact .inr (.inr (.inl ⟨order, width, len, bit, rfl⟩))
  | wrAt order width len bit => exact .inr (.inr (.inr ⟨order, width, len, bit, rfl⟩))
  | rd => cases h
  | wr => cases h
  | drop => cases h

/-- A cursor command with a field is RD or WR, and a unit that does not reject it is bound, with the field at the
context's cursor in the context's buffer. -/
theorem coordinatesOf_cursor {u : Bcu} {o : Operands} {i : Instr} {x : Coordinates} (hi : issuerOf i = .cursor)
    (hx : coordinatesOf u o i = some x) (hw : wrongContext u i = false) :
    (∃ width len, i = .rd width len ∨ i = .wr width len) ∧ u.ctx.valid = true ∧ x.order = u.ctx.order ∧
      x.base = u.ctx.base ∧ x.blen = u.ctx.blen ∧ x.byte0 = u.ctx.byteIndex ∧ x.bit0 = u.ctx.bitIndex := by
  cases i with
  | rd width len =>
    simp only [wrongContext, Bool.or_eq_false_iff, Bool.not_eq_false'] at hw
    cases hx
    exact ⟨⟨width, len, .inl rfl⟩, hw.1, rfl, rfl, rfl, rfl, rfl⟩
  | wr width len =>
    simp only [wrongContext, Bool.or_eq_false_iff, Bool.not_eq_false'] at hw
    cases hx
    exact ⟨⟨width, len, .inr rfl⟩, hw.1, rfl, rfl, rfl, rfl, rfl⟩
  | rdNew => cases hx
  | wrNew => cases hx
  | drop => cases hx
  | rdAt => cases hi
  | wrAt => cases hi

/-- The field of a command lies in a legal buffer: the context's, or the one the operands name. -/
theorem coordinatesOf_descriptor {c : Config} {u : Bcu} {o : Operands} {i : Instr} {x : Coordinates}
    (hx : coordinatesOf u o i = some x) (hn : namesBuffer i = true → o.base + o.blen ≤ c.space)
    (hu : u.ctx.base + u.ctx.blen ≤ c.space) : x.base + x.blen ≤ c.space := by
  cases i <;> cases hx
  case rd => exact hu
  case wr => exact hu
  case rdAt => exact hn rfl
  case wrAt => exact hn rfl

/-! ### The paths of a field -/

/-- A read path that answers a value had its field inside the buffer (41_bit_order.md R87). -/
theorem Coordinates.inside_of_readPath_ok {x : Coordinates} {who : Agent} {b : Bus} {v : Nat}
    (h : (x.readPath who b).1 = .ok v) : 8 * x.byte0 + x.bit0.toNat + x.len.toNat ≤ 8 * x.blen := by
  rw [Coordinates.readPath, readPath_answer _ _ _ _ _ _ _ _ _ x.bit0.isLt] at h
  split at h
  · cases h
  · split at h
    · assumption
    · cases h

/-- A write path that succeeds had its field inside the buffer (41_bit_order.md R87). -/
theorem Coordinates.inside_of_writePath_ok {x : Coordinates} {who : Agent} {din : Data} {b : Bus}
    (h : (x.writePath who din b).1 = .ok ()) : 8 * x.byte0 + x.bit0.toNat + x.len.toNat ≤ 8 * x.blen := by
  rw [Coordinates.writePath, writePath_answer _ _ _ _ _ _ _ _ _ _ x.bit0.isLt] at h
  split at h
  · cases h
  · split at h
    · assumption
    · cases h

/-- A read path leaves memory as it was (20_memory.md R38). -/
theorem Coordinates.readPath_mem (x : Coordinates) (who : Agent) (b : Bus) : (x.readPath who b).2.mem = b.mem :=
  (readPath_moves _ _ _ _ _ _ _ _ _ x.bit0.isLt).mem_eq

/-- A write path changes only bytes of its field that lie in its buffer (41_bit_order.md R85, R89). -/
theorem Coordinates.writePath_frame {x : Coordinates} {who : Agent} {din : Data} {b : Bus} {a : Nat}
    (hm : Memory.wf b.mem = true)
    (ha : ¬ (x.base + x.byte0 ≤ a ∧ a < x.base + x.byte0 + (x.bit0.toNat + x.len.toNat + 7) / 8 ∧
      a < x.base + x.blen)) :
    Memory.get (x.writePath who din b).2.mem a = Memory.get b.mem a := by
  by_cases hl : 1 ≤ x.len.toNat ∧ x.len.toNat ≤ x.width.bits
  · obtain ⟨m', -, -, hbuffer, hfield, hpath⟩ :=
      writePath_spec who x.order x.base x.blen x.byte0 x.bit0.toNat x.len.toNat x.width.bits din b hl x.bit0.isLt hm
    have hmem : (x.writePath who din b).2.mem = m' := by
      rw [Coordinates.writePath, hpath]
      split <;> rfl
    rw [hmem]
    by_cases hin : a < x.base + x.blen
    · exact hfield.frame (by omega)
    · exact hbuffer a (by omega)
  · have hnone := writePath_moves who x.order x.base x.blen x.byte0 x.bit0.toNat x.len.toNat x.width.bits din b
      x.bit0.isLt
    rw [pathChunks, if_neg hl] at hnone
    rw [Coordinates.writePath, hnone.mem_eq]

/-! ### What a command does to its unit -/

/-- What a command that answers a next state can leave of the unit `u` it was sent to, by instruction (10_state.md R16 to
R22; 42_cursor.md R93 to R97). Sharper than `UnitEffect`: a cursor advances by RD and WR alone, and inside its buffer. -/
inductive UnitAfter (s : State) (u : Bcu) : Instr → Bcu → Prop where
  | kept (i : Instr) : UnitAfter s u i u
  | overflowed (i : Instr) (hn : namesBuffer i = true) (ho : s.config.space < s.port.base + s.port.blen) :
      UnitAfter s u i { u with fault := true }
  | bound (i : Instr) (role : Role) (order : BitOrder) (hi : i = .rdNew order ∨ i = .wrNew order)
      (ho : s.port.base + s.port.blen ≤ s.config.space) :
      UnitAfter s u i { u with ctx := Context.bind role order s.port.base s.port.blen }
  | dropped : UnitAfter s u .drop { u with ctx := Context.reset }
  | advanced (i : Instr) (k : Nat) (hi : ∃ width len, i = .rd width len ∨ i = .wr width len)
      (hv : u.ctx.valid = true) (hp : u.ctx.position + k ≤ 8 * u.ctx.blen) :
      UnitAfter s u i { u with ctx := u.ctx.advance k }

/-- A cursor command whose field lay inside the buffer advances the cursor inside the buffer. -/
theorem UnitAfter.of_inside {s : State} {u : Bcu} {i : Instr} {x : Coordinates} (hi : issuerOf i = .cursor)
    (hx : coordinatesOf u s.port i = some x) (hw : wrongContext u i = false)
    (h : 8 * x.byte0 + x.bit0.toNat + x.len.toNat ≤ 8 * x.blen) :
    UnitAfter s u i { u with ctx := u.ctx.advance x.len.toNat } := by
  obtain ⟨hrw, hv, -, -, hblen, hbyte, hbit⟩ := coordinatesOf_cursor hi hx hw
  exact .advanced i _ hrw hv (by rw [← hblen, Context.position, streamPosition, ← hbyte, ← hbit]; exact h)

theorem CommandEffect.unitAfter {s : State} {u : Bcu} {i : Instr} {e : Effect} (h : CommandEffect s u i e) :
    UnitAfter s u i e.unit := by
  cases h with
  | faulted => exact .kept i
  | illegal => exact .kept i
  | overflow i h hn ho => exact .overflowed i hn ho
  | bindReader order h ho => exact .bound _ .reader order (.inl rfl) ho
  | bindWriter order h ho => exact .bound _ .writer order (.inr rfl) ho
  | drop => exact .dropped
  | read i x h hw hx hs hb =>
    rcases endRead_unit (issuerOf i) u (x.readPath (.unit s.cur) s.bus).2 x.len.toNat
      (x.readPath (.unit s.cur) s.bus).1 with he | ⟨hi, ⟨v, hok⟩, he⟩ <;> rw [he]
    · exact .kept i
    · exact .of_inside hi hx hw (Coordinates.inside_of_readPath_ok hok)
  | write i x h hw hx hs hb =>
    rcases endWrite_unit (issuerOf i) u (x.writePath (.unit s.cur) s.port.din s.bus).2 x.len.toNat
      (x.writePath (.unit s.cur) s.port.din s.bus).1 with he | ⟨hi, hok, he⟩ <;> rw [he]
    · exact .kept i
    · exact .of_inside hi hx hw (Coordinates.inside_of_writePath_ok hok)

section UnitAfter
variable {s : State} {u u' : Bcu} {i : Instr}

theorem UnitAfter.inFlight (h : UnitAfter s u i u') : u'.inFlight = u.inFlight := by
  cases h <;> rfl

/-- FAULT changes only by an overflowing descriptor (10_state.md R22). -/
theorem UnitAfter.fault (h : UnitAfter s u i u') (hf : u'.fault ≠ u.fault) :
    namesBuffer i = true ∧ s.config.space < s.port.base + s.port.blen := by
  cases h with
  | overflowed i hn ho => exact ⟨hn, ho⟩
  | kept => exact absurd rfl hf
  | bound => exact absurd rfl hf
  | dropped => exact absurd rfl hf
  | advanced => exact absurd rfl hf

/-- VALID, ROLE, ORDER, BASE and BLEN change only by RD.NEW, WR.NEW and DROP, and the cursor only by these, RD and WR
(42_cursor.md R95, R96; 43_free.md R105). -/
theorem UnitAfter.ctx (h : UnitAfter s u i u') (hr : ∀ order, i ≠ .rdNew order) (hw : ∀ order, i ≠ .wrNew order)
    (hd : i ≠ .drop) :
    u'.ctx.valid = u.ctx.valid ∧ u'.ctx.role = u.ctx.role ∧ u'.ctx.order = u.ctx.order ∧
      u'.ctx.base = u.ctx.base ∧ u'.ctx.blen = u.ctx.blen ∧
      ((∀ width len, i ≠ .rd width len) → (∀ width len, i ≠ .wr width len) →
        u'.ctx.byteIndex = u.ctx.byteIndex ∧ u'.ctx.bitIndex = u.ctx.bitIndex) := by
  cases h with
  | kept => exact ⟨rfl, rfl, rfl, rfl, rfl, fun _ _ => ⟨rfl, rfl⟩⟩
  | overflowed => exact ⟨rfl, rfl, rfl, rfl, rfl, fun _ _ => ⟨rfl, rfl⟩⟩
  | bound i role order hi => exact (hi.elim (hr order) (hw order)).elim
  | dropped => exact absurd rfl hd
  | advanced i k hi =>
    obtain ⟨width, len, hi⟩ := hi
    exact ⟨rfl, rfl, rfl, rfl, rfl, fun hrd hwr => (hi.elim (hrd width len) (hwr width len)).elim⟩
end UnitAfter

/-- A command's effect on memory: no byte outside the field it stores to, as far as that lies in its buffer
(41_bit_order.md R85). -/
theorem CommandEffect.mem_frame {s : State} {u : Bcu} {i : Instr} {e : Effect} (h : CommandEffect s u i e)
    (hm : Memory.wf s.mem = true) {a : Nat}
    (ha : ∀ x, stores i = true → coordinatesOf u s.port i = some x →
      ¬ (x.base + x.byte0 ≤ a ∧ a < x.base + x.byte0 + (x.bit0.toNat + x.len.toNat + 7) / 8 ∧ a < x.base + x.blen)) :
    Memory.get e.bus.mem a = Memory.get s.mem a := by
  cases h with
  | faulted => rfl
  | illegal => rfl
  | overflow => rfl
  | bindReader => rfl
  | bindWriter => rfl
  | drop => rfl
  | read i x h hw hx hs hb => rw [endRead_bus, Coordinates.readPath_mem]
  | write i x h hw hx hs hb => rw [endWrite_bus, Coordinates.writePath_frame hm (ha x hs hx)]

/-! ### What a step does to one unit -/

section Step
variable {s t : State} {i : Input} {rest : List Input} {n : Nat} {u u' : Bcu}

/-- Only reset clears FAULT, and only an overflowing descriptor sets it (10_state.md R22). -/
theorem UnitEffect.fault {c : Config} (h : UnitEffect c i n u u') :
    u'.fault = u.fault ∨ (i = .reset n ∧ u'.fault = false) ∨
      (u'.fault = true ∧ ∃ instr, i.sends n = some instr ∧ namesBuffer instr = true ∧
        c.space < i.brings.base + i.brings.blen) := by
  cases h with
  | kept _ hc hf => exact .inl hf
  | overflowed _ instr hi hn ho hc hf => exact .inr (.inr ⟨hf, instr, hi, hn, ho⟩)
  | bound _ role order hi hc hf => exact .inl hf
  | dropped _ hi hc hf => exact .inl hf
  | advanced _ k hc hf => exact .inl hf
  | reset hi => exact .inr (.inl ⟨hi, rfl⟩)

/-- RD.NEW and WR.NEW set VALID, DROP and reset clear it, and every other effect keeps VALID, ROLE, ORDER, BASE and BLEN
(10_state.md R16, R19 to R21). -/
theorem UnitEffect.binding {c : Config} (h : UnitEffect c i n u u') :
    (u'.ctx.valid = u.ctx.valid ∧ u'.ctx.role = u.ctx.role ∧ u'.ctx.order = u.ctx.order ∧
      u'.ctx.base = u.ctx.base ∧ u'.ctx.blen = u.ctx.blen) ∨
    (u'.ctx.valid = true ∧ ∃ order, i.sends n = some (.rdNew order) ∨ i.sends n = some (.wrNew order)) ∨
    (u'.ctx.valid = false ∧ (i.sends n = some .drop ∨ i = .reset n)) := by
  cases h with
  | kept _ hc hf => rw [hc]; exact .inl ⟨rfl, rfl, rfl, rfl, rfl⟩
  | overflowed _ instr hi hn ho hc hf => rw [hc]; exact .inl ⟨rfl, rfl, rfl, rfl, rfl⟩
  | advanced _ k hc hf => rw [hc]; exact .inl ⟨rfl, rfl, rfl, rfl, rfl⟩
  | bound _ role order hi hc hf => rw [hc]; exact .inr (.inl ⟨rfl, order, hi⟩)
  | dropped _ hi hc hf => rw [hc]; exact .inr (.inr ⟨rfl, .inl hi⟩)
  | reset hi => exact .inr (.inr ⟨rfl, .inr hi⟩)

/-- What a step does to one unit is the effect of its move; a unit that does not move is kept. -/
theorem step_unit (hi : s.inputs = i :: rest) (h : step s = .next t) (hu : s.units[n]? = some u)
    (hu' : t.units[n]? = some u') : UnitEffect s.config i n u u' := by
  rw [step_cons hi] at h
  rcases move_unit h hu hu' with rfl | ⟨-, he⟩
  · exact .kept _ rfl rfl
  · exact he
end Step

/-! ### The invariant of a context -/

theorem Context.wf_reset (c : Config) : Context.reset.wf c :=
  ⟨Nat.two_pow_pos _, Nat.two_pow_pos _, Nat.zero_le _, Nat.le_refl _, fun _ => rfl, fun _ => rfl⟩

theorem Context.wf_bind {c : Config} {base blen : Nat} (hbase : base < c.space) (hblen : blen < c.space)
    (hd : base + blen ≤ c.space) (role : Role) (order : BitOrder) : (Context.bind role order base blen).wf c :=
  ⟨hbase, hblen, hd, Nat.zero_le _, fun _ => rfl, fun h => by cases h⟩

/-- A cursor that advances inside its buffer stays in it, and is at bit 0 at its end (10_state.md R17, R18). -/
theorem Context.wf_advance {c : Config} {x : Context} {k : Nat} (h : x.wf c) (hv : x.valid = true)
    (hp : x.position + k ≤ 8 * x.blen) : (x.advance k).wf c := by
  obtain ⟨hbase, hblen, hd, -, -, -⟩ := h
  have hpos : 8 * (x.advance k).byteIndex + (x.advance k).bitIndex.toNat ≤ 8 * x.blen :=
    (Context.position_advance x k).trans_le hp
  refine ⟨hbase, hblen, hd, ?_, fun hend => ?_, fun h0 => ?_⟩
  · rw [Context.advance_blen]; omega
  · rw [Context.advance_blen] at hend
    exact BitVec.eq_of_toNat_eq (show _ = 0 by omega)
  · rw [Context.advance_valid, hv] at h0; cases h0

theorem Operands.fit_iff {addrW : Nat} {o : Operands} :
    o.fit addrW = true ↔ o.base < 2 ^ addrW ∧ o.blen < 2 ^ addrW ∧ o.byte < 2 ^ addrW := by
  simp [Operands.fit, and_assoc]

/-- A command leaves its unit a context of the invariant. -/
theorem UnitAfter.ctx_wf {s : State} {u u' : Bcu} {i : Instr} (h : UnitAfter s u i u') (hu : u.ctx.wf s.config)
    (hp : s.port.fit s.config.addrW = true) : u'.ctx.wf s.config := by
  obtain ⟨hbase, hblen, -⟩ := Operands.fit_iff.mp hp
  cases h with
  | kept => exact hu
  | overflowed => exact hu
  | bound i role order hi ho => exact Context.wf_bind hbase hblen ho role order
  | dropped => exact Context.wf_reset _
  | advanced i k hi hv hk => exact Context.wf_advance hu hv hk

/-! ### The invariant of memory -/

/-- The memory clauses of the invariant: canonical form, inside the address space. -/
def Memory.Legal (c : Config) (m : Memory) : Prop := Memory.wf m = true ∧ Memory.within c.space m = true

theorem Memory.Legal.set {c : Config} {m : Memory} (h : Memory.Legal c m) {a : Nat} (ha : a < c.space) (v : Byte) :
    Memory.Legal c (Memory.set m a v) :=
  ⟨Memory.wf_set h.1 a v, Memory.within_set h.2 ha v⟩

theorem Memory.Legal.replayLog {c : Config} {m : Memory} {log : List Access} (h : Memory.Legal c m)
    (hlog : ∀ x ∈ log, x.addr < c.space) : Memory.Legal c (replayLog m log) := by
  induction log with
  | nil => exact h
  | cons x log ih =>
    have hrest := ih fun y hy => hlog y (List.mem_cons_of_mem x hy)
    rw [Machine.replayLog, Access.replay]
    split
    · exact hrest
    · exact hrest.set (hlog x List.mem_cons_self) x.value

/-- Accesses inside the address space keep memory legal. -/
theorem Bus.Moves.legal {who : Agent} {lo hi r w : Nat} {b b' : Bus} {c : Config}
    (h : Bus.Moves who lo hi r w b b') (hhi : hi ≤ c.space) (hb : Memory.Legal c b.mem) : Memory.Legal c b'.mem := by
  obtain ⟨new, -, hmem, -, hnew, -, -⟩ := h
  rw [hmem]
  exact hb.replayLog fun x hx => (hnew x hx).2.2.trans_le hhi

theorem CommandEffect.legal {s : State} {u : Bcu} {i : Instr} {e : Effect} (h : CommandEffect s u i e)
    (hm : Memory.Legal s.config s.mem) : Memory.Legal s.config e.bus.mem := by
  cases h with
  | faulted => exact hm
  | illegal => exact hm
  | overflow => exact hm
  | bindReader => exact hm
  | bindWriter => exact hm
  | drop => exact hm
  | read i x h hw hx hs hb => rw [endRead_bus, Coordinates.readPath_mem]; exact hm
  | write i x h hw hx hs hb =>
    rw [endWrite_bus]
    exact (writePath_moves _ _ _ _ _ _ _ _ _ _ x.bit0.isLt).legal hb hm

theorem Transfer.brokenBytes_le (t : Transfer) : t.brokenBytes ≤ t.blen - t.byte0 := by
  rw [Transfer.brokenBytes]
  split
  · exact Nat.zero_le _
  · exact Nat.min_le_right _ _

/-- The free bytes of an interrupted write lie in its buffer (70_reset_and_hazards.md R124). -/
theorem scramble_legal {c : Config} {t : Transfer} {b : Bus} (hm : Memory.Legal c b.mem)
    (hd : t.base + t.blen ≤ c.space) (who : Agent) (k : Nat) :
    Memory.Legal c (scramble who t.brokenBytes (t.base + t.byte0) k b).mem := by
  have hle := t.brokenBytes_le
  by_cases h0 : t.brokenBytes = 0
  · rw [h0]; exact hm
  · exact (scramble_moves who t.brokenBytes (t.base + t.byte0) k b).legal (by omega) hm

/-! ### The invariant of an effect -/

/-- What a command's effect must meet for the invariant to hold once it is stored. -/
structure Effect.Legal (c : Config) (e : Effect) : Prop where
  unit     : e.unit.wf c
  mem      : Memory.Legal c e.bus.mem
  position : e.response.posByte < c.space

/-- POS_BYTE is 0, or BYTE_INDEX of the unit that answers (30_encoding.md R57). -/
def Effect.PositionIsCursor (e : Effect) : Prop :=
  e.response.posByte = 0 ∨ e.response.posByte = e.unit.ctx.byteIndex

theorem withPosition_posByte (issuer : Issuer) (ctx : Context) {r : Response} (h : r.posByte = 0) :
    (withPosition issuer ctx r).posByte = 0 ∨ (withPosition issuer ctx r).posByte = ctx.byteIndex := by
  cases issuer with
  | cursor => exact .inr rfl
  | free => exact .inl h

theorem errorResponse_posByte (e : PathError) : (errorResponse e).posByte = 0 := by cases e <;> rfl

theorem endRead_position (issuer : Issuer) (u : Bcu) (b : Bus) (len : Nat) (r : Except PathError Nat) :
    (endRead issuer u b len r).PositionIsCursor := by
  cases r with
  | error e => rw [endRead_error]; exact withPosition_posByte issuer u.ctx (errorResponse_posByte e)
  | ok v =>
    cases issuer with
    | cursor => exact .inr rfl
    | free => exact .inl rfl

theorem endWrite_position (issuer : Issuer) (u : Bcu) (b : Bus) (len : Nat) (r : Except PathError Unit) :
    (endWrite issuer u b len r).PositionIsCursor := by
  cases r with
  | error e => rw [endWrite_error]; exact withPosition_posByte issuer u.ctx (errorResponse_posByte e)
  | ok v =>
    cases issuer with
    | cursor => exact .inr rfl
    | free => exact .inl rfl

theorem endTransfer_position (u : Bcu) (t : Transfer) (b : Bus) (failed : Option PathError) :
    (endTransfer u t b failed).PositionIsCursor := by
  unfold endTransfer
  split
  · exact endRead_position _ _ _ _ _
  · exact endRead_position _ _ _ _ _
  · exact endWrite_position _ _ _ _ _
  · exact endWrite_position _ _ _ _ _

theorem CommandEffect.position {s : State} {u : Bcu} {i : Instr} {e : Effect} (h : CommandEffect s u i e) :
    e.PositionIsCursor := by
  cases h with
  | faulted => exact .inl rfl
  | illegal => exact .inl rfl
  | overflow => exact .inl rfl
  | bindReader => exact .inl rfl
  | bindWriter => exact .inl rfl
  | drop => exact .inl rfl
  | read => exact endRead_position _ _ _ _ _
  | write => exact endWrite_position _ _ _ _ _

theorem Bcu.wf_of_free {c : Config} {u : Bcu} (hf : u.inFlight = none) (hu : u.ctx.wf c) : u.wf c :=
  ⟨hu, fun t ht => by rw [hf] at ht; cases ht⟩

/-- The effect of an ended command: its unit is free, with a context of the invariant, and POS_BYTE is in the buffer. -/
theorem Effect.Legal.of_free {c : Config} {e : Effect} (hf : e.unit.inFlight = none) (hu : e.unit.ctx.wf c)
    (hm : Memory.Legal c e.bus.mem) (hp : e.PositionIsCursor) : e.Legal c := by
  refine ⟨Bcu.wf_of_free hf hu, hm, ?_⟩
  obtain ⟨-, hblen, -, hcursor, -, -⟩ := hu
  rcases hp with hp | hp <;> rw [hp]
  · exact Nat.two_pow_pos _
  · exact hcursor.trans_lt hblen

/-! ### The invariant of a running command -/

/-- A command that starts its chunk loop starts one of the invariant. -/
theorem transferOf_wf {c : Config} {o : Operands} {u : Bcu} {i : Instr} {t : Transfer}
    (h : transferOf c o u i = some t) (hu : u.ctx.wf c) : t.wf c u.ctx ∧ u.fault = false := by
  obtain ⟨hfault, hw, hn, x, hx, hstart⟩ := transferOf_some h
  have hdesc : x.base + x.blen ≤ c.space := coordinatesOf_descriptor hx hn hu.2.2.1
  have hval : ∀ (d : Direction) (din : Data), startVal d x.width.bits din < 2 ^ x.width.bits := by
    intro d din
    cases d with
    | read => exact Nat.two_pow_pos _
    | write => exact Nat.mod_lt _ (Nat.two_pow_pos _)
  obtain ⟨hl, rfl⟩ := startTransfer_some hstart
  exact ⟨⟨hl, hdesc, x.bit0.isLt, Nat.zero_add _, rfl, .inl rfl, Nat.zero_lt_one, hval _ _,
    fun hh => absurd rfl hh, fun hi => (coordinatesOf_cursor hi hx hw).2⟩, hfault⟩

section Running
variable {c : Config} {x : Context} {t : Transfer}

/-- A chunk inside the buffer, with the accumulator and `val` its BODY leaves, keeps the loop's invariant
(41_bit_order.md R76). -/
theorem Transfer.wf_chunk (h : t.wf c x) (hr : 0 < t.rem) (hb : t.byte < t.blen) {acc val : Nat}
    (hacc : acc < 2 ^ (t.done + chunkSize t.rem t.bit)) (hval : val < 2 ^ t.width.bits) :
    Transfer.wf c x { t.pass with acc := acc, val := val } := by
  obtain ⟨hl, hd, hbit, hlen, hpos, -, -, -, -, hcursor⟩ := h
  obtain ⟨h1, h2, h3⟩ := chunkSize_bounds hr hbit
  have hadv := advance_position t.byte t.bit (chunkSize t.rem t.bit)
  refine ⟨hl, hd, advance_snd_lt _ _ _, ?_, ?_, .inr ?_, hacc, hval, fun hh => absurd rfl hh, hcursor⟩
  · simp only [Transfer.pass]; omega
  · simp only [Transfer.pass]; omega
  · simp only [Transfer.pass]; omega

theorem Transfer.wf_passRead (h : t.wf c x) (hr : 0 < t.rem) (hb : t.byte < t.blen) (v : Byte) :
    (t.passRead v).wf c x := by
  obtain ⟨⟨-, hlw⟩, -, hbit, hlen, -, -, hacc, hval, -, -⟩ := id h
  obtain ⟨h1, h2, h3⟩ := chunkSize_bounds hr hbit
  exact Transfer.wf_chunk h hr hb (readBody_lt h3 hacc (by omega)) hval

theorem Transfer.wf_passWrite (h : t.wf c x) {v : Byte} (hh : t.held = some v) : t.passWrite.wf c x := by
  obtain ⟨-, -, -, -, -, -, hacc, hval, hheld, -⟩ := id h
  obtain ⟨-, hr, hb⟩ := hheld (by simp [hh])
  exact Transfer.wf_chunk h hr hb
    (hacc.trans_le (Nat.pow_le_pow_right (by decide) (Nat.le_add_right _ _))) (writeVal_lt hval _)

theorem Transfer.wf_held (h : t.wf c x) (hd : t.direction = .write) (hr : 0 < t.rem) (hb : t.byte < t.blen)
    (v : Byte) : Transfer.wf c x { t with held := some v } := by
  obtain ⟨hl, hdesc, hbit, hlen, hpos, hin, hacc, hval, -, hcursor⟩ := h
  exact ⟨hl, hdesc, hbit, hlen, hpos, hin, hacc, hval, fun _ => ⟨hd, hr, hb⟩, hcursor⟩

/-- A cursor command that has moved all its bits advances the cursor inside the buffer. -/
theorem Transfer.wf_advance (h : t.wf c x) (hx : x.wf c) (hr : t.rem = 0) (hi : t.issuer = .cursor) :
    (x.advance t.len.toNat).wf c := by
  obtain ⟨⟨hl, -⟩, -, -, hlen, hpos, hin, -, -, -, hcursor⟩ := h
  obtain ⟨hv, -, -, hblen, hbyte, hbit⟩ := hcursor hi
  refine Context.wf_advance hx hv ?_
  rw [Context.position, streamPosition, ← hblen, ← hbyte, ← hbit]
  omega
end Running

/-- The response of a running command leaves an effect of the invariant. -/
theorem endTransfer_legal {c : Config} {u : Bcu} {t : Transfer} {b : Bus} {failed : Option PathError}
    (hu : u.ctx.wf c) (ht : t.wf c u.ctx) (hm : Memory.Legal c b.mem) (hend : failed = none → t.rem = 0) :
    (endTransfer u t b failed).Legal c := by
  have hbus : Memory.Legal c (endTransfer u t b failed).bus.mem := by rw [endTransfer_bus]; exact hm
  rcases endTransfer_unit u t b failed with he | ⟨hi, hok, he⟩
  · exact .of_free (by rw [he]) (by rw [he]; exact hu) hbus (endTransfer_position u t b failed)
  · exact .of_free (by rw [he]) (by rw [he]; exact Transfer.wf_advance ht hu (hend hok) hi) hbus
      (endTransfer_position u t b failed)

/-! ### The invariant of a state, clause by clause -/

section Invariant
variable {s : State} (h : s.Inv)
include h

theorem State.Inv.unit {n : Nat} {u : Bcu} (hu : s.units[n]? = some u) : u.wf s.config := by
  obtain ⟨-, -, -, hunits, -⟩ := h
  exact hunits u (List.mem_of_getElem? hu)

theorem State.Inv.legal : Memory.Legal s.config s.mem := by
  obtain ⟨-, -, -, -, hwf, hin, -⟩ := h
  exact ⟨hwf, hin⟩

theorem State.Inv.port_fit : s.port.fit s.config.addrW = true := by
  obtain ⟨-, -, -, -, -, -, hport, -⟩ := h
  exact hport

theorem State.Inv.setUnit (n : Nat) {u : Bcu} (hu : u.wf s.config) :
    State.Inv { s with units := s.units.set n u } := by
  obtain ⟨ha, hn, hlen, hunits, hrest⟩ := h
  refine ⟨ha, hn, by rw [List.length_set]; exact hlen, fun v hv => ?_, hrest⟩
  rcases List.mem_or_eq_of_mem_set hv with hv | rfl
  · exact hunits v hv
  · exact hu

theorem State.Inv.setBus {b : Bus} (hb : Memory.Legal s.config b.mem) : State.Inv { s with bus := b } := by
  obtain ⟨ha, hn, hlen, hunits, -, -, hrest⟩ := h
  exact ⟨ha, hn, hlen, hunits, hb.1, hb.2, hrest⟩

theorem State.Inv.present {n : Nat} {c : Command} (hc : c.operands.fit s.config.addrW = true) :
    (s.present n c).Inv := by
  obtain ⟨ha, hn, hlen, hunits, hwf, hin, -, hresp⟩ := h
  exact ⟨ha, hn, hlen, hunits, hwf, hin, hc, hresp⟩

theorem State.Inv.respond (n : Nat) {r : Response} (hr : r.posByte < s.config.space) :
    State.Inv { s with responses := (n, r) :: s.responses } := by
  obtain ⟨ha, hn, hlen, hunits, hwf, hin, hport, hresp⟩ := h
  refine ⟨ha, hn, hlen, hunits, hwf, hin, hport, fun q hq => ?_⟩
  rcases List.mem_cons.mp hq with rfl | hq
  · exact hr
  · exact hresp q hq

theorem State.Inv.commit (n : Nat) {e : Effect} (he : e.Legal s.config) : (s.commit n e).Inv :=
  ((h.setUnit n he.unit).setBus he.mem).respond n he.position

theorem State.Inv.goOn {n : Nat} {u : Bcu} {t t' : Transfer} {b : Bus} (hu : u.wf s.config)
    (hf : u.inFlight = some t) (ht : t'.wf s.config u.ctx) (hb : Memory.Legal s.config b.mem) :
    (s.goOn n u t' b).Inv := by
  have hfault : u.fault = false := (hu.2 t hf).2
  have hunit : Bcu.wf s.config { u with inFlight := some t' } :=
    ⟨hu.1, fun v hv => by cases hv; exact ⟨ht, hfault⟩⟩
  exact (h.setUnit n hunit).setBus hb

/-! ### Every move keeps the invariant -/

theorem State.Inv.exec {i : Instr} {t : State} (he : exec i s = .next t) : t.Inv := by
  obtain ⟨u, e, hu, hf, hce, rfl⟩ := exec_next he
  have hafter := hce.unitAfter
  exact h.commit _ (.of_free (hafter.inFlight.trans hf) (hafter.ctx_wf (h.unit hu).1 h.port_fit) (hce.legal h.legal)
    hce.position)

theorem State.Inv.performIllegal {t : State} (he : performIllegal s = .next t) : t.Inv := by
  obtain ⟨u, e, hu, hf, ⟨-, rfl⟩ | ⟨-, rfl⟩, rfl⟩ := performIllegal_next he
  · exact h.commit _ (.of_free hf (h.unit hu).1 h.legal (.inl rfl))
  · exact h.commit _ (.of_free hf (h.unit hu).1 h.legal (.inl rfl))

theorem State.Inv.moveCommand {n : Nat} {c : Command} {t : State} (he : moveCommand n c s = .next t) : t.Inv := by
  obtain ⟨hfit, ⟨i, -, he⟩ | ⟨e, -, he⟩⟩ := moveCommand_next he
  · exact (h.present hfit).exec he
  · exact (h.present hfit).performIllegal he

theorem State.Inv.moveAccept {n : Nat} {c : Command} {t : State} (he : moveAccept n c s = .next t) : t.Inv := by
  obtain ⟨hfit, ⟨i, -, he⟩ | ⟨e, -, he⟩ | ⟨i, u, tr, -, hu, -, htr, rfl⟩⟩ := moveAccept_next he
  · exact (h.present hfit).exec he
  · exact (h.present hfit).performIllegal he
  · have hwf := h.unit hu
    exact (h.present hfit).setUnit n ⟨hwf.1, fun v hv => by cases hv; exact transferOf_wf htr hwf.1⟩

theorem State.Inv.moveTick {n : Nat} {t : State} (he : moveTick n s = .next t) : t.Inv := by
  obtain ⟨u, hu, ⟨-, rfl⟩ | ⟨tr, hf, hd, he⟩⟩ := moveTick_next he
  · exact h
  have hwf := h.unit hu
  have htr : tr.wf s.config u.ctx := (hwf.2 tr hf).1
  cases he with
  | wrote b hh =>
    obtain ⟨-, -, -, -, -, -, -, -, hheld, -⟩ := id htr
    obtain ⟨-, -, hb⟩ := hheld (by simp [hh])
    exact h.goOn hwf hf (Transfer.wf_passWrite htr hh) (h.legal.set (by omega) _)
  | passed hh hr hb hdir => exact h.goOn hwf hf (Transfer.wf_passRead htr hr hb _) h.legal
  | fetched hh hr hb hdir => exact h.goOn hwf hf (Transfer.wf_held htr hdir hr hb _) h.legal
  | finished hh hr => exact h.commit n (endTransfer_legal hwf.1 htr h.legal fun _ => hr)
  | exhausted hh hr hb => exact h.commit n (endTransfer_legal hwf.1 htr h.legal fun hn => by cases hn)

theorem State.Inv.moveHostRead {a : Nat} {t : State} (he : moveHostRead a s = .next t) : t.Inv := by
  rw [Machine.moveHostRead] at he
  split at he <;> cases he
  exact h.setBus h.legal

theorem State.Inv.moveHostWrite {a : Nat} {v : Byte} {t : State} (he : moveHostWrite a v s = .next t) : t.Inv := by
  rw [Machine.moveHostWrite] at he
  split at he <;> cases he
  exact h.setBus (h.legal.set ‹_› v)

theorem State.Inv.moveReset {n : Nat} {t : State} (he : moveReset n s = .next t) : t.Inv := by
  have hreset : Bcu.reset.wf s.config := Bcu.wf_of_free rfl (Context.wf_reset _)
  obtain ⟨u, -, ⟨-, rfl⟩ | ⟨tr, -, hd, rfl⟩⟩ := moveReset_next he
  · exact h.setUnit n hreset
  · exact (h.setUnit n hreset).setBus (scramble_legal h.legal hd _ _)

theorem State.Inv.move {i : Input} {t : State} (he : move i s = .next t) : t.Inv := by
  cases i with
  | command n c => exact h.moveCommand he
  | accept n c => exact h.moveAccept he
  | tick n => exact h.moveTick he
  | hostRead a => exact h.moveHostRead he
  | hostWrite a v => exact h.moveHostWrite he
  | reset n => exact h.moveReset he
end Invariant

theorem State.Inv.powerOn {c : Config} {m : Memory} (ha : 1 ≤ c.addrW) (hn : 1 ≤ c.nUnits)
    (hm : Memory.Legal c m) : (State.powerOn c m).Inv := by
  refine ⟨ha, hn, List.length_replicate, fun u hu => ?_, hm.1, hm.2, ?_, fun r hr => by cases hr⟩
  · rw [List.eq_of_mem_replicate hu]
    exact Bcu.wf_of_free rfl (Context.wf_reset c)
  · exact Operands.fit_iff.mpr ⟨Nat.two_pow_pos _, Nat.two_pow_pos _, Nat.two_pow_pos _⟩

/-! ### The obligations -/

/-- Settles O36: every move keeps every clause of the invariant. -/
theorem everyStepKeepsTheInvariant : Obligations.EveryStepKeepsTheInvariant := by
  unfold Obligations.EveryStepKeepsTheInvariant
  intro s t hs h
  cases hi : s.inputs with
  | nil => rw [step_nil hi] at h; cases h; exact hs
  | cons i rest =>
    rw [step_cons hi] at h
    have hs' : State.Inv { s with inputs := rest } := hs
    exact hs'.move h

/-- Settles O15, from the effects a move can have on a unit. -/
theorem faultIsStickyUntilReset : Obligations.FaultIsStickyUntilReset := by
  unfold Obligations.FaultIsStickyUntilReset
  intro s t i rest n u u' hi h hu hu'
  rcases (step_unit hi h hu hu').fault with he | ⟨hreset, he⟩ | ⟨he, instr, hsend, hname, hover⟩
  · exact ⟨fun h1 h0 => by simp [he, h1] at h0, fun h0 h1 => by simp [he, h0] at h1⟩
  · exact ⟨fun _ _ => hreset, fun _ h1 => by simp [he] at h1⟩
  · exact ⟨fun _ h0 => by simp [he] at h0, fun _ _ => ⟨instr, hsend, namesBuffer_cases hname, hover⟩⟩

/-- Settles O25: a command stores one effect, at its own unit. -/
theorem commandsChangeNothingElse : Obligations.CommandsChangeNothingElse := by
  unfold Obligations.CommandsChangeNothingElse
  intro i s t u hu h
  obtain ⟨v, e, hv, hf, hce, rfl⟩ := exec_next h
  rw [hu] at hv
  cases hv
  have hafter := hce.unitAfter
  have hunit : (s.commit s.cur e).units[s.cur]? = some e.unit := by
    rw [State.commit_units, List.getElem?_set_self', hu]
    rfl
  refine ⟨rfl, rfl, rfl, rfl, rfl, List.length_set, fun n hn => ?_, ⟨e.response, rfl⟩,
    ⟨e.unit, hunit, hafter.inFlight.trans hf, hafter.fault, hafter.ctx⟩, fun hm a ha => hce.mem_frame hm ha⟩
  rw [State.commit_units, List.getElem?_set_ne hn.symm]

/-- Settles O26, from the effects a move can have on a unit. -/
theorem validIsSetByNewAndClearedByDropOrReset : Obligations.ValidIsSetByNewAndClearedByDropOrReset := by
  unfold Obligations.ValidIsSetByNewAndClearedByDropOrReset
  intro s t i rest n u u' hi h hu hu'
  rcases (step_unit hi h hu hu').binding with ⟨he, -⟩ | ⟨he, hnew⟩ | ⟨he, hclear⟩
  · exact ⟨fun h0 h1 => by simp [he, h0] at h1, fun h1 h0 => by simp [he, h1] at h0⟩
  · exact ⟨fun _ _ => hnew, fun _ h0 => by simp [he] at h0⟩
  · exact ⟨fun _ h1 => by simp [he] at h1, fun _ _ => hclear⟩

/-- Settles O27, from the effects a move can have on a unit. -/
theorem roleOrderAndBufferAreFixedWhileBound : Obligations.RoleOrderAndBufferAreFixedWhileBound := by
  unfold Obligations.RoleOrderAndBufferAreFixedWhileBound
  intro s t i rest n u u' hi h hu hu' _ hv' hr hw
  rcases (step_unit hi h hu hu').binding with ⟨-, he⟩ | ⟨-, order, hnew⟩ | ⟨he, -⟩
  · exact he
  · exact (hnew.elim (hr order) (hw order)).elim
  · simp [he] at hv'

/-- Settles O35: reset registers, no running command and no response. -/
theorem invariantHoldsAtPowerOn : Obligations.InvariantHoldsAtPowerOn := by
  unfold Obligations.InvariantHoldsAtPowerOn
  exact ⟨State.Inv.powerOn (by decide) (by decide) ⟨rfl, rfl⟩,
    fun c m ha hn hwf hin => State.Inv.powerOn ha hn ⟨hwf, hin⟩⟩

end Sys2Proof.Machine
end

section
/-! PROOFS. The byte accesses to the shared memory (20_memory.md): what the accesses of a command, of a tick and of a move
are, from `Bus.Moves`; and where the bytes of a written field stand. -/

namespace Sys2Proof.Machine

/-! ### Reading off the accesses of a move -/

/-- Whatever list the log has gained, it is as long as the reads and writes counted, and stays in their range. -/
theorem Bus.Moves.of_log {who : Agent} {lo hi r w : Nat} {b b' : Bus} {new : List Access}
    (h : Bus.Moves who lo hi r w b b') (hlog : b'.log = new ++ b.log) :
    new.length = r + w ∧ ∀ x ∈ new, lo ≤ x.addr ∧ x.addr < hi := by
  obtain ⟨new', hlog', -, -, hbounds, hreads, hwrites⟩ := h
  obtain rfl : new = new' := List.append_cancel_right (hlog.symm.trans hlog')
  refine ⟨?_, fun x hx => (hbounds x hx).2⟩
  have hkind : ∀ x ∈ new, ¬ x.kind = .read ↔ x.kind = .write := fun x _ => by cases x.kind <;> decide
  rw [List.length_eq_countP_add_countP (fun y => y.kind = .read), hreads, ← hwrites]
  exact congrArg _ (List.countP_congr fun x hx => by simpa using hkind x hx)

/-- Accesses without a write are reads, and memory is as before (20_memory.md R38). -/
theorem Bus.Moves.reads_only {who : Agent} {lo hi r : Nat} {b b' : Bus} (h : Bus.Moves who lo hi r 0 b b') :
    b'.mem = b.mem ∧ ∃ new, b'.log = new ++ b.log ∧ ∀ x ∈ new, x.kind = .read := by
  refine ⟨h.mem_eq, ?_⟩
  obtain ⟨new, hlog, -, -, -, -, hwrites⟩ := h
  refine ⟨new, hlog, fun x hx => ?_⟩
  have hx : ¬ x.kind = .write := by simpa using List.countP_eq_zero.mp hwrites x hx
  cases hk : x.kind with
  | read => rfl
  | write => exact absurd hk hx

/-- Agent `who` takes the bus from `b` to `b'` by accesses of its own (20_memory.md R44). -/
def Bus.Accessed (who : Agent) (b b' : Bus) : Prop := ∃ lo hi r w, Bus.Moves who lo hi r w b b'

theorem Bus.Moves.accessed {who : Agent} {lo hi r w : Nat} {b b' : Bus} (h : Bus.Moves who lo hi r w b b') :
    Bus.Accessed who b b' := ⟨lo, hi, r, w, h⟩

theorem Bus.Accessed.refl (who : Agent) (b : Bus) : Bus.Accessed who b b := (Bus.Moves.refl who 0 0 b).accessed

/-! ### The accesses of a command -/

/-- The accesses of an instruction are its unit's, inside the buffer of its field. -/
theorem exec_moves {i : Instr} {s t : State} {u : Bcu} (hu : s.units[s.cur]? = some u) (h : exec i s = .next t) :
    ∃ lo hi r w, Bus.Moves (.unit s.cur) lo hi r w s.bus t.bus ∧ (stores i = false → w = 0) ∧
      (r + w = 0 ∨ ∃ x, coordinatesOf u s.port i = some x ∧ lo = x.base + x.byte0 ∧ hi = x.base + x.blen) := by
  obtain ⟨v, e, hv, -, hce, rfl⟩ := exec_next h
  obtain rfl : u = v := Option.some.inj (hu.symm.trans hv)
  obtain ⟨lo, hi, r, w, hmoves, -, hstores, hbuffer⟩ := hce.moves
  exact ⟨lo, hi, r, w, hmoves, hstores, hbuffer⟩

theorem exec_accessed {i : Instr} {s t : State} (h : exec i s = .next t) :
    Bus.Accessed (.unit s.cur) s.bus t.bus := by
  obtain ⟨u, -, hu, -⟩ := exec_next h
  obtain ⟨lo, hi, r, w, hmoves, -⟩ := exec_moves hu h
  exact hmoves.accessed

theorem performIllegal_bus {s t : State} (h : performIllegal s = .next t) : t.bus = s.bus := by
  obtain ⟨u, e, -, -, ⟨-, rfl⟩ | ⟨-, rfl⟩, rfl⟩ := performIllegal_next h
  · rfl
  · rfl

/-! ### The access of a tick -/

/-- In a well-formed chunk loop a held byte belongs to a write, and lies in the buffer. -/
theorem Transfer.wf_of_held {c : Config} {x : Context} {tr : Transfer} (h : tr.wf c x) (hh : tr.held ≠ none) :
    tr.direction = .write ∧ tr.byte < tr.blen := by
  obtain ⟨-, -, -, -, -, -, -, -, hheld, -⟩ := h
  obtain ⟨hdir, -, hbyte⟩ := hheld hh
  exact ⟨hdir, hbyte⟩

/-- A tick makes at most one access, at the byte the loop stands at: a write of the byte it holds, or, holding none, a
read of a byte in the buffer (20_memory.md R36, R39, R40). -/
theorem TickEffect.moves {s t : State} {n : Nat} {u : Bcu} {tr : Transfer} (h : TickEffect s n u tr t) :
    ∃ r w, Bus.Moves (.unit n) (tr.base + tr.byte) (tr.base + tr.byte + 1) r w s.bus t.bus ∧ r + w ≤ 1 ∧
      (tr.held = none → w = 0 ∧ (r = 0 ∨ tr.byte < tr.blen)) := by
  have at_byte : tr.base + tr.byte ≤ tr.base + tr.byte ∧ tr.base + tr.byte < tr.base + tr.byte + 1 :=
    ⟨Nat.le_refl _, Nat.lt_succ_self _⟩
  have ended : ∀ failed, Bus.Moves (.unit n) (tr.base + tr.byte) (tr.base + tr.byte + 1) 0 0 s.bus
      (endTransfer u tr s.bus failed).bus := by
    intro failed
    rw [endTransfer_bus]
    exact Bus.Moves.refl _ _ _ _
  cases h with
  | wrote b hh => exact ⟨0, 1, Bus.write_moves _ _ _ at_byte, Nat.le_refl _, fun h0 => by simp [hh] at h0⟩
  | passed hh hr hb hd => exact ⟨1, 0, Bus.read_moves _ _ at_byte, Nat.le_refl _, fun _ => ⟨rfl, .inr hb⟩⟩
  | fetched hh hr hb hd => exact ⟨1, 0, Bus.read_moves _ _ at_byte, Nat.le_refl _, fun _ => ⟨rfl, .inr hb⟩⟩
  | finished hh hr => exact ⟨0, 0, ended _, Nat.zero_le _, fun _ => ⟨rfl, .inl rfl⟩⟩
  | exhausted hh hr hb => exact ⟨0, 0, ended _, Nat.zero_le _, fun _ => ⟨rfl, .inl rfl⟩⟩

/-- A tick of a unit that runs `tr` has an effect of `tr`. -/
theorem moveTick_effect {n : Nat} {s t : State} {u : Bcu} {tr : Transfer} (hu : s.units[n]? = some u)
    (hf : u.inFlight = some tr) (h : moveTick n s = .next t) : TickEffect s n u tr t := by
  obtain ⟨v, hv, hcase⟩ := moveTick_next h
  obtain rfl : u = v := Option.some.inj (hu.symm.trans hv)
  obtain ⟨hfree, -⟩ | ⟨tr', hf', -, he⟩ := hcase
  · rw [hf] at hfree; cases hfree
  · obtain rfl : tr = tr' := Option.some.inj (hf.symm.trans hf')
    exact he

theorem withPosition_status (issuer : Issuer) (ctx : Context) (r : Response) :
    (withPosition issuer ctx r).status = r.status := by
  cases issuer <;> rfl

/-- A running command that runs off its buffer answers BUFFER_EXHAUSTED (60_exceptions.md R109). -/
theorem endTransfer_exhausted_status (u : Bcu) (tr : Transfer) (b : Bus) :
    (endTransfer u tr b (some .bufferExhausted)).response.status = .bufferExhausted := by
  unfold endTransfer
  cases tr.direction with
  | read => simp only [endRead_error, withPosition_status]; rfl
  | write => simp only [endWrite_error, withPosition_status]; rfl

/-! ### The accesses of a move -/

theorem moveCommand_accessed {n : Nat} {c : Command} {s t : State} (h : moveCommand n c s = .next t) :
    Bus.Accessed (.unit n) s.bus t.bus := by
  obtain ⟨-, ⟨i, -, he⟩ | ⟨e, -, he⟩⟩ := moveCommand_next h
  · exact exec_accessed he
  · rw [performIllegal_bus he]; exact .refl _ _

theorem moveAccept_accessed {n : Nat} {c : Command} {s t : State} (h : moveAccept n c s = .next t) :
    Bus.Accessed (.unit n) s.bus t.bus := by
  obtain ⟨-, ⟨i, -, he⟩ | ⟨e, -, he⟩ | ⟨i, u, tr, -, -, -, -, rfl⟩⟩ := moveAccept_next h
  · exact exec_accessed he
  · rw [performIllegal_bus he]; exact .refl _ _
  · exact .refl _ _

theorem moveTick_accessed {n : Nat} {s t : State} (h : moveTick n s = .next t) :
    Bus.Accessed (.unit n) s.bus t.bus := by
  obtain ⟨u, -, ⟨-, rfl⟩ | ⟨tr, -, -, he⟩⟩ := moveTick_next h
  · exact .refl _ _
  · obtain ⟨r, w, hmoves, -⟩ := he.moves
    exact hmoves.accessed

theorem moveReset_accessed {n : Nat} {s t : State} (h : moveReset n s = .next t) :
    Bus.Accessed (.unit n) s.bus t.bus := by
  obtain ⟨u, -, ⟨-, rfl⟩ | ⟨tr, -, -, rfl⟩⟩ := moveReset_next h
  · exact .refl _ _
  · exact (scramble_moves _ _ _ _ _).accessed

/-- A host read of an address that exists is one read of the host (70_reset_and_hazards.md R126). -/
theorem moveHostRead_of_lt {a : Nat} {s : State} (ha : a < s.config.space) :
    moveHostRead a s = .next { s with bus := (s.bus.read .host a).2 } := if_pos ha

/-- A host write to an address that exists is one write of the host (70_reset_and_hazards.md R126). -/
theorem moveHostWrite_of_lt {a : Nat} {v : Byte} {s : State} (ha : a < s.config.space) :
    moveHostWrite a v s = .next { s with bus := s.bus.write .host a v } := if_pos ha

theorem moveHostRead_accessed {a : Nat} {s t : State} (h : moveHostRead a s = .next t) :
    Bus.Accessed .host s.bus t.bus := by
  by_cases ha : a < s.config.space
  · rw [moveHostRead_of_lt ha] at h
    cases h
    exact (Bus.read_moves _ _ ⟨Nat.le_refl a, Nat.lt_succ_self a⟩).accessed
  · rw [moveHostRead, if_neg ha] at h; cases h

theorem moveHostWrite_accessed {a : Nat} {v : Byte} {s t : State} (h : moveHostWrite a v s = .next t) :
    Bus.Accessed .host s.bus t.bus := by
  by_cases ha : a < s.config.space
  · rw [moveHostWrite_of_lt ha] at h
    cases h
    exact (Bus.write_moves _ _ _ ⟨Nat.le_refl a, Nat.lt_succ_self a⟩).accessed
  · rw [moveHostWrite, if_neg ha] at h; cases h

/-- Every move extends the total order by accesses of the agent that moves (20_memory.md R44). -/
theorem move_accessed {i : Input} {s t : State} (h : move i s = .next t) : Bus.Accessed i.agent s.bus t.bus := by
  cases i with
  | command n c => exact moveCommand_accessed h
  | accept n c => exact moveAccept_accessed h
  | tick n => exact moveTick_accessed h
  | hostRead a => exact moveHostRead_accessed h
  | hostWrite a v => exact moveHostWrite_accessed h
  | reset n => exact moveReset_accessed h

/-! ### The bytes of a written field -/

/-- Which byte of an `m`-byte value stands `k` bytes above the start of its field (20_memory.md R35): little-endian in
Lsb0, big-endian in Msb0. -/
def valueByte : BitOrder → Nat → Nat → Nat
  | .lsb0, _, k => k
  | .msb0, m, k => m - k - 1

/-- In a byte-aligned field, bit `i` of the value's byte `valueByte order m k` is physical bit `i` of buffer byte
`byte0 + k`. -/
theorem fieldPosition_valueByte (order : BitOrder) {byte0 m k i : Nat} (hk : k < m) (hi : i < 8) :
    fieldPosition order (8 * byte0) (8 * m) (8 * valueByte order m k + i) =
      8 * (byte0 + k) + 0 + physicalBit order i := by
  cases order with
  | lsb0 => simp only [fieldPosition, valueByte, physicalBit]; omega
  | msb0 => simp only [fieldPosition, valueByte, physicalBit]; omega

/-- The bytes of a byte-aligned written field are the value's bytes, in the order of `valueByte`. -/
theorem FieldWritten.get_byte {order : BitOrder} {m₀ m' : Memory} {base byte0 m k top : Nat} {din : Data}
    (h : FieldWritten order m₀ m' base (8 * byte0) (8 * m) top din) (htop : 8 * (byte0 + m) ≤ top) (hk : k < m) :
    Memory.get m' (base + byte0 + k) = din.extractLsb' (8 * valueByte order m k) 8 := by
  obtain ⟨-, hfield, -⟩ := h
  apply BitVec.eq_of_getLsbD_eq
  intro i hi
  obtain ⟨hinv, hphys⟩ := physicalBit_involutive order hi
  have hvalue : valueByte order m k < m := by
    cases order with
    | lsb0 => exact hk
    | msb0 => simp only [valueByte]; omega
  have hpos := fieldPosition_valueByte order (byte0 := byte0) hk hi
  have hbit := hfield (8 * valueByte order m k + i) (by omega) (by omega)
  rw [hpos, streamBit_chunk order m' base (byte0 + k) 0 _ (by omega), Nat.zero_add, hinv, ← Nat.add_assoc] at hbit
  rw [hbit, BitVec.getLsbD_extractLsb']
  simp [hi]

/-- A write path that passes its entry checks leaves its field written, over a canonical memory. -/
theorem writePath_fieldWritten (who : Agent) (order : BitOrder) (base blen byte0 bit0 len W : Nat) (din : Data)
    (bus : Bus) (hl : 1 ≤ len ∧ len ≤ W) (hb : bit0 < 8) (hm : Memory.wf bus.mem = true) :
    FieldWritten order bus.mem (writePath who order base blen byte0 bit0 len W din bus).2.mem base (8 * byte0 + bit0)
      len (8 * blen) din := by
  obtain ⟨m', -, -, -, hfield, hpath⟩ := writePath_spec who order base blen byte0 bit0 len W din bus hl hb hm
  rw [hpath]
  split
  · exact hfield
  · exact hfield

/-! ### The obligations -/

/-- Settles O37: each move's accesses are a `Bus.Moves` of the agent that moves. -/
theorem accessesAreSequentiallyConsistent : Obligations.AccessesAreSequentiallyConsistent := by
  unfold Obligations.AccessesAreSequentiallyConsistent
  intro s t h
  cases hi : s.inputs with
  | nil =>
    rw [step_nil hi] at h
    cases h
    exact ⟨[], rfl, rfl, rfl, fun _ _ _ _ hx => by cases hx⟩
  | cons i rest =>
    rw [step_cons hi] at h
    obtain ⟨_, _, _, _, new, hlog, hmem, hreads, hagent, -⟩ := move_accessed h
    refine ⟨new, hlog, hmem, hreads, fun j rest' hj x hx => ?_⟩
    cases hj
    exact (hagent x hx).1

/-- Settles O31: RD and RD.AT store nothing, and a read's chunk loop holds no byte to write back. -/
theorem readersNeverWrite : Obligations.ReadersNeverWrite := by
  unfold Obligations.ReadersNeverWrite
  refine ⟨fun i s t hi h => ?_, fun s t n u tr hu hf hwf hdir h => ?_⟩
  · have hstores : stores i = false := by
      obtain ⟨width, len, rfl⟩ | ⟨order, width, len, bit, rfl⟩ := hi
      · rfl
      · rfl
    obtain ⟨u, -, hu, -⟩ := exec_next h
    obtain ⟨_, _, r, w, hmoves, hw, -⟩ := exec_moves hu h
    obtain rfl := hw hstores
    exact hmoves.reads_only
  · have hheld : tr.held = none := by
      by_contra hh
      rw [(Transfer.wf_of_held hwf hh).1] at hdir
      cases hdir
    obtain ⟨r, w, hmoves, -, hnone⟩ := (moveTick_effect hu hf h).moves
    obtain ⟨rfl, -⟩ := hnone hheld
    exact hmoves.reads_only

/-- Settles O32, from the range of the accesses of a command and of a tick. -/
theorem accessesStayInTheBuffer : Obligations.AccessesStayInTheBuffer := by
  unfold Obligations.AccessesStayInTheBuffer
  refine ⟨fun i s t u new hu h hlog x hx => ?_, fun s t n u tr new hu hf hwf h hlog x hx => ?_,
    fun s n u tr hu hf hd hh hr hb => ?_⟩
  · obtain ⟨lo, hi, r, w, hmoves, -, hbuffer⟩ := exec_moves hu h
    obtain ⟨hlen, hrange⟩ := hmoves.of_log hlog
    have hpos := List.length_pos_of_mem hx
    obtain h0 | ⟨c, hc, rfl, rfl⟩ := hbuffer
    · omega
    · obtain ⟨hlo, hhi⟩ := hrange x hx
      exact ⟨c, hc, x.addr - c.base, by omega, by omega⟩
  · obtain ⟨r, w, hmoves, -, hnone⟩ := (moveTick_effect hu hf h).moves
    obtain ⟨hlen, hrange⟩ := hmoves.of_log hlog
    have hpos := List.length_pos_of_mem hx
    have hbyte : tr.byte < tr.blen := by
      by_cases hh : tr.held = none
      · obtain ⟨rfl, hread⟩ := hnone hh
        omega
      · exact (Transfer.wf_of_held hwf hh).2
    obtain ⟨hlo, hhi⟩ := hrange x hx
    exact ⟨tr.byte, by omega, hbyte⟩
  · obtain ⟨t, ht, he⟩ := moveTick_completes hu hf hd
    cases he with
    | exhausted => exact ⟨_, _, ht, endTransfer_bus _ _ _ _, rfl, endTransfer_exhausted_status _ _ _⟩
    | wrote b hheld => rw [hh] at hheld; cases hheld
    | passed _ _ hin _ => omega
    | fetched _ _ hin _ => omega
    | finished _ hend => omega

/-- Settles O41: a tick's new accesses are none or one, and memory is what they leave. -/
theorem aTickMakesAtMostOneByteAccess : Obligations.ATickMakesAtMostOneByteAccess := by
  unfold Obligations.ATickMakesAtMostOneByteAccess
  intro s t n h
  obtain ⟨u, -, ⟨-, rfl⟩ | ⟨tr, -, -, he⟩⟩ := moveTick_next h
  · exact .inl ⟨rfl, rfl⟩
  obtain ⟨r, w, hmoves, hone, -⟩ := he.moves
  obtain ⟨new, hlog, hmem, -, hagent, -⟩ := id hmoves
  obtain ⟨hlen, -⟩ := hmoves.of_log hlog
  match new with
  | [] => exact .inl ⟨hlog, hmem⟩
  | [x] => exact .inr ⟨x, hlog, (hagent x List.mem_cons_self).1, hmem⟩
  | x :: y :: rest => simp only [List.length_cons] at hlen; omega

/-- Settles O48: a written field of whole bytes stands byte by byte in the order of `valueByte`. -/
theorem byteOrderFollowsTheBitOrder : Obligations.ByteOrderFollowsTheBitOrder := by
  unfold Obligations.ByteOrderFollowsTheBitOrder
  intro who base blen byte0 m width din bus k hm h1 hW hin hk
  have written := fun order => writePath_fieldWritten who order base blen byte0 0 (8 * m) width.bits din bus
    ⟨by omega, hW⟩ (by decide) hm
  exact ⟨(written .lsb0).get_byte (by omega) hk, (written .msb0).get_byte (by omega) hk⟩

/-- Settles O9, by the rule of a read after a write. -/
theorem hostAccessesReadAndWriteOneByte : Obligations.HostAccessesReadAndWriteOneByte := by
  unfold Obligations.HostAccessesReadAndWriteOneByte
  intro s a rest ha
  refine ⟨fun hi => ?_, fun v hi hm => ?_⟩
  · rw [step_cons hi]
    exact moveHostRead_of_lt ha
  · refine ⟨Memory.set s.mem a v, ?_, fun x hx => ?_, Memory.wf_set hm a v, ?_⟩
    · rw [Memory.get_set hm, if_pos rfl]
    · rw [Memory.get_set hm, if_neg hx]
    · rw [step_cons hi]
      exact moveHostWrite_of_lt ha

end Sys2Proof.Machine
end

section
/-! PROOFS. The encoding (30_encoding.md): decoder and encoder are inverse to each other, the rows of the opcode map in
terms of the word's fields, and the assembler. -/

namespace Sys2Proof

/-! ### The decoder inverts the encoder (R62) -/

section DecodePacked
variable {op : BitVec 4}

theorem decodeNew_packWord (make : BitOrder → Instr) (order : BitOrder) :
    decodeNew make (packWord op order.field 0 0 0) = .ok (make order) := by
  simp [decodeNew, Word.tw_packWord, Word.len_packWord, Word.bit_packWord, Word.ord_packWord, orderOfField_field]

theorem decodeCursor_packWord (make : Width → BitVec 8 → Instr) (width : Width) (len : BitVec 8) :
    decodeCursor make (packWord op 0 width.field len 0) = .ok (make width len) := by
  simp [decodeCursor, Word.ord_packWord, Word.bit_packWord, Word.tw_packWord, Word.len_packWord, widthOfField_field]

theorem decodeAt_packWord (make : BitOrder → Width → BitVec 8 → BitVec 3 → Instr) (order : BitOrder) (width : Width)
    (len : BitVec 8) (bit : BitVec 3) :
    decodeAt make (packWord op order.field width.field len bit) = .ok (make order width len bit) := by
  simp [decodeAt, Word.ord_packWord, Word.bit_packWord, Word.tw_packWord, Word.len_packWord, widthOfField_field,
    orderOfField_field]

theorem decodeDrop_packWord : decodeDrop (packWord op 0 0 0 0) = .ok .drop := by
  simp [decodeDrop, Word.ord_packWord, Word.tw_packWord, Word.len_packWord, Word.bit_packWord]

end DecodePacked

/-- The dispatch of `decode` on a packed word: OP alone chooses the arm (R62). -/
theorem decode_packWord (op : BitVec 4) (ord : BitVec 1) (tw : BitVec 3) (len : BitVec 8) (bit : BitVec 3) :
    decode (packWord op ord tw len bit) =
      if op = 0x1 then decodeNew .rdNew (packWord op ord tw len bit)
      else if op = 0x2 then decodeNew .wrNew (packWord op ord tw len bit)
      else if op = 0x3 then decodeCursor .rd (packWord op ord tw len bit)
      else if op = 0x4 then decodeCursor .wr (packWord op ord tw len bit)
      else if op = 0x5 then decodeAt .rdAt (packWord op ord tw len bit)
      else if op = 0x6 then decodeAt .wrAt (packWord op ord tw len bit)
      else if op = 0x7 then decodeDrop (packWord op ord tw len bit)
      else if op = 0x8 then .error .reservedForSeek
      else .error (.reservedOpcode op) := by
  rw [decode, Word.op_packWord, if_neg (not_not_intro (Word.rsv_packWord op ord tw len bit))]

theorem decode_encode (i : Instr) : decode (encode i) = .ok i := by
  cases i with
  | rdNew order => simpa [encode, decode_packWord] using decodeNew_packWord (op := 0x1) .rdNew order
  | wrNew order => simpa [encode, decode_packWord] using decodeNew_packWord (op := 0x2) .wrNew order
  | rd width len => simpa [encode, decode_packWord] using decodeCursor_packWord (op := 0x3) .rd width len
  | wr width len => simpa [encode, decode_packWord] using decodeCursor_packWord (op := 0x4) .wr width len
  | rdAt order width len bit =>
    simpa [encode, decode_packWord] using decodeAt_packWord (op := 0x5) .rdAt order width len bit
  | wrAt order width len bit =>
    simpa [encode, decode_packWord] using decodeAt_packWord (op := 0x6) .wrAt order width len bit
  | drop => simpa [encode, decode_packWord] using decodeDrop_packWord

/-! ### The encoder inverts the decoder (R59, R62) -/

section EncodeDecoded
variable {op : BitVec 4} {w : Word} {i : Instr}

/-- A word that the arm of RD.NEW and WR.NEW accepts is packed from its OP and its order alone. -/
theorem encode_of_decodeNew {make : BitOrder → Instr}
    (hmake : ∀ order, encode (make order) = packWord op order.field 0 0 0) (hrsv : Word.rsv w = 0)
    (hop : Word.op w = op) (h : decodeNew make w = .ok i) : encode i = w := by
  unfold decodeNew at h
  split_ifs at h with htw hlen hbit
  cases h
  have hw := packWord_fields hrsv
  rw [hmake, field_orderOfField]
  rwa [hop, not_not.mp htw, not_not.mp hlen, not_not.mp hbit] at hw

/-- A word that the arm of RD and WR accepts is packed from its OP, its width and its LEN. -/
theorem encode_of_decodeCursor {make : Width → BitVec 8 → Instr}
    (hmake : ∀ width len, encode (make width len) = packWord op 0 width.field len 0) (hrsv : Word.rsv w = 0)
    (hop : Word.op w = op) (h : decodeCursor make w = .ok i) : encode i = w := by
  unfold decodeCursor at h
  split_ifs at h with hord hbit
  split at h
  · cases h
  next width hwidth =>
    cases h
    have hw := packWord_fields hrsv
    rw [hmake, field_of_widthOfField hwidth]
    rwa [hop, not_not.mp hord, not_not.mp hbit] at hw

/-- A word that the arm of RD.AT and WR.AT accepts is packed from all its fields. -/
theorem encode_of_decodeAt {make : BitOrder → Width → BitVec 8 → BitVec 3 → Instr}
    (hmake : ∀ order width len bit, encode (make order width len bit) = packWord op order.field width.field len bit)
    (hrsv : Word.rsv w = 0) (hop : Word.op w = op) (h : decodeAt make w = .ok i) : encode i = w := by
  unfold decodeAt at h
  split at h
  · cases h
  next width hwidth =>
    cases h
    rw [hmake, field_orderOfField, field_of_widthOfField hwidth, ← hop]
    exact packWord_fields hrsv

/-- A word that the arm of DROP accepts is packed from its OP alone. -/
theorem encode_of_decodeDrop (hrsv : Word.rsv w = 0) (hop : Word.op w = 0x7) (h : decodeDrop w = .ok i) :
    encode i = w := by
  unfold decodeDrop at h
  split_ifs at h with hord htw hlen hbit
  cases h
  have hw := packWord_fields hrsv
  rwa [hop, not_not.mp hord, not_not.mp htw, not_not.mp hlen, not_not.mp hbit] at hw

theorem encode_of_decode (h : decode w = .ok i) : encode i = w := by
  unfold decode at h
  split_ifs at h with hrsv h1 h2 h3 h4 h5 h6 h7 h8
  · exact encode_of_decodeNew (fun _ => rfl) (not_not.mp hrsv) h1 h
  · exact encode_of_decodeNew (fun _ => rfl) (not_not.mp hrsv) h2 h
  · exact encode_of_decodeCursor (fun _ _ => rfl) (not_not.mp hrsv) h3 h
  · exact encode_of_decodeCursor (fun _ _ => rfl) (not_not.mp hrsv) h4 h
  · exact encode_of_decodeAt (fun _ _ _ _ => rfl) (not_not.mp hrsv) h5 h
  · exact encode_of_decodeAt (fun _ _ _ _ => rfl) (not_not.mp hrsv) h6 h
  · exact encode_of_decodeDrop (not_not.mp hrsv) h7 h

/-- Decoder and encoder are inverse to each other between the instructions and the legal words. -/
theorem decode_eq_ok_iff : decode w = .ok i ↔ encode i = w :=
  ⟨encode_of_decode, fun h => h ▸ decode_encode i⟩

end EncodeDecoded

/-! ### The rows of the opcode map by fields (R50 to R55, R59) -/

/-- The opcode of a mnemonic (R50). -/
def Mnemonic.opcode : Mnemonic → BitVec 4
  | .rdNew => 0x1
  | .wrNew => 0x2
  | .rd    => 0x3
  | .wr    => 0x4
  | .rdAt  => 0x5
  | .wrAt  => 0x6
  | .drop  => 0x7

/-- The mnemonics that use ORD (R51). -/
def Mnemonic.usesOrder : Mnemonic → Bool
  | .rdNew => true
  | .wrNew => true
  | .rd    => false
  | .wr    => false
  | .rdAt  => true
  | .wrAt  => true
  | .drop  => false

/-- The mnemonics that use BIT (R54). -/
def Mnemonic.usesBit : Mnemonic → Bool
  | .rdNew => false
  | .wrNew => false
  | .rd    => false
  | .wr    => false
  | .rdAt  => true
  | .wrAt  => true
  | .drop  => false

/-- The fields of `w` are those of a command of mnemonic `m`: RSV is 0, OP is its opcode, a field it does not use is 0,
and TW names a width where it uses one (R50 to R55). It uses LEN exactly when it uses TW. -/
structure Mnemonic.Fields (m : Mnemonic) (w : Word) : Prop where
  rsv : Word.rsv w = 0
  op  : Word.op w = m.opcode
  ord : m.usesOrder = true ∨ Word.ord w = 0
  tw  : m.usesWidth = true ∨ Word.tw w = 0
  len : m.usesWidth = true ∨ Word.len w = 0
  bit : m.usesBit = true ∨ Word.bit w = 0
  width : m.usesWidth = true → (Word.tw w).toNat ≤ 4

/-- The mask of a row covers RSV, OP and the fields the mnemonic does not use (R59). -/
theorem Mnemonic.mask_fields (m : Mnemonic) :
    Word.rsv m.mask = BitVec.allOnes 13 ∧ Word.op m.mask = BitVec.allOnes 4 ∧
    Word.ord m.mask = (if m.usesOrder then 0 else BitVec.allOnes 1) ∧
    Word.tw m.mask = (if m.usesWidth then 0 else BitVec.allOnes 3) ∧
    Word.len m.mask = (if m.usesWidth then 0 else BitVec.allOnes 8) ∧
    Word.bit m.mask = (if m.usesBit then 0 else BitVec.allOnes 3) := by
  cases m <;> decide

/-- The pattern of a row is its opcode (R59). -/
theorem Mnemonic.pattern_fields (m : Mnemonic) :
    Word.rsv m.pattern = 0 ∧ Word.op m.pattern = m.opcode ∧ Word.ord m.pattern = 0 ∧ Word.tw m.pattern = 0 ∧
    Word.len m.pattern = 0 ∧ Word.bit m.pattern = 0 := by
  cases m <;> decide

/-- A field under a mask that covers it unless it is used: where the masked bits are 0, it is used or 0. -/
theorem used_or_eq_zero {n : Nat} {x : BitVec n} {used : Bool}
    (h : x &&& (if used then 0 else BitVec.allOnes n) = 0) : used = true ∨ x = 0 := by
  cases used with
  | true => exact .inl rfl
  | false => exact .inr (BitVec.and_allOnes.symm.trans h)

theorem Mnemonic.selectedBy_iff {m : Mnemonic} {w : Word} :
    m.selectedBy w = true ↔ w &&& m.mask = m.pattern ∧ (m.usesWidth = true → (Word.tw w).toNat ≤ 4) := by
  cases hu : m.usesWidth <;> simp [Mnemonic.selectedBy, hu]

section And
variable (v w : Word)

theorem Word.rsv_and : Word.rsv (v &&& w) = Word.rsv v &&& Word.rsv w := BitVec.extractLsb'_and
theorem Word.op_and : Word.op (v &&& w) = Word.op v &&& Word.op w := BitVec.extractLsb'_and
theorem Word.ord_and : Word.ord (v &&& w) = Word.ord v &&& Word.ord w := BitVec.extractLsb'_and
theorem Word.tw_and : Word.tw (v &&& w) = Word.tw v &&& Word.tw w := BitVec.extractLsb'_and
theorem Word.len_and : Word.len (v &&& w) = Word.len v &&& Word.len w := BitVec.extractLsb'_and
theorem Word.bit_and : Word.bit (v &&& w) = Word.bit v &&& Word.bit w := BitVec.extractLsb'_and

end And

theorem Mnemonic.fields_of_selectedBy {m : Mnemonic} {w : Word} (h : m.selectedBy w = true) : m.Fields w := by
  obtain ⟨hbits, hwidth⟩ := Mnemonic.selectedBy_iff.mp h
  obtain ⟨mrsv, mop, mord, mtw, mlen, mbit⟩ := m.mask_fields
  obtain ⟨prsv, pop, pord, ptw, plen, pbit⟩ := m.pattern_fields
  constructor
  case rsv => rw [← prsv, ← hbits, Word.rsv_and, mrsv, BitVec.and_allOnes]
  case op => rw [← pop, ← hbits, Word.op_and, mop, BitVec.and_allOnes]
  case ord => exact used_or_eq_zero (by rw [← mord, ← Word.ord_and, hbits, pord])
  case tw => exact used_or_eq_zero (by rw [← mtw, ← Word.tw_and, hbits, ptw])
  case len => exact used_or_eq_zero (by rw [← mlen, ← Word.len_and, hbits, plen])
  case bit => exact used_or_eq_zero (by rw [← mbit, ← Word.bit_and, hbits, pbit])
  case width => exact hwidth

/-- The instruction of mnemonic `m` with the fields it uses. -/
def Mnemonic.instr (m : Mnemonic) (order : BitOrder) (width : Width) (len : BitVec 8) (bit : BitVec 3) : Instr :=
  match m with
  | .rdNew => .rdNew order
  | .wrNew => .wrNew order
  | .rd    => .rd width len
  | .wr    => .wr width len
  | .rdAt  => .rdAt order width len bit
  | .wrAt  => .wrAt order width len bit
  | .drop  => .drop

theorem Mnemonic.mnemonic_instr (m : Mnemonic) (order : BitOrder) (width : Width) (len : BitVec 8) (bit : BitVec 3) :
    (m.instr order width len bit).mnemonic = m := by cases m <;> rfl

/-- A word holds its opcode and the fields its mnemonic uses, and 0 elsewhere. -/
theorem Mnemonic.encode_instr (m : Mnemonic) (order : BitOrder) (width : Width) (len : BitVec 8) (bit : BitVec 3) :
    encode (m.instr order width len bit) =
      packWord m.opcode (if m.usesOrder then order.field else 0) (if m.usesWidth then width.field else 0)
        (if m.usesWidth then len else 0) (if m.usesBit then bit else 0) := by
  cases m <;> rfl

theorem ite_used {n : Nat} {x : BitVec n} {used : Bool} (h : used = true ∨ x = 0) : (if used then x else 0) = x := by
  obtain rfl | rfl := h <;> simp

/-- A word whose fields are those of a command of mnemonic `m` is the word of one. -/
theorem Mnemonic.Fields.exists_encode {m : Mnemonic} {w : Word} (h : m.Fields w) :
    ∃ i, encode i = w ∧ i.mnemonic = m := by
  have htw : ∃ width : Width, (if m.usesWidth then width.field else 0) = Word.tw w := by
    obtain hu | hzero := h.tw
    · obtain ⟨width, hwidth⟩ := Option.isSome_iff_exists.mp
        ((widthOfField_isSome (Word.tw w)).trans (decide_eq_true (h.width hu)))
      exact ⟨width, by rw [if_pos hu, field_of_widthOfField hwidth]⟩
    · exact ⟨.w8, by rw [hzero]; exact ite_self _⟩
  obtain ⟨width, htw⟩ := htw
  refine ⟨m.instr (orderOfField (Word.ord w)) width (Word.len w) (Word.bit w), ?_, m.mnemonic_instr ..⟩
  rw [Mnemonic.encode_instr, field_orderOfField, ite_used h.ord, htw, ite_used h.len, ite_used h.bit, ← h.op]
  exact packWord_fields h.rsv

/-- Every instruction's word selects the row of its mnemonic. -/
theorem Instr.selectedBy_encode (i : Instr) : i.mnemonic.selectedBy (encode i) = true := by
  cases i with
  | rdNew order => exact Laws.SelectsOwnRow.rdNew order
  | wrNew order => exact Laws.SelectsOwnRow.wrNew order
  | rd width len => exact Laws.SelectsOwnRow.rd width len
  | wr width len => exact Laws.SelectsOwnRow.wr width len
  | rdAt order width len bit => exact Laws.SelectsOwnRow.rdAt order width len bit
  | wrAt order width len bit => exact Laws.SelectsOwnRow.wrAt order width len bit
  | drop => exact Laws.SelectsOwnRow.drop

/-- A word decodes to mnemonic `m` exactly when it selects the row of `m` (R59). -/
theorem Mnemonic.selectedBy_iff_decode {m : Mnemonic} {w : Word} :
    m.selectedBy w = true ↔ ∃ i, decode w = .ok i ∧ i.mnemonic = m := by
  simp only [decode_eq_ok_iff]
  constructor
  · exact fun h => (Mnemonic.fields_of_selectedBy h).exists_encode
  · rintro ⟨i, rfl, rfl⟩
    exact i.selectedBy_encode

/-- A word decodes to mnemonic `m` exactly when its fields are those of `m` (R50 to R55). -/
theorem Mnemonic.fields_iff_decode {m : Mnemonic} {w : Word} :
    m.Fields w ↔ ∃ i, decode w = .ok i ∧ i.mnemonic = m := by
  constructor
  · simpa only [decode_eq_ok_iff] using Mnemonic.Fields.exists_encode
  · exact fun h => Mnemonic.fields_of_selectedBy (Mnemonic.selectedBy_iff_decode.mpr h)

/-- A word is illegal exactly when its fields are those of no mnemonic. -/
theorem decode_error_iff {w : Word} : (∃ e, decode w = .error e) ↔ ∀ m : Mnemonic, ¬ m.Fields w := by
  constructor
  · rintro ⟨e, he⟩ m hm
    obtain ⟨i, hi, -⟩ := Mnemonic.fields_iff_decode.mp hm
    cases he.symm.trans hi
  · intro h
    cases hd : decode w with
    | error e => exact ⟨e, rfl⟩
    | ok i => exact absurd (Mnemonic.fields_iff_decode.mpr ⟨i, hd, rfl⟩) (h i.mnemonic)

/-- An opcode is that of a mnemonic, or 0, or reserved (R50, R61). -/
theorem opcode_cases (op : BitVec 4) : (op = 0 ∨ 8 ≤ op.toNat) ∨ ∃ m : Mnemonic, op = m.opcode := by
  by_cases h : op = 0 ∨ 8 ≤ op.toNat
  · exact .inl h
  · right
    obtain h | h | h | h | h | h | h : op = 1 ∨ op = 2 ∨ op = 3 ∨ op = 4 ∨ op = 5 ∨ op = 6 ∨ op = 7 := by bv_omega
    · exact ⟨.rdNew, h⟩
    · exact ⟨.wrNew, h⟩
    · exact ⟨.rd, h⟩
    · exact ⟨.wr, h⟩
    · exact ⟨.rdAt, h⟩
    · exact ⟨.wrAt, h⟩
    · exact ⟨.drop, h⟩

theorem Mnemonic.opcode_range (m : Mnemonic) : ¬ (m.opcode = 0 ∨ 8 ≤ m.opcode.toNat) := by cases m <;> decide

theorem Mnemonic.opcode_injective {m m' : Mnemonic} (h : m.opcode = m'.opcode) : m = m' := by
  revert h; cases m <;> cases m' <;> decide

section OpcodeUses
variable (m : Mnemonic)

theorem Mnemonic.opcode_usesWidth :
    (m.opcode = 3 ∨ m.opcode = 4 ∨ m.opcode = 5 ∨ m.opcode = 6) ↔ m.usesWidth = true := by cases m <;> decide

theorem Mnemonic.opcode_not_usesWidth :
    (m.opcode = 1 ∨ m.opcode = 2 ∨ m.opcode = 7) ↔ m.usesWidth = false := by cases m <;> decide

theorem Mnemonic.opcode_not_usesOrder :
    (m.opcode = 3 ∨ m.opcode = 4 ∨ m.opcode = 7) ↔ m.usesOrder = false := by cases m <;> decide

theorem Mnemonic.opcode_not_usesBit :
    (m.opcode = 1 ∨ m.opcode = 2 ∨ m.opcode = 3 ∨ m.opcode = 4 ∨ m.opcode = 7) ↔ m.usesBit = false := by
  cases m <;> decide

end OpcodeUses

/-- The cases of R60. -/
def Word.Illegal (w : Word) : Prop :=
  (Word.op w = 0 ∨ 8 ≤ (Word.op w).toNat) ∨ Word.rsv w ≠ 0 ∨
    ((Word.op w = 3 ∨ Word.op w = 4 ∨ Word.op w = 5 ∨ Word.op w = 6) ∧ 5 ≤ (Word.tw w).toNat) ∨
    ((Word.op w = 3 ∨ Word.op w = 4 ∨ Word.op w = 7) ∧ Word.ord w ≠ 0) ∨
    ((Word.op w = 1 ∨ Word.op w = 2 ∨ Word.op w = 7) ∧ (Word.tw w ≠ 0 ∨ Word.len w ≠ 0)) ∨
    ((Word.op w = 1 ∨ Word.op w = 2 ∨ Word.op w = 3 ∨ Word.op w = 4 ∨ Word.op w = 7) ∧ Word.bit w ≠ 0)

/-- With the opcode of `m`, a word is in one of R60's cases exactly when its fields are not those of `m`. -/
theorem Mnemonic.illegal_iff {m : Mnemonic} {w : Word} (h : Word.op w = m.opcode) : Word.Illegal w ↔ ¬ m.Fields w := by
  have hf : m.Fields w ↔ Word.rsv w = 0 ∧ (m.usesOrder = true ∨ Word.ord w = 0) ∧
      (m.usesWidth = true ∨ Word.tw w = 0) ∧ (m.usesWidth = true ∨ Word.len w = 0) ∧
      (m.usesBit = true ∨ Word.bit w = 0) ∧ (m.usesWidth = true → (Word.tw w).toNat ≤ 4) :=
    ⟨fun ⟨hr, _, ho, ht, hl, hb, hw⟩ => ⟨hr, ho, ht, hl, hb, hw⟩,
     fun ⟨hr, ho, ht, hl, hb, hw⟩ => ⟨hr, h, ho, ht, hl, hb, hw⟩⟩
  rw [hf, Word.Illegal, h, m.opcode_not_usesBit, m.opcode_usesWidth, m.opcode_not_usesOrder,
    m.opcode_not_usesWidth]
  have hrange := m.opcode_range
  grind

/-- A word is illegal exactly in the cases of R60. -/
theorem decode_error_iff_illegal {w : Word} : (∃ e, decode w = .error e) ↔ Word.Illegal w := by
  rw [decode_error_iff]
  obtain hop | ⟨m, hop⟩ := opcode_cases (Word.op w)
  · exact ⟨fun _ => .inl hop, fun _ m hm => m.opcode_range (hm.op ▸ hop)⟩
  · rw [Mnemonic.illegal_iff hop]
    exact ⟨fun h => h m, fun h m' hm' => h (Mnemonic.opcode_injective (hm'.op.symm.trans hop) ▸ hm')⟩

/-! ### The assembler (R64) -/

section Wires
variable {addrW n : Nat}

theorem addressFits_iff : addressFits addrW n = true ↔ n < 2 ^ addrW := decide_eq_true_iff
theorem lenEncodable_iff : lenEncodable n = true ↔ n < 256 := decide_eq_true_iff
theorem bitEncodable_iff : bitEncodable n = true ↔ n < 8 := decide_eq_true_iff
theorem dinFits_iff : dinFits n = true ↔ n < 2 ^ 128 := decide_eq_true_iff

end Wires

section LineWf
variable {addrW : Nat} {order : BitOrder} {width : Width} {base blen byte bit len din : Nat}

theorem AsmLine.wf_rdNew :
    (AsmLine.rdNew order base blen).wf addrW = true ↔ base < 2 ^ addrW ∧ blen < 2 ^ addrW := by
  simp only [AsmLine.wf, Bool.and_eq_true, addressFits_iff]

theorem AsmLine.wf_wrNew :
    (AsmLine.wrNew order base blen).wf addrW = true ↔ base < 2 ^ addrW ∧ blen < 2 ^ addrW := by
  simp only [AsmLine.wf, Bool.and_eq_true, addressFits_iff]

theorem AsmLine.wf_rd : (AsmLine.rd width len).wf addrW = true ↔ len < 256 := lenEncodable_iff

theorem AsmLine.wf_wr : (AsmLine.wr width len din).wf addrW = true ↔ len < 256 ∧ din < 2 ^ 128 := by
  simp only [AsmLine.wf, Bool.and_eq_true, lenEncodable_iff, dinFits_iff]

theorem AsmLine.wf_rdAt :
    (AsmLine.rdAt width order base blen byte bit len).wf addrW = true ↔
      base < 2 ^ addrW ∧ blen < 2 ^ addrW ∧ byte < 2 ^ addrW ∧ bit < 8 ∧ len < 256 := by
  simp only [AsmLine.wf, Bool.and_eq_true, addressFits_iff, bitEncodable_iff, lenEncodable_iff, and_assoc]

theorem AsmLine.wf_wrAt :
    (AsmLine.wrAt width order base blen byte bit len din).wf addrW = true ↔
      base < 2 ^ addrW ∧ blen < 2 ^ addrW ∧ byte < 2 ^ addrW ∧ bit < 8 ∧ len < 256 ∧ din < 2 ^ 128 := by
  simp only [AsmLine.wf, Bool.and_eq_true, addressFits_iff, bitEncodable_iff, lenEncodable_iff, dinFits_iff, and_assoc]

end LineWf

/-- The numbers of a well-formed line fit the ADDR_W wires; a number it does not write is 0. -/
theorem AsmLine.operands_fit {addrW : Nat} {l : AsmLine} (h : l.wf addrW = true) :
    l.operands.fit addrW = true := by
  have zero : 0 < 2 ^ addrW := Nat.two_pow_pos addrW
  rw [Machine.Operands.fit_iff]
  cases l with
  | rdNew => obtain ⟨hbase, hblen⟩ := AsmLine.wf_rdNew.mp h; exact ⟨hbase, hblen, zero⟩
  | wrNew => obtain ⟨hbase, hblen⟩ := AsmLine.wf_wrNew.mp h; exact ⟨hbase, hblen, zero⟩
  | rd => exact ⟨zero, zero, zero⟩
  | wr => exact ⟨zero, zero, zero⟩
  | rdAt => obtain ⟨hbase, hblen, hbyte, -⟩ := AsmLine.wf_rdAt.mp h; exact ⟨hbase, hblen, hbyte⟩
  | wrAt => obtain ⟨hbase, hblen, hbyte, -⟩ := AsmLine.wf_wrAt.mp h; exact ⟨hbase, hblen, hbyte⟩
  | drop => exact ⟨zero, zero, zero⟩

theorem AsmLine.assemble_of_wf {addrW : Nat} {l : AsmLine} (h : l.wf addrW = true) :
    l.assemble addrW = some { word := encode l.instr, operands := l.operands } := if_pos h

theorem AsmLine.assemble_of_not_wf {addrW : Nat} {l : AsmLine} (h : l.wf addrW = false) :
    l.assemble addrW = none := if_neg (by rw [h]; decide)

end Sys2Proof

namespace Sys2Proof.Machine

/-! ### Performing a command word (R48, R60, R62) -/

/-- A command whose operand values fit runs its word, with the move taken off (30_encoding.md R48, R56). -/
theorem step_command {s : State} {n : Nat} {c : Command} {rest : List Input} (hi : s.inputs = .command n c :: rest)
    (hfit : c.operands.fit s.config.addrW = true) :
    step s = runWord c.word { s with inputs := rest, cur := n, port := c.operands } := by
  rw [step_cons hi]
  exact if_pos hfit

theorem runWord_of_ok {w : Word} {i : Instr} (h : decode w = .ok i) (s : State) : runWord w s = exec i s := by
  rw [runWord, h]

theorem runWord_of_error {w : Word} {e : DecodeError} (h : decode w = .error e) (s : State) :
    runWord w s = performIllegal s := by
  rw [runWord, h]

/-- An illegal word changes nothing at a ready unit but the list of responses (60_exceptions.md R111). -/
theorem performIllegal_ready {s : State} {u : Bcu} (h : s.ready s.cur u) :
    performIllegal s = .next { s with responses := (s.cur, bareResponse .illegalCommand) :: s.responses } := by
  rw [performIllegal, perform_ready h _ rfl, State.commit]
  have hunits : s.units.set s.cur u = s.units := by
    obtain ⟨hlt, rfl⟩ := List.getElem?_eq_some_iff.mp h.1
    exact List.set_getElem_self hlt
  rw [illegalCommand, hunits]

/-! ### The statements -/

/-- Settles O2, arm by arm of the decoder, from the fields of a packed word. -/
theorem decodeInvertsEncode : Obligations.DecodeInvertsEncode := by
  unfold Obligations.DecodeInvertsEncode
  exact decode_encode

/-- Settles O3: each arm of the decoder accepts only words packed from the fields it reads. -/
theorem encodeInvertsDecode : Obligations.EncodeInvertsDecode := by
  unfold Obligations.EncodeInvertsDecode
  exact fun w i => encode_of_decode

/-- Settles O4: a row is selected exactly by the words of its mnemonic, and two rows have two opcodes. -/
theorem wordsSelectTheirDecodedRow : Obligations.WordsSelectTheirDecodedRow := by
  unfold Obligations.WordsSelectTheirDecodedRow
  refine ⟨fun w m => Mnemonic.selectedBy_iff_decode, fun w m m' h h' => ?_⟩
  exact Mnemonic.opcode_injective
    ((Mnemonic.fields_of_selectedBy h).op.symm.trans (Mnemonic.fields_of_selectedBy h').op)

/-- Settles O5: R60 lists the words whose fields are those of no mnemonic, and such a word leaves its unit as it was. -/
theorem illegalWordsAreAnsweredAndChangeNothing : Obligations.IllegalWordsAreAnsweredAndChangeNothing := by
  unfold Obligations.IllegalWordsAreAnsweredAndChangeNothing
  refine ⟨fun w => decode_error_iff_illegal, fun s n u c rest e hi hu hfit he => ?_⟩
  rw [step_command hi hfit, runWord_of_error he, performIllegal_ready hu]
  rfl

/-- Settles O6: the numbers of a well-formed line are the values of its fields and wires. -/
theorem assembledLinesDecodeToThemselves : Obligations.AssembledLinesDecodeToThemselves := by
  unfold Obligations.AssembledLinesDecodeToThemselves
  have value {n x : Nat} (h : x < 2 ^ n) : (BitVec.ofNat n x).toNat = x :=
    (BitVec.toNat_ofNat x n).trans (Nat.mod_eq_of_lt h)
  intro addrW
  refine ⟨fun l => ⟨AsmLine.assemble_of_not_wf, fun h => ⟨_, AsmLine.assemble_of_wf h, decode_encode _, rfl,
    AsmLine.operands_fit h⟩⟩, ?rdNew, ?wrNew, ?rd, ?wr, ?rdAt, ?wrAt, ?drop⟩
  case rdNew => exact fun o base blen => ⟨AsmLine.wf_rdNew, rfl, rfl⟩
  case wrNew => exact fun o base blen => ⟨AsmLine.wf_wrNew, rfl, rfl⟩
  case rd => exact fun w len => ⟨AsmLine.wf_rd, fun hl => ⟨_, rfl, value hl⟩, rfl⟩
  case wr => exact fun w len din => ⟨AsmLine.wf_wr, fun hl => ⟨_, rfl, value hl⟩, fun hd => ⟨_, value hd, rfl⟩⟩
  case rdAt =>
    exact fun w o base blen byte bit len =>
      ⟨AsmLine.wf_rdAt, fun hb hl => ⟨_, _, rfl, value hl, value hb⟩, rfl⟩
  case wrAt =>
    exact fun w o base blen byte bit len din =>
      ⟨AsmLine.wf_wrAt, fun hb hl => ⟨_, _, rfl, value hl, value hb⟩, fun hd => ⟨_, value hd, rfl⟩⟩
  case drop => exact ⟨rfl, rfl, rfl⟩

/-- Settles O1: R66's lines and words evaluated; where DIN is open, it is the value of its own number. -/
theorem specExampleLinesAssembleAndDecode : Obligations.SpecExampleLinesAssembleAndDecode := by
  unfold Obligations.SpecExampleLinesAssembleAndDecode
  have hdin (din : Data) : BitVec.ofNat 128 din.toNat = din := by simp
  have hwr (din : Data) : (AsmLine.wr .w128 128 din.toNat).assemble 16 =
      some { word := 0x00008084, operands := { Operands.zero with din := din } } := by
    rw [AsmLine.assemble_of_wf (AsmLine.wf_wr.mpr ⟨by decide, din.isLt⟩), AsmLine.operands, hdin]
    rfl
  have hwrAt (din : Data) : (AsmLine.wrAt .w16 .msb0 0 4 1 3 12 din.toNat).assemble 16 =
      some { word := 0x00030C36, operands := { base := 0, blen := 4, byte := 1, din := din } } := by
    rw [AsmLine.assemble_of_wf (AsmLine.wf_wrAt.mpr ⟨by decide, by decide, by decide, by decide, by decide, din.isLt⟩),
      AsmLine.operands, hdin]
    rfl
  exact ⟨by decide, by decide, by decide, by decide, hwr, by decide, hwrAt, by decide, by decide⟩

/-- Settles O7: the command fits its wires and decodes, so the move runs its instruction. -/
theorem stepRunsTheDecodedCommand : Obligations.StepRunsTheDecodedCommand := by
  unfold Obligations.StepRunsTheDecodedCommand
  intro s n c rest i hi hfit hd
  rw [step_command hi hfit, runWord_of_ok hd]

end Sys2Proof.Machine
end

section
/-! PROOFS. The integer datapath primitives (40_bit_slice.md): the laws of a bit slice inside its precondition, the
saturating shifts on each side of the width, and the low byte. -/

namespace Sys2Proof.Machine

/-! ### Bit slices (40_bit_slice.md R67, R68) -/

section Slice
variable {W start stop : Nat} (x v : Nat) (h : start ≤ stop ∧ stop ≤ W)
include h

theorem getBitSlice_setBitSlice_same :
    getBitSlice W (setBitSlice W x start stop v) start stop = v % 2 ^ (stop - start) := by
  apply Nat.eq_of_testBit_eq; intro i
  rw [getBitSlice_testBit _ h, setBitSlice_testBit _ _ h, Nat.testBit_mod_two_pow]
  by_cases hi : i < stop - start
  · rw [if_pos (by omega), Nat.add_sub_cancel_left]
  · simp [hi]

theorem getBitSlice_setBitSlice_disjoint {start' stop' : Nat} (h' : start' ≤ stop' ∧ stop' ≤ W)
    (hd : stop' ≤ start ∨ stop ≤ start') :
    getBitSlice W (setBitSlice W x start stop v) start' stop' = getBitSlice W x start' stop' := by
  apply Nat.eq_of_testBit_eq; intro i
  rw [getBitSlice_testBit _ h', getBitSlice_testBit _ h', setBitSlice_testBit _ _ h]
  by_cases hi : i < stop' - start'
  · rw [if_neg (by omega)]
  · simp [hi]

/-- Setting a slice to the bits that stand there changes nothing. -/
theorem setBitSlice_eq_self {x v : Nat} (hv : ∀ i, start ≤ i → i < stop → v.testBit (i - start) = x.testBit i) :
    setBitSlice W x start stop v = x := by
  apply Nat.eq_of_testBit_eq; intro i
  rw [setBitSlice_testBit _ _ h]
  split
  next hi => exact hv i hi.1 hi.2
  next => rfl

theorem setBitSlice_getBitSlice : setBitSlice W x start stop (getBitSlice W x start stop) = x :=
  setBitSlice_eq_self h fun i hlo hhi => by
    rw [getBitSlice_testBit _ h, Nat.add_sub_cancel' hlo, decide_eq_true (by omega), Bool.true_and]

/-- A set slice stays inside the width: from bit `W` on, the bits are those of the operand. -/
theorem setBitSlice_lt {x : Nat} (hx : x < 2 ^ W) : setBitSlice W x start stop v < 2 ^ W := by
  refine Nat.lt_pow_two_of_testBit _ fun i hi => ?_
  rw [setBitSlice_testBit _ _ h, if_neg (by omega)]
  exact Nat.testBit_lt_two_pow (Nat.lt_of_lt_of_le hx (Nat.pow_le_pow_right (by decide) hi))

end Slice

theorem getBitSlice_empty {W start : Nat} (x : Nat) (h : start ≤ W) : getBitSlice W x start start = 0 := by
  rw [getBitSlice, if_pos ⟨Nat.le_refl _, h⟩, Nat.sub_self, Nat.pow_zero, Nat.mod_one]

theorem setBitSlice_empty {W start : Nat} (x v : Nat) (h : start ≤ W) : setBitSlice W x start start v = x :=
  setBitSlice_eq_self ⟨Nat.le_refl _, h⟩ fun _ hlo hhi => absurd hhi (Nat.not_lt_of_le hlo)

theorem getBitSlice_whole {W x : Nat} (hx : x < 2 ^ W) : getBitSlice W x 0 W = x := by
  rw [getBitSlice, if_pos ⟨Nat.zero_le _, Nat.le_refl _⟩, Nat.pow_zero, Nat.div_one, Nat.sub_zero, Nat.mod_eq_of_lt hx]

theorem setBitSlice_whole {W x v : Nat} (hx : x < 2 ^ W) (hv : v < 2 ^ W) : setBitSlice W x 0 W v = v := by
  have h : 0 ≤ W ∧ W ≤ W := ⟨Nat.zero_le _, Nat.le_refl _⟩
  calc setBitSlice W x 0 W v
      = getBitSlice W (setBitSlice W x 0 W v) 0 W := (getBitSlice_whole (setBitSlice_lt v h hx)).symm
    _ = v % 2 ^ W := getBitSlice_setBitSlice_same x v h
    _ = v := Nat.mod_eq_of_lt hv

/-- Settles O49: the slice laws bit by bit; the whole slice is set by what it reads back. -/
theorem bitSlicesAreSetAndReadBack : Obligations.BitSlicesAreSetAndReadBack := by
  unfold Obligations.BitSlicesAreSetAndReadBack
  intro W x v start stop hx hle hstop
  have h : start ≤ stop ∧ stop ≤ W := ⟨hle, hstop⟩
  have hstart : start ≤ W := Nat.le_trans hle hstop
  exact ⟨getBitSlice_setBitSlice_same x v h, setBitSlice_getBitSlice x h, setBitSlice_lt v h hx,
    fun _ _ hle' hstop' => getBitSlice_setBitSlice_disjoint x v h ⟨hle', hstop'⟩,
    getBitSlice_empty x hstart, setBitSlice_empty x v hstart, getBitSlice_whole hx, setBitSlice_whole hx⟩

/-! ### Shifts and the low byte (40_bit_slice.md R69 to R71) -/

section Shift
variable {W n : Nat} (x : Nat)

theorem satShiftLeft_of_le (h : W ≤ n) : satShiftLeft W x n = 0 := if_pos h

theorem satShiftRight_of_le (h : W ≤ n) : satShiftRight W x n = 0 := if_pos h

theorem satShiftLeft_of_lt (h : n < W) : satShiftLeft W x n = (x <<< n) % 2 ^ W := by
  rw [satShiftLeft, if_neg (Nat.not_le_of_lt h), Nat.shiftLeft_eq]

theorem satShiftRight_of_lt (h : n < W) : satShiftRight W x n = x >>> n := by
  rw [satShiftRight, if_neg (Nat.not_le_of_lt h), Nat.shiftRight_eq_div_pow]

end Shift

theorem lowByte_toNat (x : Nat) : (lowByte x).toNat = x % 256 := BitVec.toNat_ofNat x 8

/-- Settles O50, from the shifts on each side of the width; the rules' examples are evaluated. -/
theorem shiftsSaturateAtTheWidth : Obligations.ShiftsSaturateAtTheWidth := by
  unfold Obligations.ShiftsSaturateAtTheWidth
  exact ⟨fun _ x _ h => ⟨satShiftLeft_of_le x h, satShiftRight_of_le x h⟩,
    fun _ x _ h => ⟨satShiftLeft_of_lt x h, satShiftRight_of_lt x h⟩, lowByte_toNat,
    by decide, by decide, by decide, by decide, by decide⟩

end Sys2Proof.Machine
end

section
/-! PROOFS. The bit-order paths (41_bit_order.md): a written field reads back as the value's low bits, a value read has
no bit from `len` up, a write path looks at no bit of DIN from `len` up, and a write that runs off its buffer keeps its
first chunks. -/

namespace Sys2Proof.Machine

/-! ### A written field, read back (R88, R90) -/

theorem fieldPosition_bounds (order : BitOrder) (P : Nat) {len j : Nat} (h : j < len) :
    P ≤ fieldPosition order P len j ∧ fieldPosition order P len j < P + len := by
  cases order with
  | lsb0 => simp only [fieldPosition]; omega
  | msb0 => simp only [fieldPosition]; omega

/-- The value of a field written whole is the low `len` bits written. -/
theorem FieldWritten.fieldValue_eq {order : BitOrder} {m m' : Memory} {base P len top : Nat} {din : Data}
    (h : FieldWritten order m m' base P len top din) (htop : P + len ≤ top) :
    fieldValue order m' base P len = din.toNat % 2 ^ len := by
  obtain ⟨-, hfield, -⟩ := h
  apply Nat.eq_of_testBit_eq; intro j
  rw [fieldValue_testBit, Nat.testBit_mod_two_pow]
  by_cases hj : j < len
  · obtain ⟨-, hhi⟩ := fieldPosition_bounds order P hj
    rw [hfield j hj (by omega), BitVec.testBit_toNat]
  · simp [hj]

/-- Settles O45: the read path answers the value of the field that the write path has written. -/
theorem readPathReadsBackWhatWritePathWrote : Obligations.ReadPathReadsBackWhatWritePathWrote := by
  unfold Obligations.ReadPathReadsBackWhatWritePathWrote
  intro who who' order base blen byte0 bit0 len v width bus hm hb hlen hW hv hfit
  have hdin : (BitVec.ofNat 128 v).toNat = v := by
    have hW' := Nat.pow_le_pow_right (n := 2) (by decide) (Nat.le_trans hW (Width.bits_le width))
    exact (BitVec.toNat_ofNat v 128).trans (Nat.mod_eq_of_lt (Nat.lt_of_lt_of_le hv hW'))
  have hfield := writePath_fieldWritten who order base blen byte0 bit0 len width.bits (BitVec.ofNat 128 v) bus
    ⟨hlen, hW⟩ hb hm
  rw [readPath_spec _ _ _ _ _ _ _ _ _ ⟨hlen, hW⟩ hb, if_pos hfit, hfield.fieldValue_eq hfit, hdin,
    Nat.mod_eq_of_lt hv]

/-! ### The values read (R83) -/

/-- A value that a read path returns has no bit from `len` up. -/
theorem readPath_ok_lt {who : Agent} {order : BitOrder} {base blen byte0 bit0 len W v : Nat} {bus : Bus}
    (hb : bit0 < 8) (h : (readPath who order base blen byte0 bit0 len W bus).1 = .ok v) : v < 2 ^ len := by
  rw [readPath_answer who order base blen byte0 bit0 len W bus hb] at h
  cases hc : entryChecks len W with
  | some e => rw [hc] at h; cases h
  | none =>
    simp only [hc] at h
    split at h
    · cases h; exact fieldValue_lt _ _ _ _ _
    · cases h

theorem withPosition_dout (issuer : Issuer) (ctx : Context) (r : Response) :
    (withPosition issuer ctx r).dout = r.dout := by
  cases issuer <;> rfl

theorem errorResponse_dout (e : PathError) : (errorResponse e).dout = 0 := by cases e <;> rfl

/-- DOUT of a read command: 0 on an error, and the value, zero-extended, on success. -/
theorem endRead_dout (issuer : Issuer) (u : Bcu) (b : Bus) (len : Nat) (r : Except PathError Nat) :
    (endRead issuer u b len r).response.dout = 0 ∨
      ∃ v, r = .ok v ∧ (endRead issuer u b len r).response.dout = BitVec.ofNat 128 v := by
  cases r with
  | error e => rw [endRead_error, withPosition_dout, errorResponse_dout]; exact .inl rfl
  | ok v => exact .inr ⟨v, rfl, by cases issuer <;> rfl⟩

/-- DOUT of a command that stores nothing and moves the field `x` has no bit from the field's length up. -/
theorem CommandEffect.dout_lt {s : State} {u : Bcu} {i : Instr} {e : Effect} {x : Coordinates}
    (h : CommandEffect s u i e) (hi : stores i = false) (hx : coordinatesOf u s.port i = some x) :
    e.response.dout.toNat < 2 ^ x.len.toNat := by
  have zero : (0 : Data).toNat < 2 ^ x.len.toNat := Nat.two_pow_pos _
  cases h with
  | faulted => exact zero
  | illegal => exact zero
  | overflow => exact zero
  | bindReader => exact zero
  | bindWriter => exact zero
  | drop => exact zero
  | read _ y _ _ hy =>
    obtain rfl : x = y := Option.some.inj (hx.symm.trans hy)
    obtain h0 | ⟨v, hv, hdout⟩ := endRead_dout (issuerOf i) u (x.readPath (.unit s.cur) s.bus).2 x.len.toNat
      (x.readPath (.unit s.cur) s.bus).1
    · rw [h0]; exact zero
    · rw [hdout, BitVec.toNat_ofNat]
      exact Nat.lt_of_le_of_lt (Nat.mod_le _ _) (readPath_ok_lt x.bit0.isLt hv)
  | write _ _ _ _ _ hs => rw [hi] at hs; cases hs

/-- Settles O46: a value read is a field's value, and DOUT is that value or 0. -/
theorem readValuesLieBelowTwoToTheLen : Obligations.ReadValuesLieBelowTwoToTheLen := by
  unfold Obligations.ReadValuesLieBelowTwoToTheLen
  refine ⟨fun _ _ _ _ _ _ _ _ _ _ _ hb h => readPath_ok_lt hb (congrArg Prod.fst h),
    fun i s t len r hi h hr => ?_⟩
  obtain ⟨u, e, -, -, he, rfl⟩ := exec_next h
  obtain rfl : e.response = r := by
    rw [State.commit_responses] at hr
    exact congrArg Prod.snd (List.head_eq_of_cons_eq hr)
  obtain ⟨width, rfl⟩ | ⟨order, width, bit, rfl⟩ := hi
  · exact he.dout_lt rfl rfl
  · exact he.dout_lt rfl rfl

/-! ### The bits of DIN that a write path looks at (R84) -/

/-- Two values that agree on a slice's bits have the same slice. -/
theorem getBitSlice_congr {W start stop x y : Nat} (h : start ≤ stop ∧ stop ≤ W)
    (hxy : ∀ j < stop, x.testBit j = y.testBit j) : getBitSlice W x start stop = getBitSlice W y start stop := by
  apply Nat.eq_of_testBit_eq; intro i
  rw [getBitSlice_testBit _ h, getBitSlice_testBit _ h]
  by_cases hi : i < stop - start
  · rw [hxy _ (by omega)]
  · simp [hi]

section LowBits
variable {order : BitOrder} {W rem chunk val val' : Nat} (hc : chunk ≤ rem)
  (hlow : ∀ j < rem, val.testBit j = val'.testBit j)
include hc hlow

/-- A chunk's byte depends on the `rem` low bits of the value alone. -/
theorem writeByte_congr (hW : rem ≤ W) (b : Byte) (bit : Nat) :
    writeByte order W b bit chunk rem val = writeByte order W b bit chunk rem val' := by
  cases order with
  | lsb0 =>
    simp only [writeByte, lsb0WriteByte]
    rw [getBitSlice_congr ⟨Nat.zero_le _, by omega⟩ fun j hj => hlow j (by omega)]
  | msb0 =>
    simp only [writeByte, msb0WriteByte]
    rw [getBitSlice_congr ⟨Nat.sub_le _ _, hW⟩ hlow]

/-- After a chunk, the two values agree on the bits that are left. -/
theorem writeVal_congr (hv : val < 2 ^ W) (hv' : val' < 2 ^ W) :
    ∀ j < rem - chunk, (writeVal order W chunk val).testBit j = (writeVal order W chunk val').testBit j := by
  intro j hj
  cases order with
  | lsb0 =>
    simp only [writeVal]
    rw [satShiftRight_testBit hv, satShiftRight_testBit hv', hlow _ (by omega)]
  | msb0 => exact hlow j (by omega)

end LowBits

/-- A write loop with `rem` bits left depends on the `rem` low bits of its value alone, for every memory. -/
theorem writeLoop_congr (who : Agent) (order : BitOrder) (base blen W : Nat) :
    ∀ (fuel rem byte bit val val' : Nat) (bus : Bus), bit < 8 → rem ≤ W → val < 2 ^ W → val' < 2 ^ W →
    (∀ j < rem, val.testBit j = val'.testBit j) →
    writeLoop who order base blen W fuel rem byte bit val bus =
      writeLoop who order base blen W fuel rem byte bit val' bus := by
  intro fuel
  induction fuel with
  | zero => intros; rfl
  | succ fuel ih =>
    intro rem byte bit val val' bus hb hW hv hv' hlow
    rw [writeLoop, writeLoop]
    split
    next => rfl
    next hr =>
      split
      next => rfl
      next =>
        obtain ⟨-, hc, -⟩ := chunkSize_bounds (Nat.pos_of_ne_zero hr) hb
        simp only [writeByte_congr hc hlow hW]
        exact ih _ _ _ _ _ _ (advance_snd_lt _ _ _) (by omega) (writeVal_lt hv _) (writeVal_lt hv' _)
          (writeVal_congr hc hlow hv hv')

/-- A write path depends on DIN's bits [len-1:0] alone, for every memory and every outcome. -/
theorem writePath_congr (who : Agent) (order : BitOrder) (base blen byte0 : Nat) {bit0 len W : Nat} {din din' : Data}
    (bus : Bus) (hb : bit0 < 8) (hlow : ∀ j < len, din.getLsbD j = din'.getLsbD j) :
    writePath who order base blen byte0 bit0 len W din bus =
      writePath who order base blen byte0 bit0 len W din' bus := by
  rw [writePath, writePath]
  cases hc : entryChecks len W with
  | some e => rfl
  | none =>
    obtain ⟨-, hW⟩ := entryChecks_eq_none hc
    refine writeLoop_congr _ _ _ _ _ _ _ _ _ _ _ _ hb hW (Nat.mod_lt _ (Nat.two_pow_pos W))
      (Nat.mod_lt _ (Nat.two_pow_pos W)) fun j hj => ?_
    rw [Nat.testBit_mod_two_pow, Nat.testBit_mod_two_pow, BitVec.testBit_toNat, BitVec.testBit_toNat, hlow j hj]

/-- Settles O47: the field takes DIN's low bits, and the chunk loop looks at no others. -/
theorem writePathIgnoresDinFromLenUp : Obligations.WritePathIgnoresDinFromLenUp := by
  unfold Obligations.WritePathIgnoresDinFromLenUp
  intro who order base blen byte0 bit0 len width din bus hb
  refine ⟨fun hlen hW hfit hm => ?_, fun din' hlow => writePath_congr who order base blen byte0 bus hb hlow⟩
  obtain ⟨m', -, -, -, hfield, hpath⟩ := writePath_spec who order base blen byte0 bit0 len width.bits din bus
    ⟨hlen, hW⟩ hb hm
  rw [if_pos hfit] at hpath
  exact ⟨_, hpath, hfield⟩

/-! ### A write that runs off its buffer (R86, R89) -/

/-- A write path whose field does not lie inside the buffer leaves written what lies below the buffer's end, and answers
BufferExhausted. -/
theorem writePath_exhausted (who : Agent) (order : BitOrder) {base blen byte0 bit0 len W : Nat} (din : Data) {bus : Bus}
    (hm : Memory.wf bus.mem = true) (hl : 1 ≤ len ∧ len ≤ W) (hb : bit0 < 8)
    (hover : 8 * blen < 8 * byte0 + bit0 + len) :
    ∃ m', Memory.wf m' = true ∧
      FieldWritten order bus.mem m' base (8 * byte0 + bit0) len (8 * blen) din ∧
      (∀ a, ¬ (base + byte0 ≤ a ∧ a < base + blen) → Memory.get m' a = Memory.get bus.mem a) ∧
      writePath who order base blen byte0 bit0 len W din bus = (.error .bufferExhausted,
        { mem := m', log := writeRun who bus.mem m' (base + byte0) (blen - byte0) ++ bus.log }) := by
  obtain ⟨m', hwf, -, hframe, hfield, hpath⟩ := writePath_spec who order base blen byte0 bit0 len W din bus hl hb hm
  rw [if_neg (by omega)] at hpath
  exact ⟨m', hwf, hfield, hframe, hpath⟩

/-- Settles O22: WR and WR.AT end as their exhausted write path does, with the cursor and with no position. -/
theorem exhaustedWritesKeepTheirFirstChunks : Obligations.ExhaustedWritesKeepTheirFirstChunks := by
  unfold Obligations.ExhaustedWritesKeepTheirFirstChunks
  intro width len s u hready hm hlen hW
  refine ⟨fun hvalid hrole hdesc hover => ?_, fun order bit hdesc hover => ?_⟩
  · obtain ⟨m', hwf, hfield, hframe, hpath⟩ := writePath_exhausted (.unit s.cur) u.ctx.order s.port.din hm
      ⟨hlen, hW⟩ u.ctx.bitIndex.isLt hover
    refine ⟨m', hwf, hfield, hframe, ?_⟩
    rw [exec_wr_ready hready hvalid hrole hdesc, hpath, endWrite_error]
    rfl
  · obtain ⟨m', hwf, hfield, hframe, hpath⟩ := writePath_exhausted (.unit s.cur) order s.port.din hm
      ⟨hlen, hW⟩ bit.isLt hover
    refine ⟨m', hwf, hfield, hframe, ?_⟩
    rw [exec_wrAt_ready hready hdesc, hpath, endWrite_error]
    rfl

end Sys2Proof.Machine
end

section
/-! PROOFS. The cursor reader and writer (42_cursor.md): binding and releasing a context, a field moved at the cursor, and
how far the cursor moves. -/

namespace Sys2Proof.Machine

/-! ### Binding and releasing (R93, R94, R97) -/

section Binding
variable {s : State} {u : Bcu} {order : BitOrder}

theorem exec_rdNew_ready (hr : s.ready s.cur u) (hd : s.port.base + s.port.blen ≤ s.config.space) :
    exec (.rdNew order) s = .next (s.commit s.cur
      { unit := { u with ctx := Context.bind .reader order s.port.base s.port.blen }, bus := s.bus
        response := bareResponse .ok }) := by
  rw [exec, execRdNew, perform_ready hr _ rfl, bindContext_fits hd]

theorem exec_wrNew_ready (hr : s.ready s.cur u) (hd : s.port.base + s.port.blen ≤ s.config.space) :
    exec (.wrNew order) s = .next (s.commit s.cur
      { unit := { u with ctx := Context.bind .writer order s.port.base s.port.blen }, bus := s.bus
        response := bareResponse .ok }) := by
  rw [exec, execWrNew, perform_ready hr _ rfl, bindContext_fits hd]

theorem exec_drop_ready (hr : s.ready s.cur u) (hv : u.ctx.valid = true) :
    exec .drop s = .next (s.commit s.cur
      { unit := { u with ctx := Context.reset }, bus := s.bus, response := bareResponse .ok }) := by
  rw [exec, execDrop, perform_ready hr _ (if_pos hv)]
end Binding

/-- Settles O10: the descriptor check passes, and the new context does not depend on the old one. -/
theorem newBindsAReaderOrWriterAtTheStart : Obligations.NewBindsAReaderOrWriterAtTheStart := by
  unfold Obligations.NewBindsAReaderOrWriterAtTheStart
  exact fun order s u hready hdesc => ⟨exec_rdNew_ready hready hdesc, exec_wrNew_ready hready hdesc⟩

/-- Settles O11: a bound context passes the only check DROP makes. -/
theorem dropGivesTheContextItsResetValues : Obligations.DropGivesTheContextItsResetValues := by
  unfold Obligations.DropGivesTheContextItsResetValues
  exact fun s u hready hvalid => exec_drop_ready hready hvalid

/-! ### A field inside its buffer (41_bit_order.md R85 to R88) -/

/-- A read path whose field lies inside the buffer returns the field's value and reads each of its bytes once. -/
theorem readPath_inside (who : Agent) (order : BitOrder) {base blen byte0 bit0 len W : Nat} (bus : Bus)
    (hl : 1 ≤ len ∧ len ≤ W) (hb : bit0 < 8) (hin : 8 * byte0 + bit0 + len ≤ 8 * blen) :
    readPath who order base blen byte0 bit0 len W bus =
      (.ok (fieldValue order bus.mem base (8 * byte0 + bit0) len),
        { bus with log := readRun who bus.mem (base + byte0) (chunkCount bit0 len) ++ bus.log }) := by
  rw [readPath_spec who order base blen byte0 bit0 len W bus hl hb, if_pos hin]

/-- A write path whose field lies inside the buffer leaves the field written, its bytes alone touched, and reads and then
writes each of them once. -/
theorem writePath_inside (who : Agent) (order : BitOrder) {base blen byte0 bit0 len W : Nat} (din : Data) {bus : Bus}
    (hm : Memory.wf bus.mem = true) (hl : 1 ≤ len ∧ len ≤ W) (hb : bit0 < 8)
    (hin : 8 * byte0 + bit0 + len ≤ 8 * blen) :
    ∃ m', Memory.wf m' = true ∧
      FieldWritten order bus.mem m' base (8 * byte0 + bit0) len (8 * blen) din ∧
      (∀ a, ¬ (base + byte0 ≤ a ∧ a < base + byte0 + chunkCount bit0 len) → Memory.get m' a = Memory.get bus.mem a) ∧
      writePath who order base blen byte0 bit0 len W din bus = (.ok (),
        { mem := m', log := writeRun who bus.mem m' (base + byte0) (chunkCount bit0 len) ++ bus.log }) := by
  obtain ⟨m', hwf, -, -, hfield, hpath⟩ := writePath_spec who order base blen byte0 bit0 len W din bus hl hb hm
  rw [if_pos hin] at hpath
  exact ⟨m', hwf, hfield, fun a => hfield.frame, hpath⟩

/-- Settles O16: RD ends as its read path does, which finds the field inside the buffer. -/
theorem rdReadsTheFieldAndAdvances : Obligations.RdReadsTheFieldAndAdvances := by
  unfold Obligations.RdReadsTheFieldAndAdvances
  intro width len s u hready hvalid hrole hdesc hlen hW hin
  rw [exec_rd_ready hready hvalid hrole hdesc,
    readPath_inside (.unit s.cur) u.ctx.order s.bus ⟨hlen, hW⟩ u.ctx.bitIndex.isLt hin]
  rfl

/-- Settles O17: WR ends as its write path does, which finds the field inside the buffer. -/
theorem wrWritesTheFieldAndAdvances : Obligations.WrWritesTheFieldAndAdvances := by
  unfold Obligations.WrWritesTheFieldAndAdvances
  intro width len s u hready hm hvalid hrole hdesc hlen hW hin
  obtain ⟨m', hwf, hfield, hframe, hpath⟩ := writePath_inside (.unit s.cur) u.ctx.order s.port.din hm ⟨hlen, hW⟩
    u.ctx.bitIndex.isLt hin
  refine ⟨m', hwf, hfield, hframe, ?_⟩
  rw [exec_wr_ready hready hvalid hrole hdesc, hpath]
  rfl

/-! ### How far the cursor moves (R98) -/

/-- An effect on the unit `u` that answers OK moves the cursor forward by `len` bits, and one that answers an error keeps
it. -/
structure Effect.AdvancesOnOk (u : Bcu) (len : Nat) (e : Effect) : Prop where
  ok    : e.response.status = .ok → e.unit.ctx.position = u.ctx.position + len
  error : e.response.status ≠ .ok → e.unit.ctx.position = u.ctx.position

/-- An error that keeps the context. -/
theorem Effect.AdvancesOnOk.of_error {u : Bcu} {len : Nat} {e : Effect} (hs : e.response.status ≠ .ok)
    (hc : e.unit.ctx = u.ctx) : e.AdvancesOnOk u len :=
  ⟨fun h => absurd h hs, fun _ => congrArg Context.position hc⟩

/-- A success that advances the context. -/
theorem Effect.AdvancesOnOk.of_ok {u : Bcu} {len : Nat} {e : Effect} (hs : e.response.status = .ok)
    (hc : e.unit.ctx = u.ctx.advance len) : e.AdvancesOnOk u len :=
  ⟨fun _ => (congrArg Context.position hc).trans (Context.position_advance u.ctx len), fun h => absurd hs h⟩

theorem errorResponse_status_ne_ok (e : PathError) : (errorResponse e).status ≠ .ok := by cases e <;> nofun

theorem endRead_advancesOnOk (u : Bcu) (b : Bus) (len : Nat) (r : Except PathError Nat) :
    (endRead .cursor u b len r).AdvancesOnOk u len := by
  cases r with
  | error e => exact .of_error (errorResponse_status_ne_ok e) rfl
  | ok v => exact .of_ok rfl rfl

theorem endWrite_advancesOnOk (u : Bcu) (b : Bus) (len : Nat) (r : Except PathError Unit) :
    (endWrite .cursor u b len r).AdvancesOnOk u len := by
  cases r with
  | error e => exact .of_error (errorResponse_status_ne_ok e) rfl
  | ok _ => exact .of_ok rfl rfl

section Effects
variable {s : State} {u : Bcu} {i : Instr} {e : Effect}

/-- A command that moves a field at the cursor advances it by the field's length, if at all. -/
theorem CommandEffect.advancesOnOk {x : Coordinates} (h : CommandEffect s u i e) (hi : issuerOf i = .cursor)
    (hx : coordinatesOf u s.port i = some x) : e.AdvancesOnOk u x.len.toNat := by
  cases h with
  | faulted => exact .of_error nofun rfl
  | illegal => exact .of_error nofun rfl
  | overflow => exact .of_error nofun rfl
  | bindReader => cases hx
  | bindWriter => cases hx
  | drop => cases hx
  | read _ y _ _ hy =>
    obtain rfl : x = y := Option.some.inj (hx.symm.trans hy)
    rw [hi]
    exact endRead_advancesOnOk ..
  | write _ y _ _ hy =>
    obtain rfl : x = y := Option.some.inj (hx.symm.trans hy)
    rw [hi]
    exact endWrite_advancesOnOk ..

/-- A command that moves no field (RD.NEW, WR.NEW, DROP) leaves the cursor at position 0 when it answers OK. -/
theorem CommandEffect.position_eq_zero (h : CommandEffect s u i e) (hx : coordinatesOf u s.port i = none)
    (hok : e.response.status = .ok) : e.unit.ctx.position = 0 := by
  cases h with
  | faulted => cases hok
  | illegal => cases hok
  | overflow => cases hok
  | bindReader => rfl
  | bindWriter => rfl
  | drop => rfl
  | read _ y _ _ hy => rw [hx] at hy; cases hy
  | write _ y _ _ hy => rw [hx] at hy; cases hy

/-- The unit and the response that an instruction leaves are those of one effect on the unit it was sent to. -/
theorem exec_answer {t : State} {u' : Bcu} {r : Response} (hu : s.units[s.cur]? = some u) (h : exec i s = .next t)
    (hu' : t.units[s.cur]? = some u') (hr : t.responses = (s.cur, r) :: s.responses) :
    ∃ e, CommandEffect s u i e ∧ e.unit = u' ∧ e.response = r := by
  obtain ⟨v, e, hv, -, he, rfl⟩ := exec_next h
  obtain rfl : u = v := Option.some.inj (hu.symm.trans hv)
  rw [State.commit_units, List.getElem?_set_self', hu] at hu'
  exact ⟨e, he, Option.some.inj hu', congrArg Prod.snd (List.head_eq_of_cons_eq hr)⟩
end Effects

/-- A unit that a move leaves bound was bound before, at this position or an earlier one, or is newly bound, at position 0. -/
theorem UnitEffect.position {c : Config} {i : Input} {n : Nat} {u u' : Bcu} (h : UnitEffect c i n u u')
    (hv : u'.ctx.valid = true) :
    (u.ctx.valid = true ∧ u.ctx.position ≤ u'.ctx.position) ∨
    ((∃ order, i.sends n = some (.rdNew order) ∨ i.sends n = some (.wrNew order)) ∧ u'.ctx.position = 0) := by
  cases h with
  | kept _ hc hf => rw [hc] at hv ⊢; exact .inl ⟨hv, Nat.le_refl _⟩
  | overflowed _ instr hi hn ho hc hf => rw [hc] at hv ⊢; exact .inl ⟨hv, Nat.le_refl _⟩
  | bound _ role order hi hc hf => rw [hc]; exact .inr ⟨⟨order, hi⟩, rfl⟩
  | dropped _ hi hc hf => rw [hc] at hv; cases hv
  | advanced _ k hc hf =>
    rw [hc] at hv ⊢
    exact .inl ⟨hv, by rw [Context.position_advance]; exact Nat.le_add_right _ _⟩
  | reset hi => cases hv

/-- Settles O28: the first two clauses from the effect of a command, the last two from that of a move on a unit. -/
theorem positionAdvancesByExactlyLen : Obligations.PositionAdvancesByExactlyLen := by
  unfold Obligations.PositionAdvancesByExactlyLen
  refine ⟨?byLen, ?start, ?monotone, ?bound⟩
  case byLen =>
    intro width len i s t u u' r hi hu h hu' hr
    obtain ⟨e, he, rfl, rfl⟩ := exec_answer hu h hu' hr
    have hadv : e.AdvancesOnOk u len.toNat := by
      rcases hi with rfl | rfl <;> exact he.advancesOnOk rfl rfl
    exact ⟨hadv.ok, hadv.error⟩
  case start =>
    intro order i s t u' r hi h hu' hr hok
    obtain ⟨u, -, hu, -⟩ := exec_next h
    obtain ⟨e, he, rfl, rfl⟩ := exec_answer hu h hu' hr
    exact he.position_eq_zero (by rcases hi with rfl | rfl <;> rfl) hok
  case monotone =>
    intro s t i rest n u u' hi h hu hu' _ hv' hr hw
    rcases (step_unit hi h hu hu').position hv' with ⟨-, hle⟩ | ⟨⟨order, hnew⟩, -⟩
    · exact hle
    · exact (hnew.elim (hr order) (hw order)).elim
  case bound =>
    intro s t i rest n u u' hi h hu hu' hv hv'
    rcases (step_unit hi h hu hu').position hv' with ⟨hv1, -⟩ | hnew
    · rw [hv] at hv1; cases hv1
    · exact hnew

end Sys2Proof.Machine
end

section
/-! PROOFS. The stateless strategy commands (43_free.md): a field moved at the operands' position, and the independence of
these commands from the context. -/

namespace Sys2Proof.Machine

/-! ### A field inside the operands' buffer (R102 to R104) -/

/-- Settles O18: RD.AT ends as its read path does, which finds the field inside the operands' buffer. -/
theorem rdAtReadsTheField : Obligations.RdAtReadsTheField := by
  unfold Obligations.RdAtReadsTheField
  intro order width len bit s u hready hdesc hlen hW hin
  rw [exec_rdAt_ready hready hdesc, readPath_inside (.unit s.cur) order s.bus ⟨hlen, hW⟩ bit.isLt hin]
  rfl

/-- Settles O19: WR.AT ends as its write path does, which finds the field inside the operands' buffer. -/
theorem wrAtWritesTheField : Obligations.WrAtWritesTheField := by
  unfold Obligations.WrAtWritesTheField
  intro order width len bit s u hready hm hdesc hlen hW hin
  obtain ⟨m', hwf, hfield, hframe, hpath⟩ := writePath_inside (.unit s.cur) order s.port.din hm ⟨hlen, hW⟩ bit.isLt hin
  refine ⟨m', hwf, hfield, hframe, ?_⟩
  rw [exec_wrAt_ready hready hdesc, hpath]
  rfl

/-! ### The context is not written (R105) -/

/-- A free command leaves every context register of its unit. -/
theorem UnitAfter.ctx_of_free {s : State} {u u' : Bcu} {i : Instr} (h : UnitAfter s u i u')
    (hi : issuerOf i = .free) : u'.ctx = u.ctx := by
  cases h with
  | kept => rfl
  | overflowed => rfl
  | bound i role order hnew => rcases hnew with rfl | rfl <;> cases hi
  | dropped => cases hi
  | advanced i k hcursor =>
    obtain ⟨width, len, rfl | rfl⟩ := hcursor <;> cases hi

/-! ### The context is not read (R105) -/

/-- Two effects that differ in the unit they leave at most: the same response, the same memory, the same accesses. -/
structure Effect.SameAnswer (e e' : Effect) : Prop where
  response : e'.response = e.response
  bus      : e'.bus = e.bus

section SameAnswer
variable (u v : Bcu) (b : Bus) (len : Nat)

theorem fatalDescriptor_sameAnswer : (fatalDescriptor u b).SameAnswer (fatalDescriptor v b) := ⟨rfl, rfl⟩

theorem endRead_free_sameAnswer (r : Except PathError Nat) :
    (endRead .free u b len r).SameAnswer (endRead .free v b len r) := by
  cases r <;> exact ⟨rfl, rfl⟩

theorem endWrite_free_sameAnswer (r : Except PathError Unit) :
    (endWrite .free u b len r).SameAnswer (endWrite .free v b len r) := by
  cases r <;> exact ⟨rfl, rfl⟩
end SameAnswer

/-- Where a command answers on the unit `u`, it gives the same answer on a unit `v` put in its place, if the two agree in
all that `perform` looks at (the running command and FAULT) and the command's rule gives the same answer on both. -/
theorem perform_replaceUnit {s t : State} {u v : Bcu} {rule : Bcu → Host.Outcome Effect Fault Refusal}
    (hu : s.units[s.cur]? = some u) (hflight : v.inFlight = u.inFlight) (hfault : v.fault = u.fault)
    (hrule : ∃ e e', rule u = .next e ∧ rule v = .next e' ∧ e.SameAnswer e') (h : perform s rule = .next t) :
    ∃ t', perform { s with units := s.units.set s.cur v } rule = .next t' ∧ t'.responses = t.responses ∧
      t'.bus = t.bus := by
  have hv : (s.units.set s.cur v)[s.cur]? = some v :=
    List.getElem?_set_self (List.getElem?_eq_some_iff.mp hu).1
  obtain ⟨w, hw, hidle, hcase⟩ := perform_next h
  obtain rfl : u = w := Option.some.inj (hu.symm.trans hw)
  rcases hcase with ⟨hf, rfl⟩ | ⟨hf, d, hd, rfl⟩
  · exact ⟨_, perform_faulted hv (hflight.trans hidle) (hfault.trans hf) rule, rfl, rfl⟩
  · obtain ⟨e, e', he, he', hresponse, hbus⟩ := hrule
    obtain rfl : d = e := Host.Outcome.next.inj (hd.symm.trans he)
    exact ⟨_, perform_ready ⟨hv, hflight.trans hidle, hfault.trans hf⟩ rule he',
      congrArg (fun r => (s.cur, r) :: s.responses) hresponse, hbus⟩

/-- A free command answers the same whatever context its unit holds. -/
theorem exec_free_replaceContext {i : Instr} {s t : State} {u : Bcu} (hi : issuerOf i = .free)
    (hu : s.units[s.cur]? = some u) (h : exec i s = .next t) (ctx : Context) :
    ∃ t', exec i { s with units := s.units.set s.cur { u with ctx := ctx } } = .next t' ∧
      t'.responses = t.responses ∧ t'.bus = t.bus := by
  cases i with
  | rdAt order width len bit =>
    refine perform_replaceUnit hu rfl rfl ?_ h
    by_cases hd : descriptorFits s.config s.port.base s.port.blen
    · exact ⟨_, _, if_pos hd, if_pos hd, endRead_free_sameAnswer ..⟩
    · exact ⟨_, _, if_neg hd, if_neg hd, fatalDescriptor_sameAnswer ..⟩
  | wrAt order width len bit =>
    refine perform_replaceUnit hu rfl rfl ?_ h
    by_cases hd : descriptorFits s.config s.port.base s.port.blen
    · exact ⟨_, _, if_pos hd, if_pos hd, endWrite_free_sameAnswer ..⟩
    · exact ⟨_, _, if_neg hd, if_neg hd, fatalDescriptor_sameAnswer ..⟩
  | rdNew => cases hi
  | wrNew => cases hi
  | rd => cases hi
  | wr => cases hi
  | drop => cases hi

/-- Settles O29: what the command writes from what it leaves of its unit, what it reads from a run with another context. -/
theorem freeCommandsAreStateless : Obligations.FreeCommandsAreStateless := by
  unfold Obligations.FreeCommandsAreStateless
  intro i s t u hi hu h
  have hfree : issuerOf i = .free := by
    rcases hi with ⟨_, _, _, _, rfl⟩ | ⟨_, _, _, _, rfl⟩ <;> rfl
  refine ⟨?writes, exec_free_replaceContext hfree hu h⟩
  case writes =>
    obtain ⟨v, e, hv, -, he, rfl⟩ := exec_next h
    obtain rfl : u = v := Option.some.inj (hu.symm.trans hv)
    have hunit : (s.commit s.cur e).units[s.cur]? = some e.unit :=
      List.getElem?_set_self (List.getElem?_eq_some_iff.mp hu).1
    exact ⟨e.unit, hunit, he.unitAfter.ctx_of_free hfree, fun hf => (he.unitAfter.fault hf).2⟩

end Sys2Proof.Machine
end

section
/-! PROOFS. The statuses of a command (60_exceptions.md): each error in full, the order of priority, what an error
leaves unchanged, and the units' independence of each other. -/

namespace Sys2Proof.Machine

/-! ### Errors before a command's own rule (R111 to R114) -/

/-- A command that leaves its unit and the bus as they were changes the list of responses alone. -/
theorem State.commit_unchanged {s : State} {n : Nat} {u : Bcu} (hu : s.units[n]? = some u) (r : Response) :
    s.commit n { unit := u, bus := s.bus, response := r } = { s with responses := (n, r) :: s.responses } := by
  obtain ⟨hlt, rfl⟩ := List.getElem?_eq_some_iff.mp hu
  rw [State.commit, List.set_getElem_self hlt]

/-- RD is in the wrong context state exactly when no reader is bound (R112). -/
theorem wrongContext_rd (u : Bcu) (width : Width) (len : BitVec 8) :
    wrongContext u (.rd width len) = !u.ctx.isBound .reader := by
  cases h : u.ctx.role <;> simp [wrongContext, Context.isBound, h]

/-- WR is in the wrong context state exactly when no writer is bound (R112). -/
theorem wrongContext_wr (u : Bcu) (width : Width) (len : BitVec 8) :
    wrongContext u (.wr width len) = !u.ctx.isBound .writer := by
  cases h : u.ctx.role <;> simp [wrongContext, Context.isBound, h]

/-- RD, WR and DROP in the wrong context state are answered ILLEGAL_COMMAND (R112). -/
theorem exec_wrongContext {s : State} {u : Bcu} {i : Instr} (hr : s.ready s.cur u) (hw : wrongContext u i = true) :
    exec i s = .next (s.commit s.cur (illegalCommand u s.bus)) := by
  cases i with
  | rd => exact perform_ready hr _ (if_neg (by simpa [wrongContext_rd] using hw))
  | wr => exact perform_ready hr _ (if_neg (by simpa [wrongContext_wr] using hw))
  | drop => exact perform_ready hr _ (if_neg (by simpa [wrongContext] using hw))
  | rdNew => cases hw
  | wrNew => cases hw
  | rdAt => cases hw
  | wrAt => cases hw

/-- A command that names a buffer past the top of the address space is answered FATAL (R113, cause 2). -/
theorem exec_overflow {s : State} {u : Bcu} {i : Instr} (hr : s.ready s.cur u) (hn : namesBuffer i = true)
    (ho : s.config.space < s.port.base + s.port.blen) :
    exec i s = .next (s.commit s.cur (fatalDescriptor u s.bus)) := by
  have hd : ¬ descriptorFits s.config s.port.base s.port.blen = true := by
    rw [descriptorFits_iff]
    exact Nat.not_le.mpr ho
  cases i with
  | rdNew => rw [exec, execRdNew, perform_ready hr _ rfl, bindContext_overflow ho]
  | wrNew => rw [exec, execWrNew, perform_ready hr _ rfl, bindContext_overflow ho]
  | rdAt => exact perform_ready hr _ (if_neg hd)
  | wrAt => exact perform_ready hr _ (if_neg hd)
  | rd => cases hn
  | wr => cases hn
  | drop => cases hn

/-- A unit with FAULT = 1 starts no chunk loop. -/
theorem transferOf_faulted {u : Bcu} (hf : u.fault = true) (c : Config) (o : Operands) (i : Instr) :
    transferOf c o u i = none := by
  cases h : transferOf c o u i with
  | none => rfl
  | some tr =>
    obtain ⟨hfault, -⟩ := transferOf_some h
    rw [hf] at hfault
    cases hfault

section Faulted
variable {s : State} {u : Bcu} (hu : s.units[s.cur]? = some u) (hidle : u.inFlight = none) (hf : u.fault = true)
include hu hidle hf

/-- A unit with FAULT = 1 changes nothing but the list of responses, whatever the instruction (R113, cause 1). -/
theorem exec_of_fault (i : Instr) :
    exec i s = .next { s with responses := (s.cur, bareResponse .fatal) :: s.responses } := by
  rw [exec_faulted i hu hidle hf, fatalFaulted, State.commit_unchanged hu]

theorem performIllegal_of_fault :
    performIllegal s = .next { s with responses := (s.cur, bareResponse .fatal) :: s.responses } := by
  rw [performIllegal, perform_faulted hu hidle hf, fatalFaulted, State.commit_unchanged hu]

theorem acceptInstr_of_fault (i : Instr) :
    acceptInstr i s = .next { s with responses := (s.cur, bareResponse .fatal) :: s.responses } := by
  rw [acceptInstr]
  simp only [hu, hidle, transferOf_faulted hf]
  exact exec_of_fault hu hidle hf i
end Faulted

/-- Settles O12: the context check fails, and the answer leaves the unit and the bus. -/
theorem wrongContextStateIsIllegal : Obligations.WrongContextStateIsIllegal := by
  unfold Obligations.WrongContextStateIsIllegal
  intro s u i hready hcase
  have hw : wrongContext u i = true := by
    rcases hcase with ⟨⟨width, len, rfl⟩, h | h⟩ | ⟨⟨width, len, rfl⟩, h | h⟩ | ⟨rfl, h⟩ <;> simp [wrongContext, h]
  rw [exec_wrongContext hready hw, illegalCommand, State.commit_unchanged hready.1]
  rfl

/-- Settles O13: the descriptor check of the four commands that name a buffer fails. -/
theorem overflowingDescriptorIsFatal : Obligations.OverflowingDescriptorIsFatal := by
  unfold Obligations.OverflowingDescriptorIsFatal
  intro s u i hready hover hcase
  have hn : namesBuffer i = true := by
    rcases hcase with ⟨_, rfl⟩ | ⟨_, rfl⟩ | ⟨_, _, _, _, rfl⟩ | ⟨_, _, _, _, rfl⟩ <;> rfl
  exact exec_overflow hready hn hover

/-- Settles O14: FAULT is looked at before anything else, in either form of a command. -/
theorem faultedUnitAnswersFatalToEveryWord : Obligations.FaultedUnitAnswersFatalToEveryWord := by
  unfold Obligations.FaultedUnitAnswersFatalToEveryWord
  intro s n u c rest hi hu hidle hf hfit
  rcases hi with hi | hi
  · rw [step_command hi hfit]
    cases hd : decode c.word with
    | ok i => rw [runWord_of_ok hd]; exact exec_of_fault hu hidle hf i
    | error e => rw [runWord_of_error hd]; exact performIllegal_of_fault hu hidle hf
  · rw [step_cons hi, move, moveAccept, if_pos hfit]
    cases hd : decode c.word with
    | ok i => exact acceptInstr_of_fault (s := State.present { s with inputs := rest } n c) hu hidle hf i
    | error e => exact performIllegal_of_fault (s := State.present { s with inputs := rest } n c) hu hidle hf

/-! ### Errors of the entry checks (R108, R110) -/

/-- A read path whose entry checks fail answers their error and makes no access (41_bit_order.md R77). -/
theorem readPath_refused {len W : Nat} {e : PathError} (h : entryChecks len W = some e) (who : Agent) (order : BitOrder)
    (base blen byte0 bit0 : Nat) (bus : Bus) :
    readPath who order base blen byte0 bit0 len W bus = (.error e, bus) := by
  rw [readPath, h]

/-- A write path whose entry checks fail answers their error and makes no access (41_bit_order.md R77). -/
theorem writePath_refused {len W : Nat} {e : PathError} (h : entryChecks len W = some e) (who : Agent)
    (order : BitOrder) (base blen byte0 bit0 : Nat) (din : Data) (bus : Bus) :
    writePath who order base blen byte0 bit0 len W din bus = (.error e, bus) := by
  rw [writePath, h]

/-- REQ carries the LEN of the word, which its field holds (30_encoding.md R57). -/
theorem errorResponse_widthExceeded (len : BitVec 8) (W : Nat) :
    errorResponse (.widthExceeded len.toNat W) =
      { status := .widthExceeded, dout := 0, req := len, twid := BitVec.ofNat 8 W, posByte := 0, posBit := 0 } := by
  rw [errorResponse, BitVec.ofNat_toNat, BitVec.setWidth_eq]
  rfl

section Refused
variable {s : State} {u : Bcu} {width : Width} {len : BitVec 8} {order : BitOrder} {bit : BitVec 3} {e : PathError}

theorem exec_rd_refused (he : entryChecks len.toNat width.bits = some e) (hr : s.ready s.cur u)
    (hv : u.ctx.valid = true) (hx : u.ctx.role = .reader) (hd : u.ctx.base + u.ctx.blen ≤ s.config.space) :
    exec (.rd width len) s = .next (s.commit s.cur
      { unit := u, bus := s.bus, response := withPosition .cursor u.ctx (errorResponse e) }) := by
  rw [exec_rd_ready hr hv hx hd, readPath_refused he, endRead_error]

theorem exec_wr_refused (he : entryChecks len.toNat width.bits = some e) (hr : s.ready s.cur u)
    (hv : u.ctx.valid = true) (hx : u.ctx.role = .writer) (hd : u.ctx.base + u.ctx.blen ≤ s.config.space) :
    exec (.wr width len) s = .next (s.commit s.cur
      { unit := u, bus := s.bus, response := withPosition .cursor u.ctx (errorResponse e) }) := by
  rw [exec_wr_ready hr hv hx hd, writePath_refused he, endWrite_error]

theorem exec_rdAt_refused (he : entryChecks len.toNat width.bits = some e) (hr : s.ready s.cur u)
    (hd : s.port.base + s.port.blen ≤ s.config.space) :
    exec (.rdAt order width len bit) s = .next (s.commit s.cur
      { unit := u, bus := s.bus, response := errorResponse e }) := by
  rw [exec_rdAt_ready hr hd, readPath_refused he, endRead_error, withPosition]

theorem exec_wrAt_refused (he : entryChecks len.toNat width.bits = some e) (hr : s.ready s.cur u)
    (hd : s.port.base + s.port.blen ≤ s.config.space) :
    exec (.wrAt order width len bit) s = .next (s.commit s.cur
      { unit := u, bus := s.bus, response := errorResponse e }) := by
  rw [exec_wrAt_ready hr hd, writePath_refused he, endWrite_error, withPosition]
end Refused

/-- Settles O20: each of the four data commands ends with the error of its entry checks, before any access. -/
theorem zeroLengthAndWidthErrorsChangeNothing : Obligations.ZeroLengthAndWidthErrorsChangeNothing := by
  unfold Obligations.ZeroLengthAndWidthErrorsChangeNothing
  intro width len s u hready
  have zero (h : len = 0) : entryChecks len.toNat width.bits = some .zeroLength := by
    rw [h]
    exact entryChecks_zero _
  have wide (h : width.bits < len.toNat) :
      entryChecks len.toNat width.bits = some (.widthExceeded len.toNat width.bits) := entryChecks_wide h
  refine ⟨fun hvalid hdesc => ⟨fun h => ⟨fun hrole => ?rdZero, fun hrole => ?wrZero⟩,
      fun h => ⟨fun hrole => ?rdWide, fun hrole => ?wrWide⟩⟩,
    fun hdesc order bit => ⟨fun h => ⟨?rdAtZero, ?wrAtZero⟩, fun h => ⟨?rdAtWide, ?wrAtWide⟩⟩⟩
  case rdZero => exact exec_rd_refused (zero h) hready hvalid hrole hdesc
  case wrZero => exact exec_wr_refused (zero h) hready hvalid hrole hdesc
  case rdAtZero => exact exec_rdAt_refused (zero h) hready hdesc
  case wrAtZero => exact exec_wrAt_refused (zero h) hready hdesc
  case rdWide => rw [exec_rd_refused (wide h) hready hvalid hrole hdesc, errorResponse_widthExceeded]; rfl
  case wrWide => rw [exec_wr_refused (wide h) hready hvalid hrole hdesc, errorResponse_widthExceeded]; rfl
  case rdAtWide => rw [exec_rdAt_refused (wide h) hready hdesc, errorResponse_widthExceeded]; rfl
  case wrAtWide => rw [exec_wrAt_refused (wide h) hready hdesc, errorResponse_widthExceeded]; rfl

/-! ### A read that runs off its buffer (R109) -/

/-- A read path whose field does not lie inside the buffer reads the bytes up to the buffer's end once each, and answers
BufferExhausted (41_bit_order.md R86, R87). -/
theorem readPath_exhausted (who : Agent) (order : BitOrder) {base blen byte0 bit0 len W : Nat} (bus : Bus)
    (hl : 1 ≤ len ∧ len ≤ W) (hb : bit0 < 8) (hover : 8 * blen < 8 * byte0 + bit0 + len) :
    readPath who order base blen byte0 bit0 len W bus = (.error .bufferExhausted,
      { bus with log := readRun who bus.mem (base + byte0) (blen - byte0) ++ bus.log }) := by
  rw [readPath_spec who order base blen byte0 bit0 len W bus hl hb, if_neg (Nat.not_le.mpr hover)]

/-- Settles O21: RD and RD.AT end as their exhausted read path does, with the cursor and with no position. -/
theorem exhaustedReadsKeepTheCursor : Obligations.ExhaustedReadsKeepTheCursor := by
  unfold Obligations.ExhaustedReadsKeepTheCursor
  intro width len s u hready hlen hW
  refine ⟨fun hvalid hrole hdesc hover => ?_, fun order bit hdesc hover => ?_⟩
  · rw [exec_rd_ready hready hvalid hrole hdesc,
      readPath_exhausted (.unit s.cur) u.ctx.order s.bus ⟨hlen, hW⟩ u.ctx.bitIndex.isLt hover, endRead_error]
    rfl
  · rw [exec_rdAt_ready hready hdesc,
      readPath_exhausted (.unit s.cur) order s.bus ⟨hlen, hW⟩ bit.isLt hover, endRead_error]
    rfl

/-! ### The status of a field (R108 to R110; 41_bit_order.md R77, R87) -/

/-- The status of a path's error (R108 to R110). -/
def PathError.status : PathError → Status
  | .zeroLength        => .zeroLength
  | .bufferExhausted   => .bufferExhausted
  | .widthExceeded _ _ => .widthExceeded

/-- The status of what a path answers. -/
def pathStatus {α : Type} : Except PathError α → Status
  | .ok _    => .ok
  | .error e => e.status

/-- The status of a path over the field `x`: its entry checks, then whether it lies inside its buffer. -/
def Coordinates.status (x : Coordinates) : Status :=
  match entryChecks x.len.toNat x.width.bits with
  | some e => e.status
  | none => if x.inBuffer then .ok else .bufferExhausted

theorem errorResponse_status (e : PathError) : (errorResponse e).status = e.status := by cases e <;> rfl

theorem PathError.status_ne_fatal (e : PathError) : e.status ≠ .fatal := by cases e <;> nofun

theorem endRead_status (issuer : Issuer) (u : Bcu) (b : Bus) (len : Nat) (r : Except PathError Nat) :
    (endRead issuer u b len r).response.status = pathStatus r := by
  cases r with
  | error e => rw [endRead_error, withPosition_status, errorResponse_status, pathStatus]
  | ok v => cases issuer <;> rfl

theorem endWrite_status (issuer : Issuer) (u : Bcu) (b : Bus) (len : Nat) (r : Except PathError Unit) :
    (endWrite issuer u b len r).response.status = pathStatus r := by
  cases r with
  | error e => rw [endWrite_error, withPosition_status, errorResponse_status, pathStatus]
  | ok v => cases issuer <;> rfl

namespace Coordinates
variable (x : Coordinates) (who : Agent) (din : Data) (b : Bus)

theorem inBuffer_iff : x.inBuffer = true ↔ 8 * x.byte0 + x.bit0.toNat + x.len.toNat ≤ 8 * x.blen := decide_eq_true_iff

theorem readPath_status : pathStatus (x.readPath who b).1 = x.status := by
  rw [Coordinates.readPath, readPath_answer _ _ _ _ _ _ _ _ _ x.bit0.isLt, Coordinates.status]
  cases entryChecks x.len.toNat x.width.bits with
  | some e => rfl
  | none => simp only [inBuffer_iff]; split <;> rfl

theorem writePath_status : pathStatus (x.writePath who din b).1 = x.status := by
  rw [Coordinates.writePath, writePath_answer _ _ _ _ _ _ _ _ _ _ x.bit0.isLt, Coordinates.status]
  cases entryChecks x.len.toNat x.width.bits with
  | some e => rfl
  | none => simp only [inBuffer_iff]; split <;> rfl

variable {x}

/-- A status other than OK and BUFFER_EXHAUSTED is an entry check's. -/
theorem entryChecks_of_status (hok : x.status ≠ .ok) (hex : x.status ≠ .bufferExhausted) :
    ∃ e, entryChecks x.len.toNat x.width.bits = some e := by
  cases h : entryChecks x.len.toNat x.width.bits with
  | some e => exact ⟨e, rfl⟩
  | none =>
    have hs : x.status = if x.inBuffer then .ok else .bufferExhausted := by rw [Coordinates.status, h]
    by_cases hin : x.inBuffer
    · exact absurd (hs.trans (if_pos hin)) hok
    · exact absurd (hs.trans (if_neg hin)) hex

theorem readPath_bus (hok : x.status ≠ .ok) (hex : x.status ≠ .bufferExhausted) : (x.readPath who b).2 = b := by
  obtain ⟨e, he⟩ := entryChecks_of_status hok hex
  rw [Coordinates.readPath, readPath_refused he]

theorem writePath_bus (hok : x.status ≠ .ok) (hex : x.status ≠ .bufferExhausted) :
    (x.writePath who din b).2 = b := by
  obtain ⟨e, he⟩ := entryChecks_of_status hok hex
  rw [Coordinates.writePath, writePath_refused he]
end Coordinates

/-! ### The order of priority, level by level (R114) -/

section Priority
variable {c : Config} {u : Bcu} {o : Operands} {w : Word} {i : Instr}

theorem statusOf_faulted (hf : u.fault = true) : statusOf c u o w = .fatal := if_pos hf

theorem statusOf_illegalWord {e : DecodeError} (hf : u.fault = false) (hd : decode w = .error e) :
    statusOf c u o w = .illegalCommand := by
  simp [statusOf, hf, hd]

theorem statusOf_wrongContext (hf : u.fault = false) (hd : decode w = .ok i) (hw : wrongContext u i = true) :
    statusOf c u o w = .illegalCommand := by
  simp [statusOf, hf, hd, hw]

/-- No command that names a buffer by its operands looks at the context state. -/
theorem wrongContext_of_namesBuffer (hn : namesBuffer i = true) : wrongContext u i = false := by
  obtain ⟨_, rfl⟩ | ⟨_, rfl⟩ | ⟨_, _, _, _, rfl⟩ | ⟨_, _, _, _, rfl⟩ := namesBuffer_cases hn <;> rfl

theorem statusOf_overflow (hf : u.fault = false) (hd : decode w = .ok i) (hn : namesBuffer i = true)
    (ho : c.space < o.base + o.blen) : statusOf c u o w = .fatal := by
  simp [statusOf, hf, hd, wrongContext_of_namesBuffer hn, hn, ho]

theorem statusOf_noField (hf : u.fault = false) (hd : decode w = .ok i) (hw : wrongContext u i = false)
    (ho : namesBuffer i = true → o.base + o.blen ≤ c.space) (hx : coordinatesOf u o i = none) :
    statusOf c u o w = .ok := by
  have hover : ¬ (namesBuffer i && decide (c.space < o.base + o.blen)) = true := by simpa using ho
  simp only [statusOf, hf, hd, hw, if_neg hover, hx, Bool.false_eq_true, if_false]

theorem statusOf_field {x : Coordinates} (hf : u.fault = false) (hd : decode w = .ok i)
    (hw : wrongContext u i = false) (ho : namesBuffer i = true → o.base + o.blen ≤ c.space)
    (hx : coordinatesOf u o i = some x) : statusOf c u o w = x.status := by
  have hover : ¬ (namesBuffer i && decide (c.space < o.base + o.blen)) = true := by simpa using ho
  simp only [statusOf, hf, hd, hw, if_neg hover, hx, Bool.false_eq_true, if_false]
  rw [Coordinates.status, entryChecks]
  by_cases hzero : x.len.toNat = 0
  · rw [if_pos hzero, if_pos hzero]; rfl
  · rw [if_neg hzero, if_neg hzero]
    by_cases hwide : x.width.bits < x.len.toNat
    · rw [if_pos hwide, if_pos hwide]; rfl
    · rw [if_neg hwide, if_neg hwide]

/-- The field of a command that names a buffer lies in the operands' buffer. -/
theorem descriptor_of_coordinatesOf {x : Coordinates} (hx : coordinatesOf u o i = some x)
    (hb : x.base + x.blen ≤ c.space) (hn : namesBuffer i = true) : o.base + o.blen ≤ c.space := by
  cases i with
  | rdAt => cases hx; exact hb
  | wrAt => cases hx; exact hb
  | rdNew => cases hx
  | wrNew => cases hx
  | rd => cases hn
  | wr => cases hn
  | drop => cases hn
end Priority

/-! ### What a command word does, by its status (R114 to R116) -/

/-- The effects a command word, legal or not, can have on unit `u` of state `s`. -/
inductive WordEffect (s : State) (u : Bcu) (w : Word) : Effect → Prop where
  | command (e : Effect) (i : Instr) (hd : decode w = .ok i) (he : CommandEffect s u i e) : WordEffect s u w e
  | faulted (h : u.fault = true) : WordEffect s u w (fatalFaulted u s.bus)
  | illegal (err : DecodeError) (h : u.fault = false) (hd : decode w = .error err) :
      WordEffect s u w (illegalCommand u s.bus)

/-- A command given whole stores one effect of its word, at the unit it was sent to. -/
theorem step_wordEffect {s t : State} {n : Nat} {u : Bcu} {c : Command} {rest : List Input}
    (hi : s.inputs = .command n c :: rest) (hu : s.units[n]? = some u) (h : step s = .next t) :
    ∃ e, WordEffect (State.present { s with inputs := rest } n c) u c.word e ∧
      t = (State.present { s with inputs := rest } n c).commit n e := by
  rw [step_cons hi] at h
  obtain ⟨-, ⟨i, hd, hx⟩ | ⟨err, hd, hx⟩⟩ := moveCommand_next h
  · obtain ⟨v, e, hv, -, he, rfl⟩ := exec_next hx
    obtain rfl : u = v := Option.some.inj (hu.symm.trans hv)
    exact ⟨e, .command e i hd he, rfl⟩
  · obtain ⟨v, e, hv, -, ⟨hf, rfl⟩ | ⟨hf, rfl⟩, rfl⟩ := performIllegal_next hx
    · obtain rfl : u = v := Option.some.inj (hu.symm.trans hv)
      exact ⟨_, .faulted hf, rfl⟩
    · obtain rfl : u = v := Option.some.inj (hu.symm.trans hv)
      exact ⟨_, .illegal err hf hd, rfl⟩

section ByStatus
variable {s : State} {u : Bcu} {i : Instr} {w : Word} {e : Effect}

/-- An instruction answers the status that the order of priority gives. -/
theorem CommandEffect.status (h : CommandEffect s u i e) (hd : decode w = .ok i) :
    e.response.status = statusOf s.config u s.port w := by
  cases h with
  | faulted i hf => exact (statusOf_faulted hf).symm
  | illegal i hf hw => exact (statusOf_wrongContext hf hd hw).symm
  | overflow i hf hn ho => exact (statusOf_overflow hf hd hn ho).symm
  | bindReader order hf ho => exact (statusOf_noField hf hd rfl (fun _ => ho) rfl).symm
  | bindWriter order hf ho => exact (statusOf_noField hf hd rfl (fun _ => ho) rfl).symm
  | drop hf hv => exact (statusOf_noField hf hd (by simp [wrongContext, hv]) nofun rfl).symm
  | read i x hf hw hx hs hb =>
    rw [endRead_status, Coordinates.readPath_status,
      statusOf_field hf hd hw (descriptor_of_coordinatesOf hx hb) hx]
  | write i x hf hw hx hs hb =>
    rw [endWrite_status, Coordinates.writePath_status,
      statusOf_field hf hd hw (descriptor_of_coordinatesOf hx hb) hx]

theorem WordEffect.status (h : WordEffect s u w e) : e.response.status = statusOf s.config u s.port w := by
  cases h with
  | command e i hd he => exact he.status hd
  | faulted hf => exact (statusOf_faulted hf).symm
  | illegal err hf hd => exact (statusOf_illegalWord hf hd).symm

/-- Only an instruction that answers OK or BUFFER_EXHAUSTED accesses memory. -/
theorem CommandEffect.bus_kept (h : CommandEffect s u i e) (hok : e.response.status ≠ .ok)
    (hex : e.response.status ≠ .bufferExhausted) : e.bus = s.bus := by
  cases h with
  | faulted => rfl
  | illegal => rfl
  | overflow => rfl
  | bindReader => rfl
  | bindWriter => rfl
  | drop => rfl
  | read i x =>
    rw [endRead_status, Coordinates.readPath_status] at hok hex
    rw [endRead_bus, Coordinates.readPath_bus _ _ hok hex]
  | write i x =>
    rw [endWrite_status, Coordinates.writePath_status] at hok hex
    rw [endWrite_bus, Coordinates.writePath_bus _ _ _ hok hex]

theorem WordEffect.bus_kept (h : WordEffect s u w e) (hok : e.response.status ≠ .ok)
    (hex : e.response.status ≠ .bufferExhausted) : e.bus = s.bus := by
  cases h with
  | command e i hd he => exact he.bus_kept hok hex
  | faulted => rfl
  | illegal => rfl

/-- Memory changes only by a word of WR or WR.AT (R116). -/
theorem WordEffect.stores_of_mem_ne (h : WordEffect s u w e) (hm : e.bus.mem ≠ s.mem) :
    ∃ i, decode w = .ok i ∧ stores i = true := by
  cases h with
  | command e i hd he =>
    refine ⟨i, hd, ?_⟩
    obtain ⟨lo, hi, r, k, hmoves, -, hwrites, -⟩ := he.moves
    by_contra hs
    obtain rfl : k = 0 := hwrites (by simpa using hs)
    exact hm hmoves.mem_eq
  | faulted => exact absurd rfl hm
  | illegal => exact absurd rfl hm

/-- R115 of an effect on the unit `u`: an error keeps the context; FATAL leaves FAULT = 1 and no other status changes
FAULT. -/
structure Effect.KeepsByStatus (u : Bcu) (e : Effect) : Prop where
  ctx   : e.response.status ≠ .ok → e.unit.ctx = u.ctx
  fatal : e.response.status = .fatal → e.unit.fault = true
  fault : e.response.status ≠ .fatal → e.unit.fault = u.fault

theorem Effect.KeepsByStatus.of_ok (hs : e.response.status = .ok) (hf : e.unit.fault = u.fault) :
    e.KeepsByStatus u :=
  ⟨fun h => absurd hs h, fun h => (nomatch hs.symm.trans h), fun _ => hf⟩

theorem Effect.KeepsByStatus.of_kept (hs : e.response.status ≠ .fatal) (hu : e.unit = u) : e.KeepsByStatus u :=
  ⟨fun _ => congrArg Bcu.ctx hu, fun h => absurd h hs, fun _ => congrArg Bcu.fault hu⟩

theorem Effect.KeepsByStatus.of_fatal (hs : e.response.status = .fatal) (hc : e.unit.ctx = u.ctx)
    (hf : e.unit.fault = true) : e.KeepsByStatus u :=
  ⟨fun _ => hc, fun _ => hf, fun h => absurd hs h⟩

theorem endRead_keepsByStatus (issuer : Issuer) (u : Bcu) (b : Bus) (len : Nat) (r : Except PathError Nat) :
    (endRead issuer u b len r).KeepsByStatus u := by
  cases r with
  | error e => exact .of_kept (by rw [endRead_status]; exact e.status_ne_fatal) (by rw [endRead_error])
  | ok v => exact .of_ok (endRead_status ..) (by cases issuer <;> rfl)

theorem endWrite_keepsByStatus (issuer : Issuer) (u : Bcu) (b : Bus) (len : Nat) (r : Except PathError Unit) :
    (endWrite issuer u b len r).KeepsByStatus u := by
  cases r with
  | error e => exact .of_kept (by rw [endWrite_status]; exact e.status_ne_fatal) (by rw [endWrite_error])
  | ok v => exact .of_ok (endWrite_status ..) (by cases issuer <;> rfl)

theorem CommandEffect.keepsByStatus (h : CommandEffect s u i e) : e.KeepsByStatus u := by
  cases h with
  | faulted i hf => exact .of_fatal rfl rfl hf
  | illegal => exact .of_kept nofun rfl
  | overflow => exact .of_fatal rfl rfl rfl
  | bindReader => exact .of_ok rfl rfl
  | bindWriter => exact .of_ok rfl rfl
  | drop => exact .of_ok rfl rfl
  | read => exact endRead_keepsByStatus ..
  | write => exact endWrite_keepsByStatus ..

theorem WordEffect.keepsByStatus (h : WordEffect s u w e) : e.KeepsByStatus u := by
  cases h with
  | command e i hd he => exact he.keepsByStatus
  | faulted hf => exact .of_fatal rfl rfl hf
  | illegal => exact .of_kept nofun rfl
end ByStatus

/-- Settles O23: each effect of a word stands at its own level of the order of priority. -/
theorem firstErrorByPriorityIsReported : Obligations.FirstErrorByPriorityIsReported := by
  unfold Obligations.FirstErrorByPriorityIsReported
  intro s t n u c rest hi hu h
  obtain ⟨e, he, rfl⟩ := step_wordEffect hi hu h
  exact ⟨e.response, rfl, he.status, he.bus_kept⟩

/-- Settles O24, from the effect of the word; an error that changes memory made accesses, so it is BUFFER_EXHAUSTED. -/
theorem errorsKeepContextAndMemory : Obligations.ErrorsKeepContextAndMemory := by
  unfold Obligations.ErrorsKeepContextAndMemory
  intro s t n c rest u u' r hi hu h hu' hr
  obtain ⟨e, he, rfl⟩ := step_wordEffect hi hu h
  obtain rfl : e.response = r := congrArg Prod.snd (List.head_eq_of_cons_eq hr)
  obtain rfl : e.unit = u' := by
    have hlt : n < s.units.length := (List.getElem?_eq_some_iff.mp hu).1
    exact Option.some.inj ((List.getElem?_set_self hlt).symm.trans hu')
  have hkeeps := he.keepsByStatus
  refine ⟨hkeeps.ctx, hkeeps.fatal, hkeeps.fault, fun hok hm => ⟨?_, he.stores_of_mem_ne hm⟩⟩
  by_contra hex
  exact hm (congrArg Bus.mem (he.bus_kept hok hex))

/-! ### The units' independence (R122) -/

/-- Settles O30: a move replaces no unit but the one that makes it. -/
theorem unitsShareNoRegister : Obligations.UnitsShareNoRegister := by
  unfold Obligations.UnitsShareNoRegister
  intro s t i rest n hi h hagent
  rw [step_cons hi] at h
  rcases move_units h with hunits | ⟨k, v, v', hk, -, hunits, -⟩ <;> rw [hunits]
  have hne : k ≠ n := by
    rintro rfl
    exact hagent hk
  exact List.getElem?_set_ne hne

end Sys2Proof.Machine
end

section
/-! PROOFS. Reset, and commands to a busy unit (70_reset_and_hazards.md R123, R124, R126); the number of byte accesses of
a command (R130, R131). -/

namespace Sys2Proof.Machine

/-! ### A unit that still runs a command (R126) -/

theorem performIllegal_busy {s : State} {u : Bcu} {t : Transfer} (hu : s.units[s.cur]? = some u)
    (hf : u.inFlight = some t) : performIllegal s = .refused .commandWhileBusy := perform_busy hu hf _

section Busy
variable {s : State} {n : Nat} {u : Bcu} {t : Transfer} {c : Command} (hfit : c.operands.fit s.config.addrW = true)
  (hu : s.units[n]? = some u) (hf : u.inFlight = some t)
include hfit hu hf

theorem moveCommand_busy : moveCommand n c s = .refused .commandWhileBusy := by
  rw [moveCommand, if_pos hfit]
  cases hd : decode c.word with
  | ok i => rw [runWord_of_ok hd]; exact exec_busy i hu hf
  | error e => rw [runWord_of_error hd]; exact performIllegal_busy hu hf

theorem moveAccept_busy : moveAccept n c s = .refused .commandWhileBusy := by
  rw [moveAccept, if_pos hfit]
  cases decode c.word with
  | ok i => simp [acceptInstr, hu, hf]
  | error e => exact performIllegal_busy hu hf
end Busy

/-- Settles O8: both forms of a command look at the running command before anything of their own. -/
theorem busyUnitsTakeNoCommand : Obligations.BusyUnitsTakeNoCommand := by
  unfold Obligations.BusyUnitsTakeNoCommand
  intro s n u t c rest hi hu hf hfit
  rcases hi with hi | hi
  · rw [step_cons hi]; exact moveCommand_busy hfit hu hf
  · rw [step_cons hi]; exact moveAccept_busy hfit hu hf

/-! ### Reset (R123, R124) -/

section Reset
variable {s : State} {n : Nat} {u : Bcu} (hu : s.units[n]? = some u)
include hu

theorem moveReset_idle (hf : u.inFlight = none) :
    moveReset n s = .next { s with units := s.units.set n Bcu.reset } := by
  simp only [moveReset, hu, hf]

theorem moveReset_running {tr : Transfer} (hf : u.inFlight = some tr) (hd : tr.base + tr.blen ≤ s.config.space) :
    moveReset n s = .next { s with
      units := s.units.set n Bcu.reset
      bus := scramble (.unit n) tr.brokenBytes (tr.base + tr.byte0) s.freeNext s.bus
      freeNext := s.freeNext + tr.brokenBytes } := by
  simp only [moveReset, hu, hf, descriptorFits_iff.mpr hd, if_true]
end Reset

/-- Settles O43: the reset values are those of `Bcu.reset`. -/
theorem resetBetweenCommandsSetsTheRegistersAlone : Obligations.ResetBetweenCommandsSetsTheRegistersAlone := by
  unfold Obligations.ResetBetweenCommandsSetsTheRegistersAlone
  intro s n u rest hi hu hf
  rw [step_cons hi]
  exact moveReset_idle (s := { s with inputs := rest }) hu hf

theorem Transfer.brokenBytes_of_read {t : Transfer} (h : t.direction = .read) : t.brokenBytes = 0 := by
  rw [Transfer.brokenBytes, h]

/-- The broken bytes are at most the chunks of the command (R124). -/
theorem Transfer.brokenBytes_le_chunks (t : Transfer) :
    t.brokenBytes ≤ (t.bit0.toNat + t.len.toNat + 7) / 8 := by
  rw [Transfer.brokenBytes]
  split
  · exact Nat.zero_le _
  · exact Nat.min_le_left _ _

/-- Settles O44: the free bytes are the command's broken bytes, which a read has none of. -/
theorem resetDuringACommandBreaksItsRangeAtMost : Obligations.ResetDuringACommandBreaksItsRangeAtMost := by
  unfold Obligations.ResetDuringACommandBreaksItsRangeAtMost
  intro s n u tr rest hs hi hu hf
  obtain ⟨-, hd, -⟩ := ((hs.unit hu).2 tr hf).1
  refine ⟨_, (step_cons hi).trans (moveReset_running (s := { s with inputs := rest }) hu hf hd), rfl, rfl, rfl, rfl,
    fun hread => ?_, fun a ha => ?_⟩
  · rw [Transfer.brokenBytes_of_read hread]; rfl
  · obtain ⟨-, -, hframe⟩ := scramble_mem (.unit n) tr.brokenBytes (tr.base + tr.byte0) s.freeNext s.bus hs.legal.1
    have hchunks := tr.brokenBytes_le_chunks
    have hbuffer := tr.brokenBytes_le
    exact hframe a (by omega)

/-! ### The number of accesses of a command (R130) -/

/-- The chunks of a command over the field `x` that answers the status `st` (R130). -/
def Coordinates.chunksBy (x : Coordinates) (st : Status) : Nat :=
  if st = .ok then (x.bit0.toNat + x.len.toNat + 7) / 8
  else if st = .bufferExhausted then x.blen - x.byte0 else 0

theorem Coordinates.chunksBy_error (x : Coordinates) {st : Status} (hok : st ≠ .ok) (hex : st ≠ .bufferExhausted) :
    x.chunksBy st = 0 := by
  rw [Coordinates.chunksBy, if_neg hok, if_neg hex]

/-- An entry check's error is ZERO_LENGTH or WIDTH_EXCEEDED (41_bit_order.md R77). -/
theorem entryChecks_status {len W : Nat} {e : PathError} (h : entryChecks len W = some e) :
    e.status ≠ .ok ∧ e.status ≠ .bufferExhausted := by
  rw [entryChecks] at h
  split at h
  · cases h; exact ⟨nofun, nofun⟩
  · split at h <;> cases h
    exact ⟨nofun, nofun⟩

/-- A path over a field runs the chunks of the status it answers. -/
theorem Coordinates.pathChunks_eq (x : Coordinates) :
    pathChunks x.blen x.byte0 x.bit0.toNat x.len.toNat x.width.bits = x.chunksBy x.status := by
  cases hc : entryChecks x.len.toNat x.width.bits with
  | some e =>
    have hs : x.status = e.status := by rw [Coordinates.status, hc]
    obtain ⟨hok, hex⟩ := entryChecks_status hc
    rw [pathChunks, if_neg (entryChecks_some hc), hs, x.chunksBy_error hok hex]
  | none =>
    have hs : x.status = if x.inBuffer then .ok else .bufferExhausted := by rw [Coordinates.status, hc]
    have hlen := entryChecks_eq_none hc
    rw [pathChunks, if_pos hlen, chunksRun, hs]
    by_cases hin : x.inBuffer
    · rw [if_pos hin, if_pos (.inr (x.inBuffer_iff.mp hin)), loopChunks_pos hlen.1]; rfl
    · rw [if_neg hin, if_neg (by rw [inBuffer_iff] at hin; omega)]; rfl

/-- The accesses of an effect on a field: the chunks of its status, read, and written if the command stores. -/
theorem CommandEffect.counts {s : State} {u : Bcu} {i : Instr} {e : Effect} {x : Coordinates}
    (h : CommandEffect s u i e) (hx : coordinatesOf u s.port i = some x) :
    ∃ lo hi, Bus.Moves (.unit s.cur) lo hi (x.chunksBy e.response.status)
      (if stores i then x.chunksBy e.response.status else 0) s.bus e.bus := by
  have none {st : Status} (hok : st ≠ .ok) (hex : st ≠ .bufferExhausted) :
      ∃ lo hi, Bus.Moves (.unit s.cur) lo hi (x.chunksBy st) (if stores i then x.chunksBy st else 0) s.bus s.bus := by
    rw [x.chunksBy_error hok hex, ite_self]
    exact ⟨0, 0, Bus.Moves.refl ..⟩
  cases h with
  | faulted => exact none nofun nofun
  | illegal => exact none nofun nofun
  | overflow => exact none nofun nofun
  | bindReader => cases hx
  | bindWriter => cases hx
  | drop => cases hx
  | read i y hf hw hy hs hb =>
    obtain rfl : x = y := Option.some.inj (hx.symm.trans hy)
    rw [endRead_bus, endRead_status, Coordinates.readPath_status, ← Coordinates.pathChunks_eq, hs]
    exact ⟨_, _, readPath_moves _ _ _ _ _ _ _ _ _ x.bit0.isLt⟩
  | write i y hf hw hy hs hb =>
    obtain rfl : x = y := Option.some.inj (hx.symm.trans hy)
    rw [endWrite_bus, endWrite_status, Coordinates.writePath_status, ← Coordinates.pathChunks_eq, hs]
    exact ⟨_, _, writePath_moves _ _ _ _ _ _ _ _ _ _ x.bit0.isLt⟩

/-- A command without a field makes no access. -/
theorem CommandEffect.bus_of_noField {s : State} {u : Bcu} {i : Instr} {e : Effect} (h : CommandEffect s u i e)
    (hx : coordinatesOf u s.port i = none) : e.bus = s.bus := by
  cases h with
  | faulted => rfl
  | illegal => rfl
  | overflow => rfl
  | bindReader => rfl
  | bindWriter => rfl
  | drop => rfl
  | read _ y _ _ hy => rw [hx] at hy; cases hy
  | write _ y _ _ hy => rw [hx] at hy; cases hy

/-- Settles O33: the accesses of a command are those of its effect. -/
theorem accessCountsAreExact : Obligations.AccessCountsAreExact := by
  unfold Obligations.AccessCountsAreExact
  intro i s t u r new hu h hr hlog
  obtain ⟨v, e, hv, -, he, rfl⟩ := exec_next h
  obtain rfl : u = v := Option.some.inj (hu.symm.trans hv)
  obtain rfl : e.response = r := congrArg Prod.snd (List.head_eq_of_cons_eq hr)
  refine ⟨fun hx => ?_, fun x hx => ?_⟩
  · rw [State.commit_bus, he.bus_of_noField hx] at hlog
    exact List.self_eq_append_left.mp hlog
  · obtain ⟨lo, hi, new', hlog', -, -, -, hreads, hwrites⟩ := he.counts hx
    obtain rfl : new = new' := List.append_cancel_right (hlog.symm.trans hlog')
    refine ⟨hreads, hwrites, fun hok => ?_⟩
    have hbit := x.bit0.isLt
    rw [if_pos hok]
    omega

/-- Settles O34: a free unit's command answers, and its effect makes at most 34 accesses. -/
theorem everyCommandFinishes : Obligations.EveryCommandFinishes := by
  unfold Obligations.EveryCommandFinishes
  intro i s u hs hu hf
  obtain ⟨-, -, hd, -⟩ := (hs.unit hu).1
  obtain ⟨t, ht⟩ := exec_completes i hu hf hd
  obtain ⟨v, e, -, -, he, rfl⟩ := exec_next ht
  obtain ⟨lo, hi, r, w, hmoves, hle, -⟩ := he.moves
  obtain ⟨new, hlog, -⟩ := id hmoves
  obtain ⟨hlen, -⟩ := hmoves.of_log hlog
  exact ⟨_, e.response, new, ht, rfl, hlog, hlen ▸ hle⟩

end Sys2Proof.Machine
end

section
/-! PROOFS. Commands run byte access by byte access (70_reset_and_hazards.md R128 to R132): a chunk loop ticked to its end
is the command performed whole, and ticks that share no byte can be taken in either order. -/

namespace Sys2Proof.Machine

/-! ### Runs of moves -/

/-- A run whose first move leads to `s'` ends as the rest of it does from `s'`. -/
theorem run_move {s s' t : State} {i : Input} {rest : List Input} {k : Nat} (hi : s.inputs = i :: rest)
    (h : move i { s with inputs := rest } = .next s') (hrun : Host.Core.run Sys2Proof.core k s' = .next t) :
    Host.Core.run Sys2Proof.core (k + 1) s = .next t := by
  have hstep : Sys2Proof.core.step s = .next s' := (step_cons hi).trans h
  simp only [Host.Core.run, hstep]
  exact hrun

/-- Two moves, one after the other. -/
theorem run_two {s s' t : State} {i j : Input} {rest : List Input} (hi : s.inputs = i :: j :: rest)
    (h : move i { s with inputs := j :: rest } = .next s') (hi' : s'.inputs = j :: rest)
    (h' : move j { s' with inputs := rest } = .next t) : Host.Core.run Sys2Proof.core 2 s = .next t :=
  run_move hi h (run_move hi' h' rfl)

/-- Settles O42: both schedules are evaluated. -/
theorem unorderedWritersCanLoseAnUpdate : Obligations.UnorderedWritersCanLoseAnUpdate := by
  unfold Obligations.UnorderedWritersCanLoseAnUpdate
  exact ⟨⟨_, rfl, rfl⟩, ⟨_, rfl, rfl⟩⟩

/-! ### A tick -/

/-- Each effect of a tick is what the tick does. -/
theorem TickEffect.moveTick_eq {s t : State} {n : Nat} {u : Bcu} {tr : Transfer} (h : TickEffect s n u tr t)
    (hu : s.units[n]? = some u) (hf : u.inFlight = some tr) (hd : tr.base + tr.blen ≤ s.config.space) :
    moveTick n s = .next t := by
  have hd' := descriptorFits_iff.mpr hd
  cases h with
  | wrote b hh => simp only [moveTick, hu, hf, hd', hh, if_true]
  | passed hh hr hb hdir =>
    simp only [moveTick, hu, hf, hd', hh, hdir, if_true, if_neg (Nat.ne_of_gt hr), if_neg (Nat.not_le.mpr hb),
      Bus.read_value]
  | fetched hh hr hb hdir =>
    simp only [moveTick, hu, hf, hd', hh, hdir, if_true, if_neg (Nat.ne_of_gt hr), if_neg (Nat.not_le.mpr hb),
      Bus.read_value]
  | finished hh hr => simp only [moveTick, hu, hf, hd', hh, if_true, if_pos hr]
  | exhausted hh hr hb =>
    simp only [moveTick, hu, hf, hd', hh, if_true, if_neg (Nat.ne_of_gt hr), if_pos hb]

/-- A tick looks at no move to come. -/
theorem TickEffect.withInputs {s t : State} {n : Nat} {u : Bcu} {tr : Transfer} (h : TickEffect s n u tr t)
    (inputs : List Input) : TickEffect { s with inputs := inputs } n u tr { t with inputs := inputs } := by
  cases h with
  | wrote b hh => exact .wrote b hh
  | passed hh hr hb hdir => exact .passed hh hr hb hdir
  | fetched hh hr hb hdir => exact .fetched hh hr hb hdir
  | finished hh hr => exact .finished hh hr
  | exhausted hh hr hb => exact .exhausted hh hr hb

/-- `k` ticks of unit `n` with no other move between lead from `s` to `t`, whatever moves are still to come. -/
def State.TicksTo (n k : Nat) (s t : State) : Prop :=
  ∀ rest, Host.Core.run Sys2Proof.core k { s with inputs := List.replicate k (.tick n) ++ rest } =
    .next { t with inputs := rest }

theorem State.TicksTo.refl (n : Nat) (s : State) : State.TicksTo n 0 s s := fun _ => rfl

theorem State.TicksTo.cons {n k : Nat} {s s' t : State} {u : Bcu} {tr : Transfer} (hu : s.units[n]? = some u)
    (hf : u.inFlight = some tr) (hd : tr.base + tr.blen ≤ s.config.space) (he : TickEffect s n u tr s')
    (h : State.TicksTo n k s' t) : State.TicksTo n (k + 1) s t := by
  intro rest
  exact run_move (i := .tick n) rfl ((he.withInputs _).moveTick_eq hu hf hd) (h rest)

/-! ### What is left of a chunk loop (41_bit_order.md R76) -/

/-- The effect that unit `u`, number `n`, ends with when it runs what is left of the loop `t` from the bus `b` on. -/
def Transfer.finish (fuel n : Nat) (u : Bcu) (t : Transfer) (b : Bus) : Effect :=
  match t.direction with
  | .read =>
    let r := readLoop (.unit n) t.order t.base t.blen t.width.bits fuel t.rem t.byte t.bit t.acc t.done b
    endRead t.issuer { u with inFlight := none } r.2 t.len.toNat r.1
  | .write =>
    let r := writeLoop (.unit n) t.order t.base t.blen t.width.bits fuel t.rem t.byte t.bit t.val b
    endWrite t.issuer { u with inFlight := none } r.2 t.len.toNat r.1

theorem readLoop_done (who : Agent) (order : BitOrder) (base blen W fuel byte bit acc done : Nat) (b : Bus) :
    readLoop who order base blen W fuel 0 byte bit acc done b = (.ok acc, b) := by
  cases fuel <;> rfl

theorem writeLoop_done (who : Agent) (order : BitOrder) (base blen W fuel byte bit val : Nat) (b : Bus) :
    writeLoop who order base blen W fuel 0 byte bit val b = (.ok (), b) := by
  cases fuel <;> rfl

section Finish
variable {t : Transfer} (n : Nat) (u : Bcu) (b : Bus)

theorem Transfer.finish_done (fuel : Nat) (hr : t.rem = 0) : t.finish fuel n u b = endTransfer u t b none := by
  cases hd : t.direction with
  | read => simp only [Transfer.finish, endTransfer, hd, hr, readLoop_done]
  | write => simp only [Transfer.finish, endTransfer, hd, hr, writeLoop_done]

theorem Transfer.finish_exhausted (fuel : Nat) (hr : 0 < t.rem) (hb : t.blen ≤ t.byte) :
    t.finish (fuel + 1) n u b = endTransfer u t b (some .bufferExhausted) := by
  cases hd : t.direction with
  | read => simp only [Transfer.finish, endTransfer, hd, readLoop, if_neg (Nat.ne_of_gt hr), if_pos hb]
  | write => simp only [Transfer.finish, endTransfer, hd, writeLoop, if_neg (Nat.ne_of_gt hr), if_pos hb]

theorem Transfer.finish_read (fuel : Nat) (hd : t.direction = .read) (hr : 0 < t.rem) (hb : t.byte < t.blen) :
    t.finish (fuel + 1) n u b =
      (t.passRead (Memory.get b.mem (t.base + t.byte))).finish fuel n u (b.read (.unit n) (t.base + t.byte)).2 := by
  have hd' : (t.passRead (Memory.get b.mem (t.base + t.byte))).direction = .read := hd
  simp only [Transfer.finish, hd, hd', readLoop, if_neg (Nat.ne_of_gt hr), if_neg (Nat.not_le.mpr hb)]
  rfl

theorem Transfer.finish_write (fuel : Nat) (hd : t.direction = .write) (hr : 0 < t.rem) (hb : t.byte < t.blen) :
    t.finish (fuel + 1) n u b =
      t.passWrite.finish fuel n u ((b.read (.unit n) (t.base + t.byte)).2.write (.unit n) (t.base + t.byte)
        (t.written (Memory.get b.mem (t.base + t.byte)))) := by
  have hd' : t.passWrite.direction = .write := hd
  simp only [Transfer.finish, hd, hd', writeLoop, if_neg (Nat.ne_of_gt hr), if_neg (Nat.not_le.mpr hb)]
  rfl
end Finish

/-- The accesses of one chunk: a read, and in a write path a write back (20_memory.md R39). -/
def Direction.accesses : Direction → Nat
  | .read  => 1
  | .write => 2

/-- The ticks left of a chunk loop: the accesses of its chunks, and the response. -/
def Transfer.ticksLeft (t : Transfer) : Nat :=
  t.direction.accesses * chunksRun t.blen t.rem t.byte t.bit + 1

theorem Transfer.ticksLeft_done {t : Transfer} (hr : t.rem = 0) : t.ticksLeft = 1 := by
  rw [Transfer.ticksLeft, chunksRun, hr, if_pos (.inl rfl)]; rfl

theorem Transfer.ticksLeft_exhausted {t : Transfer} (hr : 0 < t.rem) (hb : t.blen ≤ t.byte) : t.ticksLeft = 1 := by
  rw [Transfer.ticksLeft, chunksRun, if_neg (by omega), Nat.sub_eq_zero_of_le hb]; rfl

/-- A chunk costs its accesses. -/
theorem Transfer.ticksLeft_chunk {t : Transfer} (hr : 0 < t.rem) (hb : t.byte < t.blen) (hbit : t.bit < 8) :
    t.ticksLeft = t.pass.ticksLeft + t.direction.accesses := by
  rw [Transfer.ticksLeft, chunksRun_step hr hbit hb, Nat.mul_add, Nat.mul_one, Nat.add_assoc, Nat.add_comm]
  rfl

/-! ### A chunk loop ticked to its end -/

section Running
variable {s : State} {n : Nat} {u : Bcu} {t t' : Transfer} {b b' : Bus}

theorem State.goOn_goOn : (s.goOn n u t b).goOn n { u with inFlight := some t } t' b' = s.goOn n u t' b' := by
  simp only [State.goOn, List.set_set]

theorem State.goOn_commit (e : Effect) : (s.goOn n u t b).commit n e = s.commit n e := by
  simp only [State.goOn, State.commit, List.set_set]

theorem State.goOn_getElem? (hn : n < s.units.length) :
    (s.goOn n u t b).units[n]? = some { u with inFlight := some t } := List.getElem?_set_self hn

/-- A tick of a unit that stands in a chunk loop and goes on. -/
theorem State.TicksTo.goOn {k : Nat} {v : State} (hn : n < s.units.length) (hd : t.base + t.blen ≤ s.config.space)
    (he : TickEffect (s.goOn n u t b) n { u with inFlight := some t } t
      ((s.goOn n u t b).goOn n { u with inFlight := some t } t' b'))
    (h : State.TicksTo n k (s.goOn n u t' b') v) : State.TicksTo n (k + 1) (s.goOn n u t b) v :=
  .cons (State.goOn_getElem? hn) rfl hd he (by rwa [State.goOn_goOn])

/-- The last tick of a chunk loop: the response. -/
theorem State.TicksTo.response (hn : n < s.units.length) (hd : t.base + t.blen ≤ s.config.space) {e : Effect}
    (he : TickEffect (s.goOn n u t b) n { u with inFlight := some t } t ((s.goOn n u t b).commit n e)) :
    State.TicksTo n 1 (s.goOn n u t b) (s.commit n e) :=
  .cons (State.goOn_getElem? hn) rfl hd he (by rw [State.goOn_commit]; exact .refl n _)

section Chunk
variable {k : Nat} {v : State} (hn : n < s.units.length) (hd : t.base + t.blen ≤ s.config.space)
  (hh : t.held = none) (hr : 0 < t.rem) (hb : t.byte < t.blen)
include hn hd hh hr hb

/-- A read chunk is one tick. -/
theorem State.TicksTo.readChunk (hdir : t.direction = .read)
    (h : State.TicksTo n k (s.goOn n u (t.passRead (Memory.get b.mem (t.base + t.byte)))
      (b.read (.unit n) (t.base + t.byte)).2) v) : State.TicksTo n (k + 1) (s.goOn n u t b) v :=
  .goOn hn hd (.passed hh hr hb hdir) h

/-- A write chunk is two ticks: the read, which holds the byte, and the write back (20_memory.md R39, R41). -/
theorem State.TicksTo.writeChunk (hdir : t.direction = .write)
    (h : State.TicksTo n k (s.goOn n u t.passWrite ((b.read (.unit n) (t.base + t.byte)).2.write (.unit n)
      (t.base + t.byte) (t.written (Memory.get b.mem (t.base + t.byte))))) v) :
    State.TicksTo n (k + 2) (s.goOn n u t b) v :=
  .goOn hn hd (.fetched hh hr hb hdir)
    (.goOn (t := { t with held := some (Memory.get b.mem (t.base + t.byte)) }) hn hd (.wrote _ rfl) h)
end Chunk

/-- A chunk loop that has moved all its bits has the response left. -/
theorem State.TicksTo.finish_done (hn : n < s.units.length) (hd : t.base + t.blen ≤ s.config.space)
    (hh : t.held = none) (hr : t.rem = 0) (fuel : Nat) :
    State.TicksTo n t.ticksLeft (s.goOn n u t b) (s.commit n (t.finish fuel n u b)) := by
  rw [Transfer.ticksLeft_done hr, Transfer.finish_done n u b fuel hr]
  exact .response hn hd (.finished hh hr)

/-- A chunk loop ticked to its end leaves the effect of the loop run at once. -/
theorem State.TicksTo.finish (hn : n < s.units.length) :
    ∀ (fuel : Nat) (t : Transfer) (b : Bus), t.rem ≤ fuel → t.held = none → t.bit < 8 →
      t.base + t.blen ≤ s.config.space →
      State.TicksTo n t.ticksLeft (s.goOn n u t b) (s.commit n (t.finish fuel n u b)) := by
  intro fuel
  induction fuel with
  | zero =>
    intro t b hfuel hh hbit hd
    exact .finish_done hn hd hh (Nat.le_zero.mp hfuel) 0
  | succ fuel ih =>
    intro t b hfuel hh hbit hd
    by_cases hr : t.rem = 0
    · exact .finish_done hn hd hh hr _
    have hr : 0 < t.rem := Nat.pos_of_ne_zero hr
    obtain ⟨h1, -, -⟩ := chunkSize_bounds hr hbit
    have hrem : t.rem - chunkSize t.rem t.bit ≤ fuel := by omega
    have hbit' := advance_snd_lt t.byte t.bit (chunkSize t.rem t.bit)
    by_cases hb : t.blen ≤ t.byte
    · rw [Transfer.ticksLeft_exhausted hr hb, Transfer.finish_exhausted n u b fuel hr hb]
      exact .response hn hd (.exhausted hh hr hb)
    have hb : t.byte < t.blen := Nat.not_le.mp hb
    rw [Transfer.ticksLeft_chunk hr hb hbit]
    cases hdir : t.direction with
    | read =>
      rw [Transfer.finish_read n u b fuel hdir hr hb]
      exact .readChunk hn hd hh hr hb hdir (ih (t.passRead _) _ hrem rfl hbit' hd)
    | write =>
      rw [Transfer.finish_write n u b fuel hdir hr hb]
      exact .writeChunk hn hd hh hr hb hdir (ih t.passWrite _ hrem rfl hbit' hd)
end Running

/-! ### A command, whole and by its accesses (R131, R132) -/

/-- A started chunk loop has at most 17 chunks, so at most 34 accesses and the response. -/
theorem ticksLeft_of_startTransfer {direction : Direction} {issuer : Issuer} {order : BitOrder} {base blen byte0 : Nat}
    {bit0 : BitVec 3} {len : BitVec 8} {width : Width} {din : Data} {tr : Transfer}
    (h : startTransfer direction issuer order base blen byte0 bit0 len width din = some tr) : tr.ticksLeft ≤ 35 := by
  obtain ⟨hlen, rfl⟩ := startTransfer_some h
  have hchunks := pathChunks_le (blen := blen) (byte0 := byte0) (len := len.toNat) bit0.isLt (Width.bits_le width)
  rw [pathChunks, if_pos hlen] at hchunks
  cases direction with
  | read => simp only [Transfer.ticksLeft, Direction.accesses]; omega
  | write => simp only [Transfer.ticksLeft, Direction.accesses]; omega

/-- A command that starts a chunk loop has, performed whole, the effect of that loop run to its end. -/
theorem exec_of_transferOf {i : Instr} {s t : State} {u : Bcu} {tr : Transfer} (hu : s.units[s.cur]? = some u)
    (htr : transferOf s.config s.port u i = some tr) (h : exec i s = .next t) :
    t = s.commit s.cur (tr.finish tr.rem s.cur u s.bus) := by
  obtain ⟨hfault, hw, hn, x, hx, hstart⟩ := transferOf_some htr
  obtain ⟨hlen, rfl⟩ := startTransfer_some hstart
  obtain ⟨v, e, hv, hf, he, rfl⟩ := exec_next h
  obtain rfl : u = v := Option.some.inj (hu.symm.trans hv)
  have hidle : { u with inFlight := none } = u := by rw [← hf]
  congr 1
  cases he with
  | faulted i h1 => rw [hfault] at h1; cases h1
  | illegal i h0 hw1 => rw [hw] at hw1; cases hw1
  | overflow i h0 hn1 ho => exact absurd (hn hn1) (Nat.not_le.mpr ho)
  | bindReader => cases hx
  | bindWriter => cases hx
  | drop => cases hx
  | read i y h0 hw1 hy hs hb =>
    obtain rfl : x = y := Option.some.inj (hx.symm.trans hy)
    simp only [Transfer.finish, hs, Bool.false_eq_true, if_false, hidle, Coordinates.readPath, readPath,
      entryChecks_none hlen]
  | write i y h0 hw1 hy hs hb =>
    obtain rfl : x = y := Option.some.inj (hx.symm.trans hy)
    simp only [Transfer.finish, hs, if_true, hidle, Coordinates.writePath, writePath, entryChecks_none hlen, startVal]

/-- An illegal word to a free unit answers a next state. -/
theorem performIllegal_completes {s : State} {u : Bcu} (hu : s.units[s.cur]? = some u) (hf : u.inFlight = none) :
    ∃ t, performIllegal s = .next t := by
  by_cases hfault : u.fault = true
  · exact ⟨_, performIllegal_of_fault hu hf hfault⟩
  · exact ⟨_, performIllegal_ready ⟨hu, hf, by simpa using hfault⟩⟩

section Command
variable {s : State} {n : Nat} {u : Bcu} {c : Command} (hu : s.units[n]? = some u) (hf : u.inFlight = none)
  (hfit : c.operands.fit s.config.addrW = true)
include hu hf hfit

theorem moveCommand_completes (hd : u.ctx.base + u.ctx.blen ≤ s.config.space) : ∃ t, moveCommand n c s = .next t := by
  rw [moveCommand, if_pos hfit]
  cases hw : decode c.word with
  | ok i => rw [runWord_of_ok hw]; exact exec_completes i hu hf hd
  | error e => rw [runWord_of_error hw]; exact performIllegal_completes hu hf

/-- A command that starts no chunk loop is performed whole when it is accepted. -/
theorem moveAccept_eq_moveCommand (h : ∀ i, decode c.word = .ok i → transferOf s.config c.operands u i = none) :
    moveAccept n c s = moveCommand n c s := by
  rw [moveAccept, moveCommand, if_pos hfit, if_pos hfit, runWord]
  cases hw : decode c.word with
  | ok i => simp [acceptInstr, hu, hf, h i hw]
  | error e => rfl

variable {i : Instr} {tr : Transfer} (hw : decode c.word = .ok i)
  (htr : transferOf s.config c.operands u i = some tr)
include hw htr

theorem moveAccept_of_start : moveAccept n c s = .next ((s.present n c).goOn n u tr s.bus) := by
  rw [moveAccept, if_pos hfit, hw]
  simp only [acceptInstr, State.present_units, State.present_cur, State.present_config, State.present_port, hu, hf, htr]
  rfl

theorem moveCommand_of_start (hd : u.ctx.base + u.ctx.blen ≤ s.config.space) :
    moveCommand n c s = .next ((s.present n c).commit n (tr.finish tr.rem n u s.bus)) := by
  obtain ⟨t, ht⟩ := exec_completes (s := s.present n c) i hu hf hd
  rw [moveCommand, if_pos hfit, runWord_of_ok hw, ht]
  exact congrArg _ (exec_of_transferOf hu htr ht)
end Command

/-- Settles O38: the command's loop, ticked to its end, leaves the effect of the command performed whole. -/
theorem wholeCommandEqualsItsByteAccesses : Obligations.WholeCommandEqualsItsByteAccesses := by
  unfold Obligations.WholeCommandEqualsItsByteAccesses
  intro s n u c rest hs hu hf hfit
  obtain ⟨hctx, -⟩ := hs.unit hu
  obtain ⟨-, -, hd, -⟩ := id hctx
  have hstep : step { s with inputs := .command n c :: rest } = moveCommand n c { s with inputs := rest } := rfl
  by_cases hstart : ∃ i tr, decode c.word = .ok i ∧ transferOf s.config c.operands u i = some tr
  · obtain ⟨i, tr, hw, htr⟩ := hstart
    obtain ⟨-, -, -, x, -, hx⟩ := transferOf_some htr
    obtain ⟨⟨-, htd, hbit, -⟩, -⟩ := transferOf_wf htr hctx
    have hheld : tr.held = none := by obtain ⟨-, rfl⟩ := startTransfer_some hx; rfl
    have hticks : State.TicksTo n tr.ticksLeft ((s.present n c).goOn n u tr s.bus) _ :=
      .finish (s := s.present n c) (List.getElem?_eq_some_iff.mp hu).1 tr.rem tr s.bus (Nat.le_refl _) hheld hbit htd
    refine ⟨tr.ticksLeft, _, ticksLeft_of_startTransfer hx,
      hstep.trans (moveCommand_of_start (s := { s with inputs := rest }) hu hf hfit hw htr hd), ?_⟩
    have haccept := moveAccept_of_start (s := { s with inputs := List.replicate tr.ticksLeft (.tick n) ++ rest })
      hu hf hfit hw htr
    exact run_move (i := .accept n c) rfl haccept (hticks rest)
  · obtain ⟨t, ht⟩ := moveCommand_completes (s := { s with inputs := rest }) hu hf hfit hd
    refine ⟨0, t, Nat.zero_le _, hstep.trans ht, ?_⟩
    have hnone : ∀ i, decode c.word = .ok i → transferOf s.config c.operands u i = none := fun i hw =>
      Option.eq_none_iff_forall_ne_some.mpr fun tr htr => hstart ⟨i, tr, hw, htr⟩
    have haccept := (moveAccept_eq_moveCommand (s := { s with inputs := rest }) hu hf hfit hnone).trans ht
    exact run_move (i := .accept n c) rfl haccept rfl

/-! ### Ticks and other agents' accesses (R128, R129) -/

/-- Writes at two addresses can be taken in either order. -/
theorem Memory.set_comm {m : Memory} (h : Memory.wf m = true) {a b : Nat} (hab : a ≠ b) (v w : Byte) :
    Memory.set (Memory.set m a v) b w = Memory.set (Memory.set m b w) a v := by
  have ha := Memory.wf_set h a v
  have hb := Memory.wf_set h b w
  refine Memory.ext (Memory.wf_set ha b w) (Memory.wf_set hb a v) fun x => ?_
  rw [Memory.get_set ha, Memory.get_set h, Memory.get_set hb, Memory.get_set h]
  by_cases hxb : x = b
  · rw [if_pos hxb, if_neg (by rintro rfl; exact hab hxb), if_pos hxb]
  · rw [if_neg hxb, if_neg hxb]

/-- What a tick leaves of a state: its unit, the responses it returns, and the byte it stores, if any. -/
structure TickResult where
  unit      : Bcu
  responses : List (Nat × Response)
  stored    : Option Byte

/-- The state `t` is `s` with the result `r` of a tick of unit `n` at address `a`; of the bus, memory alone counts. -/
structure TickResult.From (r : TickResult) (n a : Nat) (s t : State) : Prop where
  config    : t.config = s.config
  inputs    : t.inputs = s.inputs
  units     : t.units = s.units.set n r.unit
  responses : t.responses = r.responses ++ s.responses
  mem       : t.mem = r.stored.elim s.mem (Memory.set s.mem a)

/-- The result of a tick after which unit `u` goes on with `t`. -/
def TickResult.running (u : Bcu) (t : Transfer) (stored : Option Byte) : TickResult :=
  { unit := { u with inFlight := some t }, responses := [], stored := stored }

/-- The result of a tick that ends the command; its bus is no part of it, so it is taken as empty. -/
def TickResult.ended (n : Nat) (u : Bcu) (t : Transfer) (failed : Option PathError) : TickResult :=
  let e := endTransfer u t { mem := [], log := [] } failed
  { unit := e.unit, responses := [(n, e.response)], stored := none }

/-- The response of a command does not depend on the bus, nor does the unit it leaves. -/
theorem endTransfer_setBus (u : Bcu) (t : Transfer) (b b' : Bus) (failed : Option PathError) :
    endTransfer u t b failed = { endTransfer u t b' failed with bus := b } := by
  unfold endTransfer
  cases t.direction <;> cases failed <;> cases t.issuer <;> rfl

section TickResult
variable {s : State} {n : Nat} {u : Bcu} {t : Transfer}

theorem TickResult.running_from {b : Bus} {stored : Option Byte} {a : Nat}
    (hb : b.mem = stored.elim s.mem (Memory.set s.mem a)) :
    (TickResult.running u t stored).From n a s (s.goOn n u t b) := ⟨rfl, rfl, rfl, rfl, hb⟩

theorem TickResult.ended_from (failed : Option PathError) (a : Nat) :
    (TickResult.ended n u t failed).From n a s (s.commit n (endTransfer u t s.bus failed)) := by
  rw [endTransfer_setBus u t s.bus { mem := [], log := [] }]
  exact ⟨rfl, rfl, rfl, rfl, rfl⟩
end TickResult

/-- The effect of a tick has one result for every state that shows the loop the byte `b`; a byte is stored by a write alone,
inside its buffer. -/
theorem TickEffect.determined {c : Config} {u : Bcu} {tr : Transfer} (hwf : tr.wf c u.ctx) (n : Nat) (b : Byte) :
    ∃ r : TickResult, (r.stored = none ∨ tr.direction = .write ∧ tr.byte < tr.blen) ∧
      ∀ s : State, (tr.byte < tr.blen → Memory.get s.mem (tr.base + tr.byte) = b) →
        ∃ t, TickEffect s n u tr t ∧ r.From n (tr.base + tr.byte) s t := by
  cases hh : tr.held with
  | some v =>
    exact ⟨.running u tr.passWrite (some (tr.written v)), .inr (Transfer.wf_of_held hwf (by simp [hh])),
      fun s _ => ⟨_, .wrote v hh, TickResult.running_from rfl⟩⟩
  | none =>
    by_cases hr : tr.rem = 0
    · exact ⟨.ended n u tr none, .inl rfl, fun s _ => ⟨_, .finished hh hr, TickResult.ended_from _ _⟩⟩
    have hr : 0 < tr.rem := Nat.pos_of_ne_zero hr
    by_cases hb : tr.blen ≤ tr.byte
    · exact ⟨.ended n u tr (some .bufferExhausted), .inl rfl,
        fun s _ => ⟨_, .exhausted hh hr hb, TickResult.ended_from _ _⟩⟩
    have hb : tr.byte < tr.blen := Nat.not_le.mp hb
    cases hdir : tr.direction with
    | read =>
      refine ⟨.running u (tr.passRead b) none, .inl rfl, fun s hbyte => ⟨_, .passed hh hr hb hdir, ?_⟩⟩
      rw [hbyte hb]
      exact TickResult.running_from rfl
    | write =>
      refine ⟨.running u { tr with held := some b } none, .inl rfl, fun s hbyte => ⟨_, .fetched hh hr hb hdir, ?_⟩⟩
      rw [hbyte hb]
      exact TickResult.running_from rfl

section Ticks
variable {s : State} (hs : s.Inv) {n : Nat} {u : Bcu} {tr : Transfer} (hu : s.units[n]? = some u)
  (hf : u.inFlight = some tr)
include hs hu hf

/-- The tick of a running unit has one result for `s` and for every state with that unit, these parameters, and the byte
that the loop stands at in its buffer. -/
theorem moveTick_determined :
    ∃ r : TickResult, (r.stored = none ∨ tr.direction = .write ∧ tr.byte < tr.blen) ∧
      ∀ s' : State, s'.config = s.config → s'.units[n]? = some u →
        (tr.byte < tr.blen → Memory.get s'.mem (tr.base + tr.byte) = Memory.get s.mem (tr.base + tr.byte)) →
        ∃ t, moveTick n s' = .next t ∧ r.From n (tr.base + tr.byte) s' t := by
  have hwf := ((hs.unit hu).2 tr hf).1
  obtain ⟨-, hd, -⟩ := id hwf
  obtain ⟨r, hstored, htick⟩ := TickEffect.determined hwf n (Memory.get s.mem (tr.base + tr.byte))
  refine ⟨r, hstored, fun s' hc hu' hbyte => ?_⟩
  obtain ⟨t, ht, hr⟩ := htick s' hbyte
  exact ⟨t, ht.moveTick_eq hu' hf (hc ▸ hd), hr⟩

/-- The tick of a running read leaves one unit `u'`, and memory as it was, from `s` and from every state with that unit,
these parameters and this memory. -/
theorem moveTick_read (hdir : tr.direction = .read) :
    ∃ u', ∀ s' : State, s'.config = s.config → s'.units[n]? = some u → s'.mem = s.mem →
      ∃ t, moveTick n s' = .next t ∧ t.config = s.config ∧ t.inputs = s'.inputs ∧ t.units = s'.units.set n u' ∧
        t.mem = s.mem := by
  obtain ⟨r, hstored, htick⟩ := moveTick_determined hs hu hf
  have hnone : r.stored = none := hstored.resolve_right (by simp [hdir])
  refine ⟨r.unit, fun s' hc hu' hm => ?_⟩
  obtain ⟨t, ht, hr⟩ := htick s' hc hu' fun _ => by rw [hm]
  exact ⟨t, ht, hr.config.trans hc, hr.inputs, hr.units, by rw [hr.mem, hnone, ← hm]; rfl⟩
end Ticks

/-- Settles O39: the host's write leaves the tick's byte, so the tick has the same result before and after it, and the two
stores, at two addresses, commute. -/
theorem disjointHostWriteCommutesWithAnAccess : Obligations.DisjointHostWriteCommutesWithAnAccess := by
  unfold Obligations.DisjointHostWriteCommutesWithAnAccess
  intro s n a v u tr rest hs hu hf ha hout
  have hm := hs.legal.1
  obtain ⟨r, hstored, htick⟩ := moveTick_determined hs hu hf
  have hwritten : tr.byte < tr.blen →
      Memory.get (Memory.set s.mem a v) (tr.base + tr.byte) = Memory.get s.mem (tr.base + tr.byte) := by
    intro hin
    rw [Memory.get_set hm, if_neg (by omega)]
  obtain ⟨t, ht, hr⟩ := htick { s with bus := s.bus.write .host a v, inputs := rest } rfl hu hwritten
  obtain ⟨t₁, ht₁, hr₁⟩ := htick { s with inputs := .hostWrite a v :: rest } rfl hu fun _ => rfl
  have hhost := moveHostWrite_of_lt (a := a) (v := v) (s := { t₁ with inputs := rest }) (by rw [hr₁.config]; exact ha)
  refine ⟨t, _, run_two (i := .hostWrite a v) rfl (moveHostWrite_of_lt ha) rfl ht,
    run_two (i := .tick n) rfl ht₁ hr₁.inputs hhost, hr.units.trans hr₁.units.symm, ?_,
    hr.responses.trans hr₁.responses.symm⟩
  show t.mem = Memory.set t₁.mem a v
  rw [hr.mem, hr₁.mem]
  cases hw : r.stored with
  | none => rfl
  | some w =>
    obtain ⟨-, hin⟩ := hstored.resolve_left (by simp [hw])
    exact Memory.set_comm hm (by omega) v w

/-- Settles O40: the tick of a read leaves memory and the other unit, so each tick leaves the same unit in both orders. -/
theorem readersOfDifferentUnitsDoNotInterfere : Obligations.ReadersOfDifferentUnitsDoNotInterfere := by
  unfold Obligations.ReadersOfDifferentUnitsDoNotInterfere
  intro s n k u v tr tr' rest hs hne hu hv hf hf' hdir hdir'
  obtain ⟨u', htick⟩ := moveTick_read hs hu hf hdir
  obtain ⟨v', htick'⟩ := moveTick_read hs hv hf' hdir'
  obtain ⟨t₁, ht₁, hc₁, hi₁, hu₁, hm₁⟩ := htick { s with inputs := .tick k :: rest } rfl hu rfl
  obtain ⟨t₂, ht₂, hc₂, hi₂, hu₂, hm₂⟩ := htick' { s with inputs := .tick n :: rest } rfl hv rfl
  have hv₁ : t₁.units[k]? = some v := by rw [hu₁, List.getElem?_set_ne hne]; exact hv
  have hu₂' : t₂.units[n]? = some u := by rw [hu₂, List.getElem?_set_ne hne.symm]; exact hu
  obtain ⟨t, ht, -, -, hunits, hmem⟩ := htick' { t₁ with inputs := rest } hc₁ hv₁ hm₁
  obtain ⟨t', ht', -, -, hunits', hmem'⟩ := htick { t₂ with inputs := rest } hc₂ hu₂' hm₂
  refine ⟨t, t', run_two (i := .tick n) rfl ht₁ hi₁ ht, run_two (i := .tick k) rfl ht₂ hi₂ ht', ?_,
    hmem.trans hmem'.symm⟩
  rw [hunits, hu₁, hunits', hu₂]
  exact List.set_comm _ _ hne

end Sys2Proof.Machine
end
